-- ==== Sys2Proof/Word.lean ====
section
/-! DEFINITION. The byte and the byte sequence (`00_scope.md` R8). -/

namespace Sys2Proof

/-- `Byte`: an unsigned 8-bit value (R8). -/
abbrev Byte := BitVec 8

/-- `Bytes`: a finite sequence of bytes, indexed from 0; index 0 of a frame is transmitted first
(R8, `30_encoding.md`). -/
abbrev Bytes := List Byte

/-- A string as its bytes. DESIGN CHOICE (log 16): the rules only compare names, for equality. -/
abbrev VarName := Bytes

end Sys2Proof
end

