-- ==== Sys2Proof/Syntax.lean ====
section
/-! DEFINITION. The engine's operand types (`10_state.md` R21 to R25) and the whole instruction set:
one constructor of `Instr` for every row of spec/opcode_table.json. -/

namespace Sys2Proof

/-! ## Operand types -/

/-- The payload mode `CFG.mode` (R21). `hex` is the raw binary mode, `ascii` the one that renders every
payload byte as two hex digits (`00_scope.md` R10). -/
inductive Mode
  | ascii
  | hex
deriving DecidableEq, Repr

/-- The memory type of a descriptor (R22). -/
inductive MemoryType
  | memory
  | input
  | output
deriving DecidableEq, Repr

/-- Which byte of a native word a variable addresses (R22). -/
inductive BytePosition
  | lsb
  | msb
deriving DecidableEq, Repr

/-- `bytesPerElement`, 1 or 2 (R23). -/
inductive Width
  | one
  | two
deriving DecidableEq, Repr

/-- The direction of a request (R30). -/
inductive Dir
  | read
  | write
deriving DecidableEq, Repr

/-- The access field of a descriptor (R22). -/
inductive Access
  | read
  | write
deriving DecidableEq, Repr

/-- The formats of `42_value_codec.md` R161. `other` is any format beyond the eight, which the codec
refuses with `UnsupportedFormat` (log 17). -/
inductive Format
  | char
  | bool
  | int8
  | uint8
  | int16
  | uint16
  | uint32
  | uint64
  | other (tag : Byte)
deriving DecidableEq, Repr

/-- An element value: `VBool`, `VChar` or `VInt` of R24. -/
inductive Scalar
  | bool (b : Bool)
  | char (c : Nat)
  | int (n : Int)
deriving DecidableEq, Repr

/-- `Value` of R24: an element, `VArray` of elements, or `VNull` for a failed or skipped read. -/
inductive Value
  | scalar (v : Scalar)
  | array (vs : List Scalar)
  | null
deriving DecidableEq, Repr

/-- `VariableDescriptor` (R22). The fields with a legal range carry plain naturals, because the range
is checked when a configuration is loaded (`48_scheduler.md` R332). -/
structure VarDescr where
  name : VarName
  memoryType : MemoryType
  nativeAddress : Nat
  bitIndex : Option Nat
  format : Format
  isArray : Bool
  length : Nat
  bytePosition : BytePosition
  access : Access
deriving DecidableEq, Repr

/-- `TranslatedAddress` (R23). -/
structure XAddr where
  ref : BitVec 16
  bpe : Width
deriving DecidableEq, Repr

/-- The configuration registers, which are also the operand record of the event `CFG` (R21, R332).
Durations in seconds are rationals (log 28). -/
structure Cfg where
  mode : Mode
  station : Byte
  t1 : Nat
  t2 : Nat
  t3 : Nat
  t4 : Nat
  requestFrequency : Rat
  disconnectReportTime : Rat
  vars : List VarDescr
  connIndicators : List VarName
deriving DecidableEq, Repr

/-- The alert keys of `60_exceptions.md` R370, in the order of their codes. -/
inductive AlertKey
  | deviceOpenError
  | readTimeoutError
  | writeTimeoutError
  | enqAckNotReceivedError
  | stxNotReceivedError
  | eotNotReceivedError
  | checksumError
  | invalidInputAddressError
  | invalidOutputAddressError
  | dbAddError
  | ackNotReceivedError
  | terminatorNotReceivedError
  | echoError
  | payloadFormatError
  | invalidMemoryAddressError
deriving DecidableEq, Repr

/-- How a session ended: the operand of `DONE` (`45_session_common.md` R271). -/
inductive SessionOutcome
  | readOk (v : Value)
  | readFail (timeout : Bool)
  | writeOk
  | writeFail (timeout : Bool)
deriving DecidableEq, Repr

/-- The twelve variable characters of a Header frame (`30_encoding.md` R95), bytes 1 to 12. -/
structure HdrChars where
  station0 : Byte
  station1 : Byte
  cmd : Byte
  dataType : Byte
  ref0 : Byte
  ref1 : Byte
  ref2 : Byte
  ref3 : Byte
  blocks0 : Byte
  blocks1 : Byte
  last0 : Byte
  last1 : Byte
deriving DecidableEq, Repr

/-- A checksum field as it stands on the wire: one raw byte in `HEX` mode, two hex-digit characters in
`ASCII` mode (`30_encoding.md` R101). -/
inductive CheckField
  | raw (k : Byte)
  | digits (k0 k1 : Byte)
deriving DecidableEq, Repr

/-! ## The instruction set -/

/-- One constructor per row of spec/opcode_table.json: the unit operations, events and internal
operations of R120, and the wire frames of R94 to R100. -/
inductive Instr
  -- 40_checksum.md
  | chk (b : Bytes) (lo hi : Nat)
  -- 41_address_translator.md
  | xlt (memoryType : MemoryType) (nativeAddress : Nat) (bitIndex : Option Nat)
      (bytePosition : BytePosition)
  -- 42_value_codec.md
  | encChar (v : Value) (w : Width)
  | encBool (v : Value) (w : Width)
  | encInt8 (v : Value) (w : Width)
  | encUint8 (v : Value) (w : Width)
  | encInt16 (v : Value) (w : Width)
  | encUint16 (v : Value) (w : Width)
  | encUint32 (v : Value) (w : Width)
  | encUint64 (v : Value) (w : Width)
  | enca (format : Format) (v : Value) (w : Width) (isArray : Bool) (length : Nat)
  | decChar (b : Bytes) (cur : Nat) (w : Width)
  | decBool (b : Bytes) (cur : Nat) (w : Width)
  | decInt8 (b : Bytes) (cur : Nat) (w : Width)
  | decUint8 (b : Bytes) (cur : Nat) (w : Width)
  | decInt16 (b : Bytes) (cur : Nat) (w : Width)
  | decUint16 (b : Bytes) (cur : Nat) (w : Width)
  | decUint32 (b : Bytes) (cur : Nat) (w : Width)
  | decUint64 (b : Bytes) (cur : Nat) (w : Width)
  | decBit (format : Format) (b : Bytes) (cur : Nat) (w : Width) (bitIndex : Nat)
      (bytePosition : BytePosition)
  | deca (var : VarDescr) (w : Width) (b : Bytes)
  -- 43_frame_builder.md, 44_frame_parser.md
  | hexe (x : Byte)
  | hexd (c0 c1 : Byte)
  | paye (raw : Bytes) (mode : Mode)
  | payd (wire : Bytes) (mode : Mode)
  | bldEnq (station : Byte)
  | bldHdr (station : Byte) (dir : Dir) (memoryType : MemoryType) (referenceAddress : BitVec 16)
      (numBytes : Nat) (mode : Mode)
  | bldDb (chunk : Bytes) (isFinal : Bool) (mode : Mode)
  | bldEot
  | bldAck
  | prsEnqAck (rx : Bytes)
  | prsAck (rx : Bytes)
  | prsDb (rx : Bytes) (isFirst isFinal : Bool) (size : Nat) (mode : Mode)
  | prsEot (rx : Bytes)
  | prsHdr (h : Bytes) (mode : Mode)
  -- 45_session_common.md, unit operations
  | blkmath (bpe : Width) (count : Nat) (mode : Mode)
  | expect (isFirst : Bool) (size : Nat) (mode : Mode)
  -- input events (10_state.md R41)
  | cfg (c : Cfg)
  | poll
  | wrq (name : VarName) (value : Value)
  | rxb (chunk : Bytes)
  | txc
  | tmo
  | dbt
  | cls
  | cpt
  -- internal operations
  | srd (var : VarDescr) (xa : XAddr)
  | swr (var : VarDescr) (xa : XAddr) (raw : Bytes)
  | abort (key : AlertKey) (timeout : Bool)
  | finish (outcome : SessionOutcome)
  -- wire frames (30_encoding.md R94 to R100)
  | frameEnq (a : Byte)
  | frameHdrHex (h : HdrChars) (k : Byte)
  | frameHdrAscii (h : HdrChars) (k0 k1 : Byte)
  | frameDbHex (p : Bytes) (t k : Byte)
  | frameDbAscii (p : Bytes) (t k0 k1 : Byte)
  | frameEot
  | frameAck
  | frameEnqRsp (u0 u1 : Byte)
  | frameDbFirst (p : Bytes) (t : Byte) (k : CheckField)
deriving DecidableEq, Repr

/-! ## What the input port carries -/

/-- The typed operand record of an operation (R41: records, not bit fields), one constructor per shape.
No bit layout is invented for it (D2; log 10). -/
inductive Operands
  | none
  | range (b : Bytes) (lo hi : Nat)
  | address (memoryType : MemoryType) (nativeAddress : Nat) (bitIndex : Option Nat)
      (bytePosition : BytePosition)
  | encode (v : Value) (w : Width)
  | encodeAll (format : Format) (v : Value) (w : Width) (isArray : Bool) (length : Nat)
  | decode (b : Bytes) (cur : Nat) (w : Width)
  | decodeBit (format : Format) (b : Bytes) (cur : Nat) (w : Width) (bitIndex : Nat)
      (bytePosition : BytePosition)
  | decodeAll (var : VarDescr) (w : Width) (b : Bytes)
  | byte (x : Byte)
  | bytePair (c0 c1 : Byte)
  | payload (b : Bytes) (mode : Mode)
  | header (station : Byte) (dir : Dir) (memoryType : MemoryType) (referenceAddress : BitVec 16)
      (numBytes : Nat) (mode : Mode)
  | block (chunk : Bytes) (isFinal : Bool) (mode : Mode)
  | bytes (b : Bytes)
  | parseBlock (rx : Bytes) (isFirst isFinal : Bool) (size : Nat) (mode : Mode)
  | sizes (bpe : Width) (count : Nat) (mode : Mode)
  | expected (isFirst : Bool) (size : Nat) (mode : Mode)
  | config (c : Cfg)
  | write (name : VarName) (value : Value)
  | startRead (var : VarDescr) (xa : XAddr)
  | startWrite (var : VarDescr) (xa : XAddr) (raw : Bytes)
  | abort (key : AlertKey) (timeout : Bool)
  | outcome (o : SessionOutcome)
deriving DecidableEq, Repr

/-- One delivery at the engine's input: an operation number (8 bits, R120) with its operand record, or a
frame as it stands on the line, read as the table's pattern of the given payload mode (R101). -/
inductive Input
  | op (number : Byte) (operands : Operands)
  | wire (mode : Mode) (bytes : Bytes)
deriving DecidableEq, Repr

end Sys2Proof
end

