-- ==== Sys2Proof/Config.lean ====
section
/-! DEFINITION. What an implementation fixes: the block size and station bound of `00_scope.md` R7, the
shape of the range table's rows, the build-time parameters, and the one free function, an
uninterpreted `ECHO_CHECK`. -/

namespace Sys2Proof.Config

/-- Payload bytes in a full block (R7). -/
def blockSize : Nat := 256

/-- The largest station address whose Enquiry byte fits eight bits (D11). -/
def stationMax : Byte := 0xDF

/-! ## Constant tables (the rows stand in `Machine/Operands.lean`) -/

/-- One row of the address-range table (R141). -/
structure RangeRow where
  base : Nat
  last : Nat
  offset : Nat
deriving DecidableEq, Repr

/-! ## Build-time parameters (R7) -/

/-- What the two header count fields carry (D12). -/
inductive HdrCountRule
  | fullAndRemainder
  | requiredAndLast
deriving DecidableEq, Repr

/-- Which byte of a 2-byte word a bit index addresses (D21). -/
inductive BitByteRule
  | byBytePosition
  | alwaysHigh
deriving DecidableEq, Repr

/-- The high byte when an 8-bit format is written into a 2-byte word (D22). -/
inductive HighByteRule
  | zero
  | copy
deriving DecidableEq, Repr

/-- The two treatments R238 offers for `ECHO_CHECK`: the default, which always passes, and the
uninterpreted check (log 4). -/
inductive EchoRule
  | passes
  | uninterpreted
deriving DecidableEq, Repr

/-- The build-time parameters of R7 and R21. No rule writes them; they stand in State so that a
statement over all states holds for all their values. DESIGN CHOICE (log 2). -/
structure Params where
  accMax : Nat
  closePollMs : Nat
  closeMaxWaitMs : Nat
  hdrCountRule : HdrCountRule
  bitByteRule : BitByteRule
  int8HighByte : HighByteRule
  echo : EchoRule
deriving DecidableEq, Repr

/-- The spec's defaults (R7). `closePollMs` and `closeMaxWaitMs` have none; the values are those of the
programs of `95_test_vectors.md` Part 3. DESIGN CHOICE (log 3). -/
def defaultParams : Params where
  accMax := 65535
  closePollMs := 100
  closeMaxWaitMs := 300
  hdrCountRule := .fullAndRemainder
  bitByteRule := .byBytePosition
  int8HighByte := .zero
  echo := .passes

/-- `ECHO_CHECK(rx, first, final, size, mode)` left uninterpreted (R238): a free function of its
operands. Nothing in Lean can evaluate it. DESIGN CHOICE (log 4), safe. -/
opaque echoCheck (rx : Bytes) (isFirst isFinal : Bool) (size : Nat) (mode : Mode) : Bool

end Sys2Proof.Config
end

