-- ==== Sys2Proof/WellFormed.lean ====
section
/-! DEFINITION. The operand domains the rules state for which they name no refusal of their own
(`93_implementation_defined.md` U19; log 24): the decoder refuses an instruction outside them by the
name `illFormed`. -/

namespace Sys2Proof

/-- `elementCount(var)` (R22). -/
def VarDescr.elementCount (v : VarDescr) : Nat := if v.isArray then v.length else 1

/-- `bytesPerElement` as a number (R23). -/
def Width.bytes : Width → Nat
  | .one => 1
  | .two => 2

/-- A bit index is absent or 0..7 (R22). -/
def wfBitIndex : Option Nat → Bool
  | none => true
  | some i => decide (i ≤ 7)

/-- A key that a session can raise: the classes Read and Write of `60_exceptions.md` R370. The keys of class
Config belong to the scheduler, those of class external to the collaborators (R440). -/
def AlertKey.inSession : AlertKey → Bool
  | .deviceOpenError => false
  | .readTimeoutError => true
  | .writeTimeoutError => true
  | .enqAckNotReceivedError => true
  | .stxNotReceivedError => true
  | .eotNotReceivedError => true
  | .checksumError => true
  | .invalidInputAddressError => false
  | .invalidOutputAddressError => false
  | .dbAddError => false
  | .ackNotReceivedError => true
  | .terminatorNotReceivedError => true
  | .echoError => true
  | .payloadFormatError => true
  | .invalidMemoryAddressError => false

/-- The wire payload of a data block has 1..256 bytes (R97). -/
def wfPayload (p : Bytes) : Bool := decide (1 ≤ p.length ∧ p.length ≤ Config.blockSize)

namespace Instr

/-- The operands lie in the domains their rules state. -/
def wf : Instr → Bool
  | .chk _ _ _ => true
  | .xlt _ a b _ => decide (a ≤ 0xFFFF) && wfBitIndex b
  | .encChar _ _ => true
  | .encBool _ _ => true
  | .encInt8 _ _ => true
  | .encUint8 _ _ => true
  | .encInt16 _ _ => true
  | .encUint16 _ _ => true
  | .encUint32 _ _ => true
  | .encUint64 _ _ => true
  | .enca _ _ _ _ _ => true
  | .decChar _ _ _ => true
  | .decBool _ _ _ => true
  | .decInt8 _ _ _ => true
  | .decUint8 _ _ _ => true
  | .decInt16 _ _ _ => true
  | .decUint16 _ _ _ => true
  | .decUint32 _ _ _ => true
  | .decUint64 _ _ _ => true
  | .decBit _ _ _ _ i _ => decide (i ≤ 7)
  | .deca v _ _ => wfBitIndex v.bitIndex && (!v.isArray || decide (1 ≤ v.length))
  | .hexe _ => true
  | .hexd _ _ => true
  | .paye _ _ => true
  | .payd _ _ => true
  | .bldEnq _ => true
  | .bldHdr st _ _ _ n _ => decide (st ≤ Config.stationMax) && decide (1 ≤ n ∧ n ≤ 65535)
  | .bldDb _ _ _ => true
  | .bldEot => true
  | .bldAck => true
  | .prsEnqAck _ => true
  | .prsAck _ => true
  | .prsDb _ _ _ size _ => decide (1 ≤ size ∧ size ≤ Config.blockSize)
  | .prsEot _ => true
  | .prsHdr _ _ => true
  | .blkmath _ _ _ => true
  | .expect _ size _ => decide (1 ≤ size ∧ size ≤ Config.blockSize)
  | .cfg _ => true
  | .poll => true
  | .wrq _ _ => true
  | .rxb chunk => decide (1 ≤ chunk.length)
  | .txc => true
  | .tmo => true
  | .dbt => true
  | .cls => true
  | .cpt => true
  | .srd v _ => decide (v.access = .read)
  | .swr v xa raw =>
      decide (v.access = .write) && v.bitIndex.isNone &&
        decide (raw.length = xa.bpe.bytes * v.elementCount)
  | .abort k _ => k.inSession
  | .finish _ => true
  | .frameEnq _ => true
  | .frameHdrHex _ _ => true
  | .frameHdrAscii _ _ _ => true
  | .frameDbHex p _ _ => wfPayload p
  | .frameDbAscii p _ _ _ => wfPayload p
  | .frameEot => true
  | .frameAck => true
  | .frameEnqRsp _ _ => true
  | .frameDbFirst p _ _ => wfPayload p

end Instr

end Sys2Proof
end

