-- ==== Sys2Proof/Decode.lean ====
section
/-! DEFINITION. The control codes (`30_encoding.md` R91), the decoder of the input port, total and
rejecting by name, and after it the encoder. Operation numbers are those of R120; the wire frames are
those of R94 to R100. -/

namespace Sys2Proof

/-! ## Control codes (R91) -/

namespace Code

/-- SOH, header start. PRESUMED by the spec itself (D10, G2: ASCII SOH; log 22). -/
def soh : Byte := 0x01
/-- STX, data-block start. -/
def stx : Byte := 0x02
/-- ETX, final-block end. -/
def etx : Byte := 0x03
/-- EOT, transmission end. -/
def eot : Byte := 0x04
/-- ENQ, third byte of the Enquiry. -/
def enq : Byte := 0x05
/-- ACK, acknowledge. -/
def ack : Byte := 0x06
/-- ETB, non-final-block end and end of the header body. -/
def etb : Byte := 0x17
/-- The character 'N', first byte of the Enquiry. -/
def enqLead : Byte := 0x4E
/-- The offset added to the station address in the Enquiry. -/
def stationOffset : Byte := 0x20
/-- The two characters of MASTER_ID, '0' and '1' (R21, R95). -/
def masterId0 : Byte := 0x30
/-- See `masterId0`. -/
def masterId1 : Byte := 0x31

end Code

/-! ## Decoding -/

/-- Why the decoder refuses an input. -/
inductive DecodeError
  /-- "Numbers not in the table name no operation" (R120). Safe. -/
  | unknownNumber
  /-- The operand record is not of the shape the operation takes (R41). Safe. -/
  | wrongOperands
  /-- The bytes match no frame pattern of R94 to R100 in the given mode. Safe. -/
  | notAFrame
  /-- An operand lies outside the domain its rule states (U19; log 24). Safe. -/
  | illFormed
deriving DecidableEq, Repr

/-- Checksum bytes at the end of a header or a data block (R101). -/
def checkLen : Mode → Nat
  | .hex => 1
  | .ascii => 2

/-- The operation numbers of R120. -/
def opNumbers : List Nat :=
  [0x01, 0x02, 0x10, 0x11, 0x12, 0x13, 0x14, 0x15, 0x16, 0x17, 0x18,
   0x20, 0x21, 0x22, 0x23, 0x24, 0x25, 0x26, 0x27, 0x28, 0x29,
   0x30, 0x31, 0x32, 0x33, 0x40, 0x41, 0x42, 0x43, 0x44, 0x50, 0x51, 0x52, 0x53, 0x54,
   0x60, 0x61, 0x80, 0x81, 0x82, 0x83, 0x84, 0x85, 0x86, 0x87, 0x88, 0x90, 0x91, 0x92, 0x93]

/-- Operations without operands. -/
def decodeBare (n : Nat) : Option Instr :=
  if n = 0x43 then some .bldEot
  else if n = 0x44 then some .bldAck
  else if n = 0x81 then some .poll
  else if n = 0x84 then some .txc
  else if n = 0x85 then some .tmo
  else if n = 0x86 then some .dbt
  else if n = 0x87 then some .cls
  else if n = 0x88 then some .cpt
  else none

/-- The eight encode operations, numbers 0x10 to 0x17. -/
def decodeEncode (n : Nat) (v : Value) (w : Width) : Option Instr :=
  if n = 0x10 then some (.encChar v w)
  else if n = 0x11 then some (.encBool v w)
  else if n = 0x12 then some (.encInt8 v w)
  else if n = 0x13 then some (.encUint8 v w)
  else if n = 0x14 then some (.encInt16 v w)
  else if n = 0x15 then some (.encUint16 v w)
  else if n = 0x16 then some (.encUint32 v w)
  else if n = 0x17 then some (.encUint64 v w)
  else none

/-- The eight decode operations, numbers 0x20 to 0x27. -/
def decodeDecode (n : Nat) (b : Bytes) (cur : Nat) (w : Width) : Option Instr :=
  if n = 0x20 then some (.decChar b cur w)
  else if n = 0x21 then some (.decBool b cur w)
  else if n = 0x22 then some (.decInt8 b cur w)
  else if n = 0x23 then some (.decUint8 b cur w)
  else if n = 0x24 then some (.decInt16 b cur w)
  else if n = 0x25 then some (.decUint16 b cur w)
  else if n = 0x26 then some (.decUint32 b cur w)
  else if n = 0x27 then some (.decUint64 b cur w)
  else none

/-- The operations on one byte sequence. -/
def decodeBytes (n : Nat) (b : Bytes) : Option Instr :=
  if n = 0x50 then some (.prsEnqAck b)
  else if n = 0x51 then some (.prsAck b)
  else if n = 0x53 then some (.prsEot b)
  else if n = 0x83 then some (.rxb b)
  else none

/-- The operations on a byte sequence and a payload mode. -/
def decodePayload (n : Nat) (b : Bytes) (m : Mode) : Option Instr :=
  if n = 0x32 then some (.paye b m)
  else if n = 0x33 then some (.payd b m)
  else if n = 0x54 then some (.prsHdr b m)
  else none

/-- The operations on one byte. -/
def decodeByte (n : Nat) (x : Byte) : Option Instr :=
  if n = 0x30 then some (.hexe x)
  else if n = 0x40 then some (.bldEnq x)
  else none

/-- The operation of a number, given an operand record of the shape it takes (R120). -/
def decodeOp (n : Nat) : Operands → Option Instr
  | .none => decodeBare n
  | .range b lo hi => if n = 0x01 then some (.chk b lo hi) else none
  | .address mt a i p => if n = 0x02 then some (.xlt mt a i p) else none
  | .encode v w => decodeEncode n v w
  | .encodeAll f v w arr len => if n = 0x18 then some (.enca f v w arr len) else none
  | .decode b cur w => decodeDecode n b cur w
  | .decodeBit f b cur w i p => if n = 0x28 then some (.decBit f b cur w i p) else none
  | .decodeAll v w b => if n = 0x29 then some (.deca v w b) else none
  | .byte x => decodeByte n x
  | .bytePair c0 c1 => if n = 0x31 then some (.hexd c0 c1) else none
  | .payload b m => decodePayload n b m
  | .header st d mt r k m => if n = 0x41 then some (.bldHdr st d mt r k m) else none
  | .block c f m => if n = 0x42 then some (.bldDb c f m) else none
  | .bytes b => decodeBytes n b
  | .parseBlock rx a f size m => if n = 0x52 then some (.prsDb rx a f size m) else none
  | .sizes w c m => if n = 0x60 then some (.blkmath w c m) else none
  | .expected a size m => if n = 0x61 then some (.expect a size m) else none
  | .config c => if n = 0x80 then some (.cfg c) else none
  | .write name v => if n = 0x82 then some (.wrq name v) else none
  | .startRead v xa => if n = 0x90 then some (.srd v xa) else none
  | .startWrite v xa raw => if n = 0x91 then some (.swr v xa raw) else none
  | .abort k t => if n = 0x92 then some (.abort k t) else none
  | .outcome o => if n = 0x93 then some (.finish o) else none

/-- What follows SOH in a Header frame: sixteen bytes in `HEX` mode, seventeen in `ASCII` mode (R95). -/
def decodeHeader (m : Mode) (rest : Bytes) : Option Instr :=
  match m, rest with
  | .hex, [s0, s1, c, d, r0, r1, r2, r3, b0, b1, l0, l1, i0, i1, e, k] =>
    if i0 = Code.masterId0 ∧ i1 = Code.masterId1 ∧ e = Code.etb then
      some (.frameHdrHex ⟨s0, s1, c, d, r0, r1, r2, r3, b0, b1, l0, l1⟩ k)
    else none
  | .ascii, [s0, s1, c, d, r0, r1, r2, r3, b0, b1, l0, l1, i0, i1, e, k0, k1] =>
    if i0 = Code.masterId0 ∧ i1 = Code.masterId1 ∧ e = Code.etb then
      some (.frameHdrAscii ⟨s0, s1, c, d, r0, r1, r2, r3, b0, b1, l0, l1⟩ k0 k1)
    else none
  | _, _ => none

/-- What follows STX in a data block: payload, terminator, checksum field (R97). The length is known,
the terminator is never found by scanning (R101). -/
def decodeBlock (m : Mode) (rest : Bytes) : Option (Bytes × Byte × CheckField) :=
  let n := rest.length - (checkLen m + 1)
  match m, rest.drop n with
  | .hex, [t, k] => some (rest.take n, t, .raw k)
  | .ascii, [t, k0, k1] => some (rest.take n, t, .digits k0 k1)
  | _, _ => none

/-- A data block alone. -/
def decodeDataBlock (m : Mode) (rest : Bytes) : Option Instr :=
  match decodeBlock m rest with
  | some (p, t, .raw k) => some (.frameDbHex p t k)
  | some (p, t, .digits k0 k1) => some (.frameDbAscii p t k0 k1)
  | none => none

/-- The first block of a read as received, after its leading ACK (R100). -/
def decodeFirstBlock (m : Mode) : Bytes → Option Instr
  | x :: rest =>
    if x = Code.stx then
      match decodeBlock m rest with
      | some (p, t, k) => some (.frameDbFirst p t k)
      | none => none
    else none
  | [] => none

/-- The frame pattern that the bytes match (R94 to R100), in the payload mode that fixes the width of
its checksum field. -/
def decodeWire (m : Mode) (b : Bytes) : Option Instr :=
  match b with
  | [] => none
  | [x] =>
    if x = Code.eot then some .frameEot else if x = Code.ack then some .frameAck else none
  | [x, y, z] =>
    if x = Code.enqLead ∧ z = Code.enq then some (.frameEnq y)
    else if z = Code.ack then some (.frameEnqRsp x y)
    else none
  | x :: rest =>
    if x = Code.soh then decodeHeader m rest
    else if x = Code.stx then decodeDataBlock m rest
    else if x = Code.ack then decodeFirstBlock m rest
    else none

/-- The operands are in their domains, or the input is refused by name. -/
def checked (i : Instr) : Except DecodeError Instr :=
  if i.wf then .ok i else .error .illFormed

/-- The decoder: total, rejecting by name. -/
def decode : Input → Except DecodeError Instr
  | .op n ops =>
    if n.toNat ∈ opNumbers then
      match decodeOp n.toNat ops with
      | some i => checked i
      | none => .error .wrongOperands
    else .error .unknownNumber
  | .wire m b =>
    match decodeWire m b with
    | some i => checked i
    | none => .error .notAFrame

/-! ## Encoding -/

/-- The Enquiry with second byte `a` (R94). -/
def enqBytes (a : Byte) : Bytes := [Code.enqLead, a, Code.enq]

/-- The sixteen bytes of a header before its checksum (R95). -/
def headerBytes (h : HdrChars) : Bytes :=
  [Code.soh, h.station0, h.station1, h.cmd, h.dataType, h.ref0, h.ref1, h.ref2, h.ref3,
   h.blocks0, h.blocks1, h.last0, h.last1, Code.masterId0, Code.masterId1, Code.etb]

/-- A checksum field on the wire (R101). -/
def CheckField.bytes : CheckField → Bytes
  | .raw k => [k]
  | .digits k0 k1 => [k0, k1]

/-- The payload mode whose frames carry such a checksum field (R101). -/
def CheckField.mode : CheckField → Mode
  | .raw _ => .hex
  | .digits _ _ => .ascii

/-- A data block: STX, payload, terminator, checksum field (R97). -/
def blockBytes (p : Bytes) (t : Byte) (k : CheckField) : Bytes :=
  Code.stx :: (p ++ t :: k.bytes)

/-- The enquiry response with any two leading bytes (R99). -/
def enqRspBytes (u0 u1 : Byte) : Bytes := [u0, u1, Code.ack]

/-- The first block of a read, with its leading ACK (R100). -/
def firstBlockBytes (p : Bytes) (t : Byte) (k : CheckField) : Bytes :=
  Code.ack :: blockBytes p t k

/-- The operation number of an instruction (R120); a wire frame has none. -/
def Instr.number : Instr → Option Byte
  | .chk _ _ _ => some 0x01
  | .xlt _ _ _ _ => some 0x02
  | .encChar _ _ => some 0x10
  | .encBool _ _ => some 0x11
  | .encInt8 _ _ => some 0x12
  | .encUint8 _ _ => some 0x13
  | .encInt16 _ _ => some 0x14
  | .encUint16 _ _ => some 0x15
  | .encUint32 _ _ => some 0x16
  | .encUint64 _ _ => some 0x17
  | .enca _ _ _ _ _ => some 0x18
  | .decChar _ _ _ => some 0x20
  | .decBool _ _ _ => some 0x21
  | .decInt8 _ _ _ => some 0x22
  | .decUint8 _ _ _ => some 0x23
  | .decInt16 _ _ _ => some 0x24
  | .decUint16 _ _ _ => some 0x25
  | .decUint32 _ _ _ => some 0x26
  | .decUint64 _ _ _ => some 0x27
  | .decBit _ _ _ _ _ _ => some 0x28
  | .deca _ _ _ => some 0x29
  | .hexe _ => some 0x30
  | .hexd _ _ => some 0x31
  | .paye _ _ => some 0x32
  | .payd _ _ => some 0x33
  | .bldEnq _ => some 0x40
  | .bldHdr _ _ _ _ _ _ => some 0x41
  | .bldDb _ _ _ => some 0x42
  | .bldEot => some 0x43
  | .bldAck => some 0x44
  | .prsEnqAck _ => some 0x50
  | .prsAck _ => some 0x51
  | .prsDb _ _ _ _ _ => some 0x52
  | .prsEot _ => some 0x53
  | .prsHdr _ _ => some 0x54
  | .blkmath _ _ _ => some 0x60
  | .expect _ _ _ => some 0x61
  | .cfg _ => some 0x80
  | .poll => some 0x81
  | .wrq _ _ => some 0x82
  | .rxb _ => some 0x83
  | .txc => some 0x84
  | .tmo => some 0x85
  | .dbt => some 0x86
  | .cls => some 0x87
  | .cpt => some 0x88
  | .srd _ _ => some 0x90
  | .swr _ _ _ => some 0x91
  | .abort _ _ => some 0x92
  | .finish _ => some 0x93
  | .frameEnq _ => none
  | .frameHdrHex _ _ => none
  | .frameHdrAscii _ _ _ => none
  | .frameDbHex _ _ _ => none
  | .frameDbAscii _ _ _ _ => none
  | .frameEot => none
  | .frameAck => none
  | .frameEnqRsp _ _ => none
  | .frameDbFirst _ _ _ => none

/-- The encoder: an instruction as it stands at the input port, written from R120 and R94 to R100. A
frame whose bytes do not depend on the payload mode is written in `HEX` mode. -/
def encode : Instr → Input
  | .chk b lo hi => .op 0x01 (.range b lo hi)
  | .xlt mt a i p => .op 0x02 (.address mt a i p)
  | .encChar v w => .op 0x10 (.encode v w)
  | .encBool v w => .op 0x11 (.encode v w)
  | .encInt8 v w => .op 0x12 (.encode v w)
  | .encUint8 v w => .op 0x13 (.encode v w)
  | .encInt16 v w => .op 0x14 (.encode v w)
  | .encUint16 v w => .op 0x15 (.encode v w)
  | .encUint32 v w => .op 0x16 (.encode v w)
  | .encUint64 v w => .op 0x17 (.encode v w)
  | .enca f v w arr len => .op 0x18 (.encodeAll f v w arr len)
  | .decChar b cur w => .op 0x20 (.decode b cur w)
  | .decBool b cur w => .op 0x21 (.decode b cur w)
  | .decInt8 b cur w => .op 0x22 (.decode b cur w)
  | .decUint8 b cur w => .op 0x23 (.decode b cur w)
  | .decInt16 b cur w => .op 0x24 (.decode b cur w)
  | .decUint16 b cur w => .op 0x25 (.decode b cur w)
  | .decUint32 b cur w => .op 0x26 (.decode b cur w)
  | .decUint64 b cur w => .op 0x27 (.decode b cur w)
  | .decBit f b cur w i p => .op 0x28 (.decodeBit f b cur w i p)
  | .deca v w b => .op 0x29 (.decodeAll v w b)
  | .hexe x => .op 0x30 (.byte x)
  | .hexd c0 c1 => .op 0x31 (.bytePair c0 c1)
  | .paye b m => .op 0x32 (.payload b m)
  | .payd b m => .op 0x33 (.payload b m)
  | .bldEnq st => .op 0x40 (.byte st)
  | .bldHdr st d mt r n m => .op 0x41 (.header st d mt r n m)
  | .bldDb c f m => .op 0x42 (.block c f m)
  | .bldEot => .op 0x43 .none
  | .bldAck => .op 0x44 .none
  | .prsEnqAck rx => .op 0x50 (.bytes rx)
  | .prsAck rx => .op 0x51 (.bytes rx)
  | .prsDb rx a f size m => .op 0x52 (.parseBlock rx a f size m)
  | .prsEot rx => .op 0x53 (.bytes rx)
  | .prsHdr h m => .op 0x54 (.payload h m)
  | .blkmath w c m => .op 0x60 (.sizes w c m)
  | .expect a size m => .op 0x61 (.expected a size m)
  | .cfg c => .op 0x80 (.config c)
  | .poll => .op 0x81 .none
  | .wrq name v => .op 0x82 (.write name v)
  | .rxb chunk => .op 0x83 (.bytes chunk)
  | .txc => .op 0x84 .none
  | .tmo => .op 0x85 .none
  | .dbt => .op 0x86 .none
  | .cls => .op 0x87 .none
  | .cpt => .op 0x88 .none
  | .srd v xa => .op 0x90 (.startRead v xa)
  | .swr v xa raw => .op 0x91 (.startWrite v xa raw)
  | .abort k t => .op 0x92 (.abort k t)
  | .finish o => .op 0x93 (.outcome o)
  | .frameEnq a => .wire .hex (enqBytes a)
  | .frameHdrHex h k => .wire .hex (headerBytes h ++ [k])
  | .frameHdrAscii h k0 k1 => .wire .ascii (headerBytes h ++ [k0, k1])
  | .frameDbHex p t k => .wire .hex (blockBytes p t (.raw k))
  | .frameDbAscii p t k0 k1 => .wire .ascii (blockBytes p t (.digits k0 k1))
  | .frameEot => .wire .hex [Code.eot]
  | .frameAck => .wire .hex [Code.ack]
  | .frameEnqRsp u0 u1 => .wire .hex (enqRspBytes u0 u1)
  | .frameDbFirst p t k => .wire k.mode (firstBlockBytes p t k)

/-! ## The opcode table's words -/

/-- A descriptor of zeros, with the given access. -/
def zeroVar (a : Access) : VarDescr where
  name := []
  memoryType := .memory
  nativeAddress := 0
  bitIndex := none
  format := .char
  isArray := false
  length := 0
  bytePosition := .lsb
  access := a

/-- The smallest legal configuration: the source's timeout defaults, a period of one second, no
variables. -/
def zeroCfg : Cfg where
  mode := .ascii
  station := 0
  t1 := 800
  t2 := 2000
  t3 := 800
  t4 := 2000
  requestFrequency := 1
  disconnectReportTime := 0
  vars := []
  connIndicators := []

/-- The operand record that stands for "operand words of zeros" of an operation number: every operand
at the zero of its domain (the least legal value where 0 is not legal; as many zero bytes as the
operation needs). The table gives operands no bits (log 10). -/
def zeroOperands (n : Nat) : Operands :=
  match n with
  | 0x01 => .range [] 0 0
  | 0x02 => .address .memory 0 none .lsb
  | 0x10 => .encode (.scalar (.char 0)) .one
  | 0x11 => .encode (.scalar (.bool false)) .one
  | 0x12 => .encode (.scalar (.int 0)) .one
  | 0x13 => .encode (.scalar (.int 0)) .one
  | 0x14 => .encode (.scalar (.int 0)) .one
  | 0x15 => .encode (.scalar (.int 0)) .one
  | 0x16 => .encode (.scalar (.int 0)) .one
  | 0x17 => .encode (.scalar (.int 0)) .one
  | 0x18 => .encodeAll .char (.scalar (.char 0)) .one false 0
  | 0x20 => .decode [0] 0 .one
  | 0x21 => .decode [0] 0 .one
  | 0x22 => .decode [0] 0 .one
  | 0x23 => .decode [0] 0 .one
  | 0x24 => .decode [0] 0 .one
  | 0x25 => .decode [0] 0 .one
  | 0x26 => .decode [0] 0 .one
  | 0x27 => .decode [0] 0 .one
  | 0x28 => .decodeBit .char [0] 0 .one 0 .lsb
  | 0x29 => .decodeAll (zeroVar .read) .one [0]
  | 0x30 => .byte 0
  | 0x31 => .bytePair 0 0
  | 0x32 => .payload [] .ascii
  | 0x33 => .payload [] .ascii
  | 0x40 => .byte 0
  | 0x41 => .header 0 .read .memory 0 1 .ascii
  | 0x42 => .block [0] false .ascii
  | 0x50 => .bytes [0, 0, 0]
  | 0x51 => .bytes [0]
  | 0x52 => .parseBlock [0, 0, 0, 0, 0] false false 1 .ascii
  | 0x53 => .bytes [0]
  | 0x54 => .payload [] .ascii
  | 0x60 => .sizes .one 0 .ascii
  | 0x61 => .expected false 1 .ascii
  | 0x80 => .config zeroCfg
  | 0x82 => .write [] (.scalar (.bool false))
  | 0x83 => .bytes [0]
  | 0x90 => .startRead (zeroVar .read) ⟨0, .one⟩
  | 0x91 => .startWrite (zeroVar .write) ⟨0, .one⟩ [0]
  | 0x92 => .abort .readTimeoutError false
  | 0x93 => .outcome (.readFail false)
  | _ => .none

/-- The `n` bytes of a word, the most significant first: a frame pattern of the table is written first
byte first and read as one number (`98_reader.md`; log 11). -/
def wordBytes : Nat → Nat → Bytes
  | 0, _ => []
  | n + 1, w => BitVec.ofNat 8 (w >>> (8 * n)) :: wordBytes n w

/-- The payload mode of the table's row a word of `nbits` bits belongs to: FRAME.HDR.ASCII has 144 bits,
FRAME.DB.ASCII 40 with STX first, an ASCII first block 48 with ACK first; every other pattern is a HEX
one or does not depend on the mode. -/
def tableMode (nbits w : Nat) : Mode :=
  if nbits = 144 then .ascii
  else if nbits = 40 ∧ w >>> 32 = 0x02 then .ascii
  else if nbits = 48 ∧ w >>> 40 = 0x06 then .ascii
  else .hex

/-- A word of the opcode table as a delivery at the input port. The 8-bit words 0x04 and 0x06 are the
frames EOT and ACK (no operation has these numbers); every other 8-bit word is an operation number. -/
def tableInput (nbits w : Nat) : Input :=
  if nbits = 8 then
    if w = 0x04 ∨ w = 0x06 then .wire .hex [BitVec.ofNat 8 w]
    else .op (BitVec.ofNat 8 w) (zeroOperands w)
  else .wire (tableMode nbits w) (wordBytes (nbits / 8) w)

/-- The instruction the decoder reads from a word of the opcode table. -/
def decodeTableWord (nbits w : Nat) : Option Instr :=
  match decode (tableInput nbits w) with
  | .ok i => some i
  | .error _ => none

end Sys2Proof
end

