-- ==== Sys2Proof/Machine/State.lean ====
section
/-! DEFINITION. The engine's state `(CFG, S, Q, A)` of `10_state.md` R20 to R38 as plain data, with the
build-time parameters and the model's own fields (the input queue, the output log, the answer), the
reasons a step can stop, and the state after reset (`70_reset_and_hazards.md` R421). -/

namespace Sys2Proof.Machine

/-! ## Protocol session (R25 to R31) -/

/-- `S.state` (R25). -/
inductive SState
  | idle
  | waitReadEnqAck
  | waitReadDataBlock
  | waitReadEot
  | waitWriteEnqAck
  | waitWriteDataBlockAck
  | waitWriteEot
deriving DecidableEq, Repr

/-- The four session timers (R29). -/
inductive TimerId
  | t1
  | t2
  | t3
  | t4
deriving DecidableEq, Repr

/-- `S.timer`, the source's timeoutHandle (R29). -/
inductive Timer
  | disarmed
  | armed (k : TimerId)
deriving DecidableEq, Repr

/-- `S.req`, the current request (R30). -/
structure Request where
  var : VarDescr
  dir : Dir
  xa : XAddr
  count : Nat
  numBytes : Nat
  wire : Bytes
deriving DecidableEq, Repr

/-- The protocol session `S` (R25 to R30). The 9-bit registers are naturals (log 15). -/
structure Session where
  state : SState
  blocksRequired : Nat
  blocksDone : Nat
  lastBlockSize : Nat
  expectedByteCount : Nat
  acc : Bytes
  rx : Bytes
  timer : Timer
  armOnTxc : Option TimerId
  txOutstanding : Nat
  req : Option Request
deriving DecidableEq, Repr

/-! ## Scheduler (R32 to R37) -/

/-- `Q.cycle` when a read cycle is in progress (R32). -/
structure ReadCycle where
  list : List VarDescr
  results : List Value
  cursor : Nat
deriving DecidableEq, Repr

/-- `Q.pendingWrite` when a write is queued (R33). -/
structure PendingWrite where
  var : VarDescr
  value : Value
deriving DecidableEq, Repr

/-- `Q.link` (R35). -/
inductive Link
  | unreported
  | reportedTrue
  | reportedFalse
deriving DecidableEq, Repr

/-- `Q.debounce` (R35). -/
inductive Latch
  | disarmed
  | armed
deriving DecidableEq, Repr

/-- `Q.run` (R37). -/
inductive RunMode
  | unconfigured
  | running
  | closing
  | closed
deriving DecidableEq, Repr

/-- The scheduler `Q` (R32 to R37). `invalidLatched` is a set of names, held without repeats (log 18). -/
structure Sched where
  cycle : Option ReadCycle
  pendingWrite : Option PendingWrite
  readPending : Bool
  link : Link
  debounce : Latch
  invalidLatched : List VarName
  run : RunMode
  closeWaited : Nat
deriving DecidableEq, Repr

/-! ## Outputs and answers -/

/-- The output events of R42. -/
inductive Output
  | tx (frame : Bytes)
  | report (name : VarName) (value : Value)
  | alertRaise (key : AlertKey) (ctx : VarName)
  | alertClear (key : AlertKey)
  | writeDone (name : VarName) (ok : Bool)
  | closeDone
deriving DecidableEq, Repr

/-- The failures a parser operation can return (`44_frame_parser.md` R230). -/
inductive FailKind
  | enqAckMissing
  | ackMissing
  | stxMissing
  | terminatorMissing
  | checksumMismatch
  | echoMismatch
  | eotMissing
deriving DecidableEq, Repr

/-- A parser's verdict (R230). -/
inductive Verdict (α : Type)
  | ok (a : α)
  | fail (kind : FailKind)
deriving DecidableEq, Repr

/-- The fields `PRS.HDR` extracts (R236). -/
structure HdrFields where
  station : Nat
  cmd : Byte
  dataType : Byte
  referenceAddress : Nat
  hdrBlocks : Nat
  hdrLast : Nat
  masterId : Nat
deriving DecidableEq, Repr

/-- The sizes of a request: `BLKMATH`'s result (`45_session_common.md` R263). -/
structure Sizes where
  numBytes : Nat
  blocksRequired : Nat
  lastBlockSize : Nat
deriving DecidableEq, Repr

/-- The reasons of `60_exceptions.md` R371. -/
inductive Reason
  | busy
  | badLength
  | notRunning
  | closed
  | configInvalid
  | unknownVariable
  | notWritable
  | bitWriteUnsupported
  | typeMismatch
  | lengthMismatch
  | charOutOfRange
  | unsupportedFormat
  | stationOutOfRange
  | badBlockSize
  | fieldOverflow
  | badRange
  | shortPayload
deriving DecidableEq, Repr

/-- What the caller of a step sees (the model's own field, log 9): the result of a unit operation, or
`Refused(reason)` (R371). -/
inductive Reply
  | none
  | byte (x : Byte)
  | address (r : Option XAddr)
  | bytes (b : Bytes)
  | value (v : Value)
  | hexByte (r : Option Byte)
  | rawPayload (r : Option Bytes)
  | verdict (v : Verdict Unit)
  | block (v : Verdict Bytes)
  | header (v : Verdict HdrFields)
  | sizes (z : Sizes)
  | count (n : Nat)
  | refused (r : Reason)
deriving DecidableEq, Repr

/-! ## Why a step stops -/

/-- States no run reaches (log 14). Each is safe: the model stops where the rules read a thing that is
not there. -/
inductive Fault
  /-- Raised by a session rule that reads `S.req` while it is absent; R272 item 1 rules it out. Safe. -/
  | noRequest
  /-- Raised by a scheduler rule that reads or writes `Q.cycle` while it is absent or its cursor stands
  at its end; R331 item 3 rules it out. Safe. -/
  | noCycle
  /-- Raised by `DISPATCH_WRITE` when the queued variable's address does not translate; R341 rules it
  out. Safe. -/
  | undispatchable
deriving DecidableEq, Repr

/-- Why an input has no next state. -/
inductive Refusal
  /-- Raised by an arm of `exec` whose instruction has no meaning yet. Safe. -/
  | notModelled (mnemonic : String)
  /-- Raised by an operation that the spec refuses (R371). `step` drops the input and goes on. Safe. -/
  | refuse (reason : Reason)
  /-- Raised by an event that is not enabled in this state: it "cannot occur" (R41, R261; log 7). Safe. -/
  | notEnabled
  /-- Raised by `step` when the decoder rejects the input (R120; log 10). Safe. -/
  | undecodable (e : DecodeError)
deriving DecidableEq, Repr

/-! ## The state -/

/-- The whole state: `cfg`, `ses`, `sch`, `raised` are `CFG`, `S`, `Q`, `A.raised` of R20; `par` the
build-time parameters (log 2); `inbox`, `out`, `reply` the model's own fields (logs 5, 8, 9). Bit `i` of
`raised` is the sticky bit of the alert key with code `i` (R38, R370). -/
structure State where
  cfg : Cfg
  ses : Session
  sch : Sched
  raised : BitVec 15
  par : Config.Params
  inbox : List Input
  out : List Output
  reply : Reply
deriving DecidableEq, Repr

/-- The configuration registers after reset: the timeouts of R421, empty lists, and for the four
registers without a reset value the model's choice. DESIGN CHOICE (log 1). -/
def resetCfg : Cfg where
  mode := .ascii
  station := 0
  t1 := 800
  t2 := 2000
  t3 := 800
  t4 := 2000
  requestFrequency := 0
  disconnectReportTime := 0
  vars := []
  connIndicators := []

/-- The session after reset (R421). -/
def resetSession : Session where
  state := .idle
  blocksRequired := 0
  blocksDone := 0
  lastBlockSize := 0
  expectedByteCount := 0
  acc := []
  rx := []
  timer := .disarmed
  armOnTxc := none
  txOutstanding := 0
  req := none

/-- The scheduler after reset (R421). -/
def resetSched : Sched where
  cycle := none
  pendingWrite := none
  readPending := false
  link := .unreported
  debounce := .disarmed
  invalidLatched := []
  run := .unconfigured
  closeWaited := 0

/-- The machine right after reset (R420, R421). -/
def State.reset : State where
  cfg := resetCfg
  ses := resetSession
  sch := resetSched
  raised := 0
  par := Config.defaultParams
  inbox := []
  out := []
  reply := .none

end Sys2Proof.Machine
end

