-- ==== Sys2Proof/Machine/Operands.lean ====
section
/-! DEFINITION. Operand forms: buffer slices and the primitives `MemRead` and `MemWrite`, bit slices and
two's complement, hexadecimal rendering, element layout, the constant tables and character maps. -/

namespace Sys2Proof.Machine

/-! ## Buffers (`00_scope.md` R8, R9; `20_memory.md` R73) -/

/-- `b[lo:hi)` (R8). -/
def slice (b : Bytes) (lo hi : Nat) : Bytes := (b.drop lo).take (hi - lo)

/-- `b[i]`; every rule that uses it has checked `i < len(b)`. -/
def byteAt (b : Bytes) (i : Nat) : Byte := b.getD i 0

/-- `MemRead(buf, off, n)`: defined only when `off + n ≤ len(buf)` (R9). -/
def memRead (buf : Bytes) (off n : Nat) : Option Bytes :=
  if off + n ≤ buf.length then some (slice buf off (off + n)) else none

/-- `MemWrite(buf, off, n, v)`: replaces `buf[off : off+n)` by the `n` bytes `v`; defined under the same
condition (R9). -/
def memWrite (buf : Bytes) (off n : Nat) (v : Bytes) : Option Bytes :=
  if off + n ≤ buf.length ∧ v.length = n then some (buf.take off ++ v ++ buf.drop (off + n))
  else none

/-! ## Numbers (R8, R9) -/

/-- `v.bits[hi:lo]` (R8). -/
def bits (v hi lo : Nat) : Nat := (v >>> lo) % 2 ^ (hi - lo + 1)

/-- `zext_N(n)` of an integer: its two's complement representation in `N` bits (R9, D28). -/
def zext (n : Nat) (v : Int) : Nat := (v % (2 ^ n : Nat)).toNat

/-- `sext_N(v)` (R9). -/
def sext (n : Nat) (v : Nat) : Int :=
  if v % 2 ^ n < 2 ^ (n - 1) then (v % 2 ^ n : Nat) else (v % 2 ^ n : Nat) - (2 ^ n : Nat)

/-! ## Hexadecimal rendering (`30_encoding.md` R92, R93) -/

/-- `HEXDIGIT(n)`, uppercase (R92). -/
def hexDigit (n : Nat) : Byte := if n ≤ 9 then BitVec.ofNat 8 (0x30 + n) else BitVec.ofNat 8 (0x41 + (n - 10))

/-- `HEXVAL(c)`: either case; undefined for any other byte (R92). -/
def hexVal (c : Byte) : Option Nat :=
  let n := c.toNat
  if 0x30 ≤ n ∧ n ≤ 0x39 then some (n - 0x30)
  else if 0x41 ≤ n ∧ n ≤ 0x46 then some (n - 0x41 + 10)
  else if 0x61 ≤ n ∧ n ≤ 0x66 then some (n - 0x61 + 10)
  else none

/-- The `d` hex digits of `v`, most significant first (R93, without its range check). -/
def hexDigits (v : Nat) : Nat → Bytes
  | 0 => []
  | d + 1 => hexDigit ((v >>> (4 * d)) % 16) :: hexDigits v d

/-- `HEXF(v, d)`: refused with `FieldOverflow` when `v` does not fit its digits (R93). -/
def hexf (v d : Nat) : Except Reason Bytes :=
  if v < 16 ^ d then .ok (hexDigits v d) else .error .fieldOverflow

/-- `UNHEX(f)` with the digits before `f` already worth `acc` (R93). -/
def unhexFrom (acc : Nat) : Bytes → Option Nat
  | [] => some acc
  | c :: f =>
    match hexVal c with
    | some d => unhexFrom (16 * acc + d) f
    | none => none

/-- `UNHEX(f)`: undefined if any byte is not a hex digit (R93). -/
def unhex (f : Bytes) : Option Nat := unhexFrom 0 f

/-! ## Element layout (`42_value_codec.md` R162) -/

/-- `LE(n, w)`, low byte first (R162). -/
def le (n : Nat) : Width → Bytes
  | .one => [BitVec.ofNat 8 n]
  | .two => [BitVec.ofNat 8 (n % 256), BitVec.ofNat 8 (n / 256)]

/-- `UNLE(b, cur, w)` (R162). -/
def unle (b : Bytes) (cur : Nat) : Width → Nat
  | .one => (byteAt b cur).toNat
  | .two => (byteAt b cur).toNat + 256 * (byteAt b (cur + 1)).toNat

/-! ## Constant tables and character maps -/

/-- `MASK`: `MASK[i] = 2^i` for `i` in 0..7 (`10_state.md` R39). -/
def mask : List Byte := [0x01, 0x02, 0x04, 0x08, 0x10, 0x20, 0x40, 0x80]

/-- Rows I1, I2, I3 of the range table (`41_address_translator.md` R141). -/
def inputRows : List Config.RangeRow :=
  [⟨0o40000, 0o40077, 0x001⟩, ⟨0o40400, 0o40423, 0x101⟩, ⟨0o41200, 0o41234, 0x181⟩]

/-- Rows O1, O2 of the range table (R141). -/
def outputRows : List Config.RangeRow :=
  [⟨0o40500, 0o41117, 0x101⟩, ⟨0o41140, 0o41147, 0x321⟩]

/-- `CMDCHAR` (`43_frame_builder.md` R200). -/
def cmdChar : Dir → Byte
  | .read => 0x30
  | .write => 0x38

/-- `DTCHAR` (R200). -/
def dtChar : MemoryType → Byte
  | .memory => 0x31
  | .input => 0x32
  | .output => 0x33

/-- `ECHO_CHECK` under the build-time parameter (`44_frame_parser.md` R238; log 4). -/
def echoOk (p : Config.Params) (rx : Bytes) (isFirst isFinal : Bool) (size : Nat) (mode : Mode) :
    Bool :=
  match p.echo with
  | .passes => true
  | .uninterpreted => Config.echoCheck rx isFirst isFinal size mode

end Sys2Proof.Machine
end

