-- ==== Sys2Proof/Machine/Flags.lean ====
section
/-! DEFINITION. Output emission and the engine's only status flags, the sticky alert bits `A.raised`
(`10_state.md` R38; `60_exceptions.md` R370, R372, R373). -/

namespace Sys2Proof.Machine

/-- Emission of an output event, after all earlier ones (R42). -/
def emit (o : Output) (s : State) : State := { s with out := s.out ++ [o] }

/-- The code of an alert key, its bit in `A.raised` (R370). -/
def alertCode : AlertKey → Nat
  | .deviceOpenError => 0
  | .readTimeoutError => 1
  | .writeTimeoutError => 2
  | .enqAckNotReceivedError => 3
  | .stxNotReceivedError => 4
  | .eotNotReceivedError => 5
  | .checksumError => 6
  | .invalidInputAddressError => 7
  | .invalidOutputAddressError => 8
  | .dbAddError => 9
  | .ackNotReceivedError => 10
  | .terminatorNotReceivedError => 11
  | .echoError => 12
  | .payloadFormatError => 13
  | .invalidMemoryAddressError => 14

/-- `K in A.raised` (R38). -/
def isRaised (r : BitVec 15) (k : AlertKey) : Bool := r.getLsbD (alertCode k)

/-- `A.raised + {K}`. -/
def setRaised (r : BitVec 15) (k : AlertKey) : BitVec 15 := r ||| BitVec.twoPow 15 (alertCode k)

/-- `A.raised - {K}`. -/
def dropRaised (r : BitVec 15) (k : AlertKey) : BitVec 15 := r &&& ~~~(BitVec.twoPow 15 (alertCode k))

/-- `raise K(ctx)`: emitted every time the cause occurs, also when the bit is already set (R372). -/
def raiseAlert (k : AlertKey) (ctx : VarName) (s : State) : State :=
  let s := emit (.alertRaise k ctx) s
  { s with raised := setRaised s.raised k }

/-- `clear K`: emits only for a key that is up (R373). -/
def clearAlert (k : AlertKey) (s : State) : State :=
  if isRaised s.raised k then
    let s := emit (.alertClear k) s
    { s with raised := dropRaised s.raised k }
  else s

/-- `clear` of each key in turn. -/
def clearAlerts : List AlertKey → State → State
  | [], s => s
  | k :: ks, s => clearAlerts ks (clearAlert k s)

/-- The keys of class Read in ascending code order: 1, 3, 4, 5, 6, 10, 11, 12, 13 (R373). -/
def readClass : List AlertKey :=
  [.readTimeoutError, .enqAckNotReceivedError, .stxNotReceivedError, .eotNotReceivedError,
   .checksumError, .ackNotReceivedError, .terminatorNotReceivedError, .echoError, .payloadFormatError]

/-- The keys of class Write in ascending code order: 2, 3, 10 (R373). -/
def writeClass : List AlertKey := [.writeTimeoutError, .enqAckNotReceivedError, .ackNotReceivedError]

/-- The keys of class Config, which only an accepted `CFG` clears (R332, R373). -/
def configClass : List AlertKey :=
  [.invalidInputAddressError, .invalidOutputAddressError, .invalidMemoryAddressError]

end Sys2Proof.Machine
end

