-- ==== Sys2Proof/Machine/Units.lean ====
section
/-! DEFINITION. The unit operations as pure functions (files 40 to 44 of the spec and R263, R264): they
read and write no state (`10_state.md` R20). A refusal is `.error reason`. -/

namespace Sys2Proof.Machine

/-! ## Checksum unit (`40_checksum.md`) -/

/-- The XOR of a byte sequence into `c`, byte by byte (R130's loop). -/
def xorInto (c : Byte) : Bytes → Byte
  | [] => c
  | x :: xs => xorInto (c ^^^ x) xs

/-- `CHK(b, lo, hi)` (R130). -/
def chk (b : Bytes) (lo hi : Nat) : Except Reason Byte :=
  if lo ≤ hi ∧ hi ≤ b.length then .ok (xorInto 0x00 (slice b lo hi)) else .error .badRange

/-- `CHKHDR(h)`: the header checksum, without SOH and ETB (R131). -/
def chkHdr (h : Bytes) : Except Reason Byte := chk h 1 15

/-- `CHKDB(b, s, t)`: the data-block checksum, without STX at `s`, with the terminator at `t` (R132). -/
def chkDb (b : Bytes) (s t : Nat) : Except Reason Byte := chk b (s + 1) (t + 1)

/-! ## Address translator (`41_address_translator.md`) -/

/-- The doubling rule over the rows of one memory type (R143, R144). -/
def xltRows (nativeAddress : Nat) (pos : BytePosition) : List Config.RangeRow → Option XAddr
  | [] => none
  | row :: rows =>
    if row.base ≤ nativeAddress ∧ nativeAddress ≤ row.last then
      let r := 2 * (nativeAddress - row.base) + row.offset
      let r := if pos = .msb then r + 1 else r
      some ⟨BitVec.ofNat 16 r, .one⟩
    else xltRows nativeAddress pos rows

/-- `XLT(memoryType, nativeAddress, bitIndex, bytePosition)`; `none` is `InvalidAddress` (R140, R142 to
R144). `bitIndex` enters no formula. -/
def xlt (mt : MemoryType) (nativeAddress : Nat) (_bitIndex : Option Nat) (pos : BytePosition) :
    Option XAddr :=
  match mt with
  | .memory =>
    if nativeAddress + 1 > 0xFFFF then none
    else some ⟨BitVec.ofNat 16 (nativeAddress + 1), .two⟩
  | .input => xltRows nativeAddress pos inputRows
  | .output => xltRows nativeAddress pos outputRows

/-- The translation of a descriptor, computed afresh at every use (R23, R336). -/
def xltVar (v : VarDescr) : Option XAddr := xlt v.memoryType v.nativeAddress v.bitIndex v.bytePosition

/-! ## Value codec, encode (`42_value_codec.md` R163 to R171) -/

/-- `ENC.char` (R163). -/
def encChar (v : Value) (w : Width) : Except Reason Bytes :=
  match v, w with
  | .scalar (.char c), .one => if c > 0xFF then .error .charOutOfRange else .ok [BitVec.ofNat 8 c]
  | .scalar (.char c), .two => if c > 0xFFFF then .error .charOutOfRange else .ok (le c .two)
  | _, _ => .error .typeMismatch

/-- `ENC.bool` (R164). -/
def encBool (v : Value) (w : Width) : Except Reason Bytes :=
  match v with
  | .scalar (.bool b) => .ok (le (if b then 1 else 0) w)
  | _ => .error .typeMismatch

/-- The 8-bit rule: the low byte, and in a 2-byte word the high byte `INT8_HIGH_BYTE` names (R165). -/
def encByte (p : Config.Params) (n : Int) : Width → Bytes
  | .one => [BitVec.ofNat 8 (zext 8 n)]
  | .two =>
    [BitVec.ofNat 8 (zext 8 n),
     match p.int8HighByte with
     | .zero => 0x00
     | .copy => BitVec.ofNat 8 (zext 8 n)]

/-- `ENC.int8` (R165). -/
def encInt8 (p : Config.Params) (v : Value) (w : Width) : Except Reason Bytes :=
  match v with
  | .scalar (.int n) => .ok (encByte p n w)
  | _ => .error .typeMismatch

/-- `ENC.uint8` (R166). -/
def encUint8 (p : Config.Params) (v : Value) (w : Width) : Except Reason Bytes :=
  match v with
  | .scalar (.int n) => .ok (encByte p n w)
  | _ => .error .typeMismatch

/-- The wide-integer rule: `LE(zext_{8w}(n), w)` (R167 to R170). -/
def encWide (n : Int) (w : Width) : Bytes := le (zext (8 * w.bytes) n) w

/-- `ENC.int16` (R167). -/
def encInt16 (v : Value) (w : Width) : Except Reason Bytes :=
  match v with
  | .scalar (.int n) => .ok (encWide n w)
  | _ => .error .typeMismatch

/-- `ENC.uint16` (R168). -/
def encUint16 (v : Value) (w : Width) : Except Reason Bytes :=
  match v with
  | .scalar (.int n) => .ok (encWide n w)
  | _ => .error .typeMismatch

/-- `ENC.uint32` (R169). -/
def encUint32 (v : Value) (w : Width) : Except Reason Bytes :=
  match v with
  | .scalar (.int n) => .ok (encWide n w)
  | _ => .error .typeMismatch

/-- `ENC.uint64` (R170). -/
def encUint64 (v : Value) (w : Width) : Except Reason Bytes :=
  match v with
  | .scalar (.int n) => .ok (encWide n w)
  | _ => .error .typeMismatch

/-- `ENC.format`: the encode operation of a format; a format beyond the eight is refused (R161). -/
def encFormat (p : Config.Params) (f : Format) (v : Value) (w : Width) : Except Reason Bytes :=
  match f with
  | .char => encChar v w
  | .bool => encBool v w
  | .int8 => encInt8 p v w
  | .uint8 => encUint8 p v w
  | .int16 => encInt16 v w
  | .uint16 => encUint16 v w
  | .uint32 => encUint32 v w
  | .uint64 => encUint64 v w
  | .other _ => .error .unsupportedFormat

/-- The elements of an array, encoded in ascending index order (R171, R62). -/
def encElems (p : Config.Params) (f : Format) (w : Width) : List Scalar → Except Reason Bytes
  | [] => .ok []
  | v :: vs => do
    let b ← encFormat p f (.scalar v) w
    let bs ← encElems p f w vs
    pure (b ++ bs)

/-- `ENCA(format, v, w, isArray, length)` (R171). An array of length 0, for which R171 states no bound, follows
its pseudocode: the concatenation of no elements is empty. DEDUCED (log 31). -/
def enca (p : Config.Params) (f : Format) (v : Value) (w : Width) (isArray : Bool) (length : Nat) :
    Except Reason Bytes :=
  if isArray then
    match v with
    | .array vs => if vs.length = length then encElems p f w vs else .error .lengthMismatch
    | _ => .error .lengthMismatch
  else encFormat p f v w

/-! ## Value codec, decode (R172 to R181) -/

/-- The condition of every decode operation: `cur + w ≤ len(b)`, else `ShortPayload`. -/
def guardElem (b : Bytes) (cur : Nat) (w : Width) (v : Scalar) : Except Reason Scalar :=
  if cur + w.bytes ≤ b.length then .ok v else .error .shortPayload

/-- `DEC.char` (R172). -/
def decChar (b : Bytes) (cur : Nat) (w : Width) : Except Reason Scalar :=
  guardElem b cur w (.char (unle b cur w))

/-- `DEC.bool`: any non-zero element is true (R173). -/
def decBool (b : Bytes) (cur : Nat) (w : Width) : Except Reason Scalar :=
  guardElem b cur w (.bool (unle b cur w != 0))

/-- `DEC.int8`: the first byte, sign-extended from 8 bits (R174). -/
def decInt8 (b : Bytes) (cur : Nat) (w : Width) : Except Reason Scalar :=
  guardElem b cur w (.int (sext 8 (byteAt b cur).toNat))

/-- `DEC.uint8`: the first byte (R175). -/
def decUint8 (b : Bytes) (cur : Nat) (w : Width) : Except Reason Scalar :=
  guardElem b cur w (.int (byteAt b cur).toNat)

/-- `DEC.int16`: sign-extended from the width actually read (R176). -/
def decInt16 (b : Bytes) (cur : Nat) (w : Width) : Except Reason Scalar :=
  guardElem b cur w (.int (sext (8 * w.bytes) (unle b cur w)))

/-- `DEC.uint16` (R177). -/
def decUint16 (b : Bytes) (cur : Nat) (w : Width) : Except Reason Scalar :=
  guardElem b cur w (.int (unle b cur w))

/-- `DEC.uint32`: at most 0xFFFF (R178). -/
def decUint32 (b : Bytes) (cur : Nat) (w : Width) : Except Reason Scalar :=
  guardElem b cur w (.int (unle b cur w))

/-- `DEC.uint64`: at most 0xFFFF (R179). -/
def decUint64 (b : Bytes) (cur : Nat) (w : Width) : Except Reason Scalar :=
  guardElem b cur w (.int (unle b cur w))

/-- `DEC.format` (R181); a format beyond the eight is refused (R161), before the payload's length is looked at:
the spec gives no order of the two refusals. DESIGN CHOICE (log 32). -/
def decFormat (f : Format) (b : Bytes) (cur : Nat) (w : Width) : Except Reason Scalar :=
  match f with
  | .char => decChar b cur w
  | .bool => decBool b cur w
  | .int8 => decInt8 b cur w
  | .uint8 => decUint8 b cur w
  | .int16 => decInt16 b cur w
  | .uint16 => decUint16 b cur w
  | .uint32 => decUint32 b cur w
  | .uint64 => decUint64 b cur w
  | .other _ => .error .unsupportedFormat

/-- The byte a bit index addresses in an element (R180). -/
def bitByte (p : Config.Params) (b : Bytes) (cur : Nat) (w : Width) (pos : BytePosition) : Byte :=
  match w with
  | .one => byteAt b cur
  | .two =>
    match p.bitByteRule with
    | .byBytePosition => if pos = .msb then byteAt b (cur + 1) else byteAt b cur
    | .alwaysHigh => byteAt b (cur + 1)

/-- The coercion of a bit to a format (R180). -/
def bitScalar (f : Format) (bit : Bool) : Except Reason Scalar :=
  match f with
  | .bool => .ok (.bool bit)
  | .char => .ok (.char (if bit then 0x31 else 0x30))
  | .int8 => .ok (.int (if bit then 1 else 0))
  | .uint8 => .ok (.int (if bit then 1 else 0))
  | .int16 => .ok (.int (if bit then 1 else 0))
  | .uint16 => .ok (.int (if bit then 1 else 0))
  | .uint32 => .ok (.int (if bit then 1 else 0))
  | .uint64 => .ok (.int (if bit then 1 else 0))
  | .other _ => .error .unsupportedFormat

/-- `DEC.BIT(format, b, cur, w, bitIndex, bytePosition)` (R180). An index outside `MASK` is refused as a
range outside a buffer (U19; the port's domain excludes it). A short payload is refused before a format
beyond the eight: the spec gives no order. DESIGN CHOICE (log 32). -/
def decBit (p : Config.Params) (f : Format) (b : Bytes) (cur : Nat) (w : Width) (bitIndex : Nat)
    (pos : BytePosition) : Except Reason Scalar :=
  if cur + w.bytes ≤ b.length then
    match mask[bitIndex]? with
    | some m => bitScalar f ((bitByte p b cur w pos &&& m) != 0)
    | none => .error .badRange
  else .error .shortPayload

/-- One element of a variable: bit-addressed exactly when the descriptor has a `bitIndex` (R181). -/
def decOne (p : Config.Params) (var : VarDescr) (w : Width) (b : Bytes) (cur : Nat) :
    Except Reason Scalar :=
  match var.bitIndex with
  | some i => decBit p var.format b cur w i var.bytePosition
  | none => decFormat var.format b cur w

/-- `n` elements from the read cursor on, "advancing the read cursor by bytesPerElement each time"
(R181). -/
def decElems (p : Config.Params) (var : VarDescr) (w : Width) (b : Bytes) :
    Nat → Nat → Except Reason (List Scalar)
  | 0, _ => .ok []
  | n + 1, cur => do
    let v ← decOne p var w b cur
    let vs ← decElems p var w b n (cur + w.bytes)
    pure (v :: vs)

/-- `DECA(var, w, b)` (R181). R181 gives `b` exactly `w * elementCount(var)` bytes; of a longer payload the model
decodes the first bytes and ignores the rest. DESIGN CHOICE (log 30). -/
def deca (p : Config.Params) (var : VarDescr) (w : Width) (b : Bytes) : Except Reason Value :=
  if var.isArray then do
    let vs ← decElems p var w b var.length 0
    pure (.array vs)
  else do
    let v ← decOne p var w b 0
    pure (.scalar v)

/-! ## Hex transcoding (R201, R202, R231, R237) -/

/-- `HEXE(x)` (R201). -/
def hexe (x : Byte) : Bytes := hexDigits x.toNat 2

/-- `HEXD(c0, c1)`; `none` is `NotHex` (R231). -/
def hexd (c0 c1 : Byte) : Option Byte :=
  match hexVal c0, hexVal c1 with
  | some h, some l => some (BitVec.ofNat 8 (16 * h + l))
  | _, _ => none

/-- `PAYE` in `ASCII` mode: every byte as two digits (R202). -/
def payeAscii : Bytes → Bytes
  | [] => []
  | x :: xs => hexe x ++ payeAscii xs

/-- `PAYE(raw, mode)` (R202). -/
def paye (raw : Bytes) (mode : Mode) : Bytes :=
  match mode with
  | .hex => raw
  | .ascii => payeAscii raw

/-- `PAYD` in `ASCII` mode: digit pairs; an odd length or a byte that is no digit is `NotHex` (R237). -/
def paydAscii : Bytes → Option Bytes
  | [] => some []
  | [_] => none
  | c0 :: c1 :: rest =>
    match hexd c0 c1, paydAscii rest with
    | some x, some xs => some (x :: xs)
    | _, _ => none

/-- `PAYD(wire, mode)`; `none` is `NotHex` (R237). -/
def payd (wire : Bytes) (mode : Mode) : Option Bytes :=
  match mode with
  | .hex => some wire
  | .ascii => paydAscii wire

/-! ## Block arithmetic (`45_session_common.md` R263, R264) -/

/-- Block count and last block size of `numBytes` wire payload bytes (R263). -/
def blockCounts (numBytes : Nat) : Nat × Nat :=
  if numBytes % Config.blockSize = 0 then (numBytes / Config.blockSize, Config.blockSize)
  else (numBytes / Config.blockSize + 1, numBytes % Config.blockSize)

/-- `BLKMATH(bpe, count, mode)` (R263). -/
def blkmath (bpe : Width) (count : Nat) (mode : Mode) : Sizes :=
  let raw := bpe.bytes * count
  let n := match mode with
    | .ascii => 2 * raw
    | .hex => raw
  ⟨n, (blockCounts n).1, (blockCounts n).2⟩

/-- `EXPECT(first, size, mode)` (R264). -/
def expect (isFirst : Bool) (size : Nat) (mode : Mode) : Nat :=
  (if isFirst then 1 else 0) + 1 + size + 1 + checkLen mode

/-! ## Frame builder (`43_frame_builder.md`) -/

/-- `BLD.ENQ(station)` (R203). -/
def bldEnq (station : Byte) : Except Reason Bytes :=
  if station ≤ Config.stationMax then
    .ok [Code.enqLead, Code.stationOffset + station, Code.enq]
  else .error .stationOutOfRange

/-- A checksum field: one raw byte, or two digits (R101). -/
def checkBytes (c : Byte) (mode : Mode) : Bytes :=
  match mode with
  | .hex => [c]
  | .ascii => hexDigits c.toNat 2

/-- The contents of the two count fields (`30_encoding.md` R96). -/
def countFields (p : Config.Params) (numBytes : Nat) : Nat × Nat :=
  match p.hdrCountRule with
  | .fullAndRemainder => (numBytes / 256, numBytes % 256)
  | .requiredAndLast => ((blockCounts numBytes).1, (blockCounts numBytes).2 % 256)

/-- The sixteen bytes before the checksum (R204). -/
def headerBody (p : Config.Params) (station : Byte) (dir : Dir) (mt : MemoryType)
    (ref : BitVec 16) (numBytes : Nat) : Except Reason Bytes := do
  let st ← hexf station.toNat 2
  let ra ← hexf ref.toNat 4
  let nb ← hexf (countFields p numBytes).1 2
  let nl ← hexf (countFields p numBytes).2 2
  pure ([Code.soh] ++ st ++ [cmdChar dir, dtChar mt] ++ ra ++ nb ++ nl
    ++ [Code.masterId0, Code.masterId1] ++ [Code.etb])

/-- `BLD.HDR(station, dir, memoryType, referenceAddress, numBytes, mode)` (R204). -/
def bldHdr (p : Config.Params) (station : Byte) (dir : Dir) (mt : MemoryType) (ref : BitVec 16)
    (numBytes : Nat) (mode : Mode) : Except Reason Bytes := do
  let h ← headerBody p station dir mt ref numBytes
  let c ← chkHdr h
  pure (h ++ checkBytes c mode)

/-- The terminator of a block (R205). -/
def terminator (isFinal : Bool) : Byte := if isFinal then Code.etx else Code.etb

/-- `BLD.DB(chunk, final, mode)` (R205). -/
def bldDb (chunk : Bytes) (isFinal : Bool) (mode : Mode) : Except Reason Bytes :=
  if chunk.length < 1 ∨ chunk.length > Config.blockSize then .error .badBlockSize
  else do
    let b := [Code.stx] ++ chunk ++ [terminator isFinal]
    let c ← chk b 1 (chunk.length + 2)
    pure (b ++ checkBytes c mode)

/-- `BLD.EOT()` (R206). -/
def bldEot : Bytes := [Code.eot]

/-- `BLD.ACK()` (R207). -/
def bldAck : Bytes := [Code.ack]

/-- `SPLIT(wire, i)`: block `i` of a request and whether it is the last (R208). -/
def split (wire : Bytes) (numBytes blocksRequired i : Nat) : Bytes × Bool :=
  (slice wire (Config.blockSize * i) (min (Config.blockSize * (i + 1)) numBytes),
   decide (i + 1 = blocksRequired))

/-! ## Frame parser (`44_frame_parser.md`)

On fewer bytes than it needs a parser operation "is not evaluated" (R230, R234); the model refuses with
`BadRange`, a range outside a buffer (U19). DESIGN CHOICE (log 13). -/

/-- `PRS.ENQACK(rx)`: only byte 2 is examined (R232). -/
def prsEnqAck (rx : Bytes) : Except Reason (Verdict Unit) :=
  if rx.length < 3 then .error .badRange
  else if byteAt rx 2 = Code.ack then .ok (.ok ()) else .ok (.fail .enqAckMissing)

/-- `PRS.ACK(rx)` (R233). -/
def prsAck (rx : Bytes) : Except Reason (Verdict Unit) :=
  if rx.length < 1 then .error .badRange
  else if byteAt rx 0 = Code.ack then .ok (.ok ()) else .ok (.fail .ackMissing)

/-- `PRS.EOT(rx)` (R235). -/
def prsEot (rx : Bytes) : Except Reason (Verdict Unit) :=
  if rx.length < 1 then .error .badRange
  else if byteAt rx 0 = Code.eot then .ok (.ok ()) else .ok (.fail .eotMissing)

/-- The checksum field at index `i` carries `c` (R234, R236). -/
def checkHolds (rx : Bytes) (i : Nat) (c : Byte) (mode : Mode) : Bool :=
  match mode with
  | .hex => byteAt rx i == c
  | .ascii => hexd (byteAt rx i) (byteAt rx (i + 1)) == some c

/-- `PRS.DB(rx, first, final, size, mode)`: the first failure in byte order wins (R230, R234). -/
def prsDb (p : Config.Params) (rx : Bytes) (isFirst isFinal : Bool) (size : Nat) (mode : Mode) :
    Except Reason (Verdict Bytes) :=
  if rx.length < expect isFirst size mode then .error .badRange
  else
    let o := if isFirst then 1 else 0
    let t := o + 1 + size
    if isFirst ∧ byteAt rx 0 ≠ Code.ack then .ok (.fail .ackMissing)
    else if byteAt rx o ≠ Code.stx then .ok (.fail .stxMissing)
    else if ¬ echoOk p rx isFirst isFinal size mode then .ok (.fail .echoMismatch)
    else if byteAt rx t ≠ terminator isFinal then .ok (.fail .terminatorMissing)
    else do
      let c ← chkDb rx o t
      if checkHolds rx (t + 1) c mode then pure (.ok (slice rx (o + 1) t))
      else pure (.fail .checksumMismatch)

/-- The fields of a header whose framing and checksum hold (R236, last two steps). -/
def headerFields (h : Bytes) : Verdict HdrFields :=
  match unhex (slice h 1 3), unhex (slice h 5 9), unhex (slice h 9 11), unhex (slice h 11 13),
      unhex (slice h 13 15) with
  | some st, some ra, some nb, some nl, some mi =>
    .ok ⟨st, byteAt h 3, byteAt h 4, ra, nb, nl, mi⟩
  | _, _, _, _, _ => .fail .echoMismatch

/-- `PRS.HDR(h, mode)` (R236). -/
def prsHdr (h : Bytes) (mode : Mode) : Except Reason (Verdict HdrFields) :=
  if h.length < 16 + checkLen mode then .ok (.fail .terminatorMissing)
  else if byteAt h 0 ≠ Code.soh then .ok (.fail .stxMissing)
  else if byteAt h 15 ≠ Code.etb then .ok (.fail .terminatorMissing)
  else do
    let c ← chkHdr h
    if checkHolds h 16 c mode then pure (headerFields h) else pure (.fail .checksumMismatch)

end Sys2Proof.Machine
end

