-- ==== Sys2Proof/Machine/Ops.lean ====
section
/-! DEFINITION. The shared operations over the state: transmission and timers (R266, R267), session start
(R290, R310), the scheduler's procedures (R334 to R357), the end of a session (`DONE`, R271), and the
one operation that takes an exception, `ABORT` (R270, R376). -/

namespace Sys2Proof.Machine

/-- Why an operation has no next state. -/
inductive Stop
  | fault (f : Fault)
  | refused (r : Refusal)
deriving DecidableEq, Repr

/-- `refuse(reason)` (R9). -/
def refuse (r : Reason) : Stop := .refused (.refuse r)

/-- A unit operation used inside a step: its refusal refuses the step (R371). -/
def unit {α : Type} (e : Except Reason α) : Except Stop α :=
  match e with
  | .ok a => .ok a
  | .error r => .error (refuse r)

/-- The outcome of a step. -/
def toOutcome (e : Except Stop State) : Host.Outcome State Fault Refusal :=
  match e with
  | .ok s => .next s
  | .error (.fault f) => .fault f
  | .error (.refused r) => .refused r

/-- The outcome of a unit operation: nothing but the answer changes (R20; log 9). -/
def answer (e : Except Reason Reply) (s : State) : Host.Outcome State Fault Refusal :=
  match e with
  | .ok r => .next { s with reply := r }
  | .error r => .refused (.refuse r)

/-! ## Transmission and the session timer (R266, R267) -/

/-- `send(f)` (R266). -/
def send (f : Bytes) (s : State) : State :=
  let s := emit (.tx f) s
  { s with ses := { s.ses with txOutstanding := s.ses.txOutstanding + 1 } }

/-- `enter(st, k)` (R267). -/
def enter (st : SState) (k : TimerId) (s : State) : State :=
  { s with ses := { s.ses with state := st, rx := [], timer := .disarmed, armOnTxc := some k } }

/-- The timer that guards a state (R25, R267). -/
def timerOf : SState → Option TimerId
  | .idle => none
  | .waitReadEnqAck => some .t1
  | .waitReadDataBlock => some .t2
  | .waitReadEot => some .t3
  | .waitWriteEnqAck => some .t1
  | .waitWriteDataBlockAck => some .t4
  | .waitWriteEot => some .t4

/-- The end of a session's life: every `S` field but `S.txOutstanding` at its reset value (R31, R271). -/
def clearSession (s : State) : State :=
  { s with ses := { resetSession with txOutstanding := s.ses.txOutstanding } }

/-- `BLOCKSIZE(i)` (R265). -/
def blockSizeOf (ses : Session) (i : Nat) : Nat :=
  if i + 1 < ses.blocksRequired then Config.blockSize else ses.lastBlockSize

/-- Block `i` is the final one (R265). -/
def isFinalBlock (ses : Session) (i : Nat) : Bool := decide (i + 1 = ses.blocksRequired)

/-! ## Session start (R290, R310) -/

/-- The part `SRD` and `SWR` share: the request and its sizes, the Enquiry, the first phase. -/
def openSession (st : SState) (dir : Dir) (var : VarDescr) (xa : XAddr) (wire : Bytes) (s : State) :
    Except Stop State :=
  if s.ses.state ≠ .idle then .error (refuse .busy)
  else
    let z := blkmath xa.bpe var.elementCount s.cfg.mode
    if z.numBytes = 0 ∨ z.numBytes > s.par.accMax then .error (refuse .badLength)
    else do
      let f ← unit (bldEnq s.cfg.station)
      let req : Request := ⟨var, dir, xa, var.elementCount, z.numBytes, wire⟩
      let s1 : State :=
        { s with ses := { s.ses with
            req := some req
            blocksRequired := z.blocksRequired
            lastBlockSize := z.lastBlockSize
            blocksDone := 0
            expectedByteCount := 0
            acc := [] } }
      pure (enter st .t1 (send f s1))

/-- `SRD(var, xa)` (R290). -/
def startRead (var : VarDescr) (xa : XAddr) (s : State) : Except Stop State :=
  openSession .waitReadEnqAck .read var xa [] s

/-- `SWR(var, xa, raw)` (R310). -/
def startWrite (var : VarDescr) (xa : XAddr) (raw : Bytes) (s : State) : Except Stop State :=
  openSession .waitWriteEnqAck .write var xa (paye raw s.cfg.mode) s

/-! ## The read cycle (R334 to R338) -/

/-- Emission of a list of outputs in order. -/
def emitAll (os : List Output) (s : State) : State := { s with out := s.out ++ os }

/-- `INVALID_KEY` (R336). -/
def invalidKey : MemoryType → AlertKey
  | .memory => .invalidMemoryAddressError
  | .input => .invalidInputAddressError
  | .output => .invalidOutputAddressError

/-- The once-per-variable alert of an address that does not translate (R147, R336, R340). -/
def latchInvalid (var : VarDescr) (s : State) : State :=
  let s := raiseAlert (invalidKey var.memoryType) var.name s
  { s with sch := { s.sch with invalidLatched := s.sch.invalidLatched ++ [var.name] } }

/-- `START_READ_VAR(var)`: `true` is Started, `false` Skipped (R336). -/
def startReadVar (var : VarDescr) (s : State) : Except Stop (Bool × State) :=
  if var.name ∈ s.sch.invalidLatched then .ok (false, s)
  else
    match xltVar var with
    | none => .ok (false, latchInvalid var s)
    | some xa => do
      let t ← startRead var xa s
      pure (true, t)

/-- `Q.cycle.cursor <- Q.cycle.cursor + 1`. -/
def advanceCursor (s : State) : State :=
  { s with sch := { s.sch with
      cycle := s.sch.cycle.map fun c => { c with cursor := c.cursor + 1 } } }

/-- `FLUSH()`: one report per read variable in list order, then the cycle is gone (R338). -/
def flush (s : State) : Except Stop State :=
  match s.sch.cycle with
  | none => .error (.fault .noCycle)
  | some c =>
    let s := emitAll (List.zipWith (fun v r => Output.report v.name r) c.list c.results) s
    .ok { s with sch := { s.sch with cycle := none } }

/-- `NEXT()`'s loop over the variables from the cursor on (R335). -/
def nextFrom : List VarDescr → State → Except Stop State
  | [], s => flush s
  | v :: vs, s =>
    match startReadVar v s with
    | .error e => .error e
    | .ok (true, t) => .ok t
    | .ok (false, t) => nextFrom vs (advanceCursor t)

/-- `NEXT()` (R335). -/
def next (s : State) : Except Stop State :=
  match s.sch.cycle with
  | none => .error (.fault .noCycle)
  | some c => nextFrom (c.list.drop c.cursor) s

/-- The ordered list of read-access variables (R334). -/
def readVars (c : Cfg) : List VarDescr := c.vars.filter fun v => v.access = .read

/-- `START_CYCLE()` (R334). -/
def startCycle (s : State) : Except Stop State :=
  let list := readVars s.cfg
  next { s with sch := { s.sch with
      cycle := some ⟨list, List.replicate list.length .null, 0⟩ } }

/-! ## Writes and arbitration (R341, R342, R344) -/

/-- `DISPATCH_WRITE(var, value)` (R341). -/
def dispatchWrite (var : VarDescr) (value : Value) (s : State) : Except Stop State :=
  match xltVar var with
  | none => .error (.fault .undispatchable)
  | some xa => do
    let raw ← unit (enca s.par var.format value xa.bpe var.isArray var.length)
    startWrite var xa raw s

/-- `ARBITRATE()`: a pending write, then the interrupted cycle, then a remembered tick (R342, R344). -/
def arbitrate (s : State) : Except Stop State :=
  if s.sch.run = .closing then .ok s
  else
    match s.sch.pendingWrite with
    | some pw => dispatchWrite pw.var pw.value { s with sch := { s.sch with pendingWrite := none } }
    | none =>
      match s.sch.cycle with
      | some _ => next { s with sch := { s.sch with readPending := false } }
      | none =>
        if s.sch.readPending then startCycle { s with sch := { s.sch with readPending := false } }
        else .ok s

/-! ## Connection tracking (R349, R350) -/

/-- `CONN_TIMEOUT()` (R349). -/
def connTimeout (s : State) : State :=
  if s.sch.link ≠ .reportedFalse ∧ s.sch.debounce = .disarmed then
    { s with sch := { s.sch with debounce := .armed } }
  else s

/-- The connection-indicator reports (R350, R351). -/
def linkReports (c : Cfg) (up : Bool) : List Output :=
  c.connIndicators.map fun n => Output.report n (.scalar (.bool up))

/-- `CONN_SUCCESS()` (R350). -/
def connSuccess (s : State) : State :=
  let s := { s with sch := { s.sch with debounce := .disarmed } }
  if s.sch.link ≠ .reportedTrue then
    let s := emitAll (linkReports s.cfg true) s
    { s with sch := { s.sch with link := .reportedTrue } }
  else s

/-! ## The end of a session -/

/-- Recording a read result and advancing the cursor (R337). -/
def recordResult (v : Value) (s : State) : Except Stop State :=
  match s.sch.cycle with
  | none => .error (.fault .noCycle)
  | some c =>
    if c.cursor < c.results.length then
      .ok { s with sch := { s.sch with
        cycle := some { c with results := c.results.set c.cursor v, cursor := c.cursor + 1 } } }
    else .error (.fault .noCycle)

/-- `if t: CONN_TIMEOUT()` (R345). -/
def connFailure (timeout : Bool) (s : State) : State := if timeout then connTimeout s else s

/-- `ON_DONE(var, outcome)` (R345, R343). -/
def onDone (var : VarDescr) (outcome : SessionOutcome) (s : State) : Except Stop State := do
  let t ←
    match outcome with
    | .readOk v => recordResult v (clearAlerts readClass (connSuccess s))
    | .readFail timeout => recordResult .null (connFailure timeout s)
    | .writeOk => .ok (emit (.writeDone var.name true) (clearAlerts writeClass (connSuccess s)))
    | .writeFail timeout => .ok (emit (.writeDone var.name false) (connFailure timeout s))
  arbitrate t

/-- `DONE(outcome)`: the session is destroyed, then its completion callback runs in the same step
(R271). -/
def endSession (outcome : SessionOutcome) (s : State) : Except Stop State :=
  match s.ses.req with
  | none => .error (.fault .noRequest)
  | some r => onDone r.var outcome (clearSession s)

/-- The failure outcome of a direction (R270). -/
def failOutcome (dir : Dir) (timeout : Bool) : SessionOutcome :=
  match dir with
  | .read => .readFail timeout
  | .write => .writeFail timeout

/-- `ABORT(key, timeout)`, taking an exception (R270, R376): EOT is sent, the alert raised for the
request's variable, the session ended as a failure. -/
def takeAbort (key : AlertKey) (timeout : Bool) (s : State) : Except Stop State :=
  match s.ses.req with
  | none => .error (.fault .noRequest)
  | some r => endSession (failOutcome r.dir timeout) (raiseAlert key r.var.name (send bldEot s))

/-! ## Shutdown (R357) -/

/-- `FINISH_CLOSE()` (R357). -/
def finishClose (s : State) : State :=
  let s :=
    match s.sch.pendingWrite with
    | some pw => emit (.writeDone pw.var.name false) s
    | none => s
  let s : State :=
    { s with
      sch := { s.sch with
        pendingWrite := none
        cycle := none
        readPending := false
        debounce := .disarmed
        closeWaited := 0
        run := .closed }
      ses := { s.ses with txOutstanding := 0, armOnTxc := none } }
  emit .closeDone s

end Sys2Proof.Machine
end

