-- ==== Sys2Proof/Machine/Builder.lean ====
section
/-! DEFINITION. The meanings of the hex helper and Frame Builder operations (`43_frame_builder.md`). -/

namespace Sys2Proof.Machine

/-- `HEXE` (R201). -/
def execHexe (x : Byte) (s : State) : Host.Outcome State Fault Refusal :=
  answer (.ok (.bytes (hexe x))) s

/-- `PAYE` (R202). -/
def execPaye (raw : Bytes) (mode : Mode) (s : State) : Host.Outcome State Fault Refusal :=
  answer (.ok (.bytes (paye raw mode))) s

/-- `BLD.ENQ` (R203). -/
def execBldEnq (station : Byte) (s : State) : Host.Outcome State Fault Refusal :=
  answer ((bldEnq station).map .bytes) s

/-- `BLD.HDR` (R204). -/
def execBldHdr (station : Byte) (dir : Dir) (mt : MemoryType) (ref : BitVec 16) (numBytes : Nat)
    (mode : Mode) (s : State) : Host.Outcome State Fault Refusal :=
  answer ((bldHdr s.par station dir mt ref numBytes mode).map .bytes) s

/-- `BLD.DB` (R205). -/
def execBldDb (chunk : Bytes) (isFinal : Bool) (mode : Mode) (s : State) :
    Host.Outcome State Fault Refusal :=
  answer ((bldDb chunk isFinal mode).map .bytes) s

/-- `BLD.EOT` (R206). -/
def execBldEot (s : State) : Host.Outcome State Fault Refusal :=
  answer (.ok (.bytes bldEot)) s

/-- `BLD.ACK` (R207). -/
def execBldAck (s : State) : Host.Outcome State Fault Refusal :=
  answer (.ok (.bytes bldAck)) s

end Sys2Proof.Machine
end

