-- ==== Sys2Proof/Machine/Checksum.lean ====
section
/-! DEFINITION. The meaning of `CHK` (`40_checksum.md`). -/

namespace Sys2Proof.Machine

/-- `CHK` (R130). -/
def execChk (b : Bytes) (lo hi : Nat) (s : State) : Host.Outcome State Fault Refusal :=
  answer ((chk b lo hi).map .byte) s

end Sys2Proof.Machine
end

