-- ==== Sys2Proof/Machine/Codec.lean ====
section
/-! DEFINITION. The meanings of the Value Codec's operations (`42_value_codec.md`). -/

namespace Sys2Proof.Machine

/-- An encode operation's answer. -/
def answerBytes (e : Except Reason Bytes) (s : State) : Host.Outcome State Fault Refusal :=
  answer (e.map .bytes) s

/-- A decode operation's answer. -/
def answerScalar (e : Except Reason Scalar) (s : State) : Host.Outcome State Fault Refusal :=
  answer (e.map fun v => .value (.scalar v)) s

/-- `ENC.char` (R163). -/
def execEncChar (v : Value) (w : Width) (s : State) : Host.Outcome State Fault Refusal :=
  answerBytes (encChar v w) s

/-- `ENC.bool` (R164). -/
def execEncBool (v : Value) (w : Width) (s : State) : Host.Outcome State Fault Refusal :=
  answerBytes (encBool v w) s

/-- `ENC.int8` (R165). -/
def execEncInt8 (v : Value) (w : Width) (s : State) : Host.Outcome State Fault Refusal :=
  answerBytes (encInt8 s.par v w) s

/-- `ENC.uint8` (R166). -/
def execEncUint8 (v : Value) (w : Width) (s : State) : Host.Outcome State Fault Refusal :=
  answerBytes (encUint8 s.par v w) s

/-- `ENC.int16` (R167). -/
def execEncInt16 (v : Value) (w : Width) (s : State) : Host.Outcome State Fault Refusal :=
  answerBytes (encInt16 v w) s

/-- `ENC.uint16` (R168). -/
def execEncUint16 (v : Value) (w : Width) (s : State) : Host.Outcome State Fault Refusal :=
  answerBytes (encUint16 v w) s

/-- `ENC.uint32` (R169). -/
def execEncUint32 (v : Value) (w : Width) (s : State) : Host.Outcome State Fault Refusal :=
  answerBytes (encUint32 v w) s

/-- `ENC.uint64` (R170). -/
def execEncUint64 (v : Value) (w : Width) (s : State) : Host.Outcome State Fault Refusal :=
  answerBytes (encUint64 v w) s

/-- `ENCA` (R171). -/
def execEnca (f : Format) (v : Value) (w : Width) (isArray : Bool) (length : Nat) (s : State) :
    Host.Outcome State Fault Refusal :=
  answerBytes (enca s.par f v w isArray length) s

/-- `DEC.char` (R172). -/
def execDecChar (b : Bytes) (cur : Nat) (w : Width) (s : State) : Host.Outcome State Fault Refusal :=
  answerScalar (decChar b cur w) s

/-- `DEC.bool` (R173). -/
def execDecBool (b : Bytes) (cur : Nat) (w : Width) (s : State) : Host.Outcome State Fault Refusal :=
  answerScalar (decBool b cur w) s

/-- `DEC.int8` (R174). -/
def execDecInt8 (b : Bytes) (cur : Nat) (w : Width) (s : State) : Host.Outcome State Fault Refusal :=
  answerScalar (decInt8 b cur w) s

/-- `DEC.uint8` (R175). -/
def execDecUint8 (b : Bytes) (cur : Nat) (w : Width) (s : State) : Host.Outcome State Fault Refusal :=
  answerScalar (decUint8 b cur w) s

/-- `DEC.int16` (R176). -/
def execDecInt16 (b : Bytes) (cur : Nat) (w : Width) (s : State) : Host.Outcome State Fault Refusal :=
  answerScalar (decInt16 b cur w) s

/-- `DEC.uint16` (R177). -/
def execDecUint16 (b : Bytes) (cur : Nat) (w : Width) (s : State) : Host.Outcome State Fault Refusal :=
  answerScalar (decUint16 b cur w) s

/-- `DEC.uint32` (R178). -/
def execDecUint32 (b : Bytes) (cur : Nat) (w : Width) (s : State) : Host.Outcome State Fault Refusal :=
  answerScalar (decUint32 b cur w) s

/-- `DEC.uint64` (R179). -/
def execDecUint64 (b : Bytes) (cur : Nat) (w : Width) (s : State) : Host.Outcome State Fault Refusal :=
  answerScalar (decUint64 b cur w) s

/-- `DEC.BIT` (R180). -/
def execDecBit (f : Format) (b : Bytes) (cur : Nat) (w : Width) (bitIndex : Nat) (pos : BytePosition)
    (s : State) : Host.Outcome State Fault Refusal :=
  answerScalar (decBit s.par f b cur w bitIndex pos) s

/-- `DECA` (R181). -/
def execDeca (var : VarDescr) (w : Width) (b : Bytes) (s : State) : Host.Outcome State Fault Refusal :=
  answer ((deca s.par var w b).map .value) s

end Sys2Proof.Machine
end

