-- ==== Sys2Proof/Machine/ReadSession.lean ====
section
/-! DEFINITION. The read sequence (`46_session_read.md`): the phase rules of its three states and the
meaning of `SRD`. -/

namespace Sys2Proof.Machine

/-- The Header of the current request (R291, R311). -/
def sessionHeader (r : Request) (s : State) : Except Stop Bytes :=
  unit (bldHdr s.par s.cfg.station r.dir r.var.memoryType r.xa.ref r.numBytes s.cfg.mode)

/-- Enquiry response in `WaitReadEnqAck` (R291). -/
def phaseReadEnqAck (s : State) : Except Stop State :=
  match s.ses.req with
  | none => .error (.fault .noRequest)
  | some r => do
    match ← unit (prsEnqAck s.ses.rx) with
    | .fail _ => takeAbort .enqAckNotReceivedError false s
    | .ok () => do
      let h ← sessionHeader { r with dir := .read } s
      let s := send h s
      let n := expect true (blockSizeOf s.ses 0) s.cfg.mode
      let s : State := { s with ses := { s.ses with expectedByteCount := n } }
      pure (enter .waitReadDataBlock .t2 s)

/-- The alert key of a parser failure in a read (R230, R292, R295). -/
def failKey : FailKind → AlertKey
  | .enqAckMissing => .enqAckNotReceivedError
  | .ackMissing => .ackNotReceivedError
  | .stxMissing => .stxNotReceivedError
  | .terminatorMissing => .terminatorNotReceivedError
  | .checksumMismatch => .checksumError
  | .echoMismatch => .echoError
  | .eotMissing => .eotNotReceivedError

/-- An accepted block: its payload is appended and acknowledged, and the session waits for the next
block or for the EOT (R292). -/
def acceptBlock (payload : Bytes) (s : State) : State :=
  let s : State :=
    { s with ses := { s.ses with
        acc := s.ses.acc ++ payload
        blocksDone := s.ses.blocksDone + 1 } }
  let s := send bldAck s
  if s.ses.blocksDone < s.ses.blocksRequired then
    let n := expect false (blockSizeOf s.ses s.ses.blocksDone) s.cfg.mode
    enter .waitReadDataBlock .t2 { s with ses := { s.ses with expectedByteCount := n } }
  else enter .waitReadEot .t3 s

/-- Data block in `WaitReadDataBlock` (R292). -/
def phaseReadBlock (s : State) : Except Stop State := do
  let i := s.ses.blocksDone
  match ← unit (prsDb s.par s.ses.rx (decide (i = 0)) (isFinalBlock s.ses i) (blockSizeOf s.ses i)
      s.cfg.mode) with
  | .fail k => takeAbort (failKey k) false s
  | .ok p => pure (acceptBlock p s)

/-- Decode at the end of a read (R296). -/
def decodeRead (r : Request) (s : State) : Except Stop State :=
  match payd s.ses.acc s.cfg.mode with
  | none => endSession (.readFail false) (raiseAlert .payloadFormatError r.var.name s)
  | some raw => do
    let v ← unit (deca s.par r.var r.xa.bpe raw)
    endSession (.readOk v) s

/-- End of transmission in `WaitReadEot` (R295, R296). -/
def phaseReadEot (s : State) : Except Stop State :=
  match s.ses.req with
  | none => .error (.fault .noRequest)
  | some r => do
    match ← unit (prsEot s.ses.rx) with
    | .fail _ => takeAbort .eotNotReceivedError false s
    | .ok () => decodeRead r (send bldEot s)

/-- `SRD` (R290). -/
def execSrd (var : VarDescr) (xa : XAddr) (s : State) : Host.Outcome State Fault Refusal :=
  toOutcome (startRead var xa s)

end Sys2Proof.Machine
end

