-- ==== Sys2Proof/Machine/WriteSession.lean ====
section
/-! DEFINITION. The write sequence (`47_session_write.md`): the phase rules of its three states and the
meaning of `SWR`. -/

namespace Sys2Proof.Machine

/-- Enquiry response in `WaitWriteEnqAck` (R311). -/
def phaseWriteEnqAck (s : State) : Except Stop State :=
  match s.ses.req with
  | none => .error (.fault .noRequest)
  | some r => do
    match ← unit (prsEnqAck s.ses.rx) with
    | .fail _ => takeAbort .enqAckNotReceivedError false s
    | .ok () => do
      let h ← sessionHeader { r with dir := .write } s
      pure (enter .waitWriteDataBlockAck .t4 (send h s))

/-- ACK in `WaitWriteDataBlockAck`: the next block, or the EOT after the last block's ACK (R312). -/
def phaseWriteAck (s : State) : Except Stop State :=
  match s.ses.req with
  | none => .error (.fault .noRequest)
  | some r => do
    match ← unit (prsAck s.ses.rx) with
    | .fail _ => takeAbort .ackNotReceivedError false s
    | .ok () =>
      if s.ses.blocksDone < s.ses.blocksRequired then do
        let c := split r.wire r.numBytes s.ses.blocksRequired s.ses.blocksDone
        let f ← unit (bldDb c.1 c.2 s.cfg.mode)
        let s := send f s
        let s : State := { s with ses := { s.ses with blocksDone := s.ses.blocksDone + 1 } }
        pure (enter .waitWriteDataBlockAck .t4 s)
      else pure (enter .waitWriteEot .t4 (send bldEot s))

/-- ACK in `WaitWriteEot` (R313). -/
def phaseWriteEot (s : State) : Except Stop State := do
  match ← unit (prsAck s.ses.rx) with
  | .fail _ => takeAbort .ackNotReceivedError false s
  | .ok () => endSession .writeOk s

/-- `SWR` (R310). -/
def execSwr (var : VarDescr) (xa : XAddr) (raw : Bytes) (s : State) :
    Host.Outcome State Fault Refusal :=
  toOutcome (startWrite var xa raw s)

end Sys2Proof.Machine
end

