-- ==== Sys2Proof/Machine/Session.lean ====
section
/-! DEFINITION. The session's common events (`45_session_common.md`): `BLKMATH`, `EXPECT`, `TXC`, `RXB`,
`TMO`, `ABORT`, `DONE`. -/

namespace Sys2Proof.Machine

/-- `BLKMATH` (R263). -/
def execBlkmath (bpe : Width) (count : Nat) (mode : Mode) (s : State) :
    Host.Outcome State Fault Refusal :=
  answer (.ok (.sizes (blkmath bpe count mode))) s

/-- `EXPECT` (R264). -/
def execExpect (isFirst : Bool) (size : Nat) (mode : Mode) (s : State) :
    Host.Outcome State Fault Refusal :=
  answer (.ok (.count (expect isFirst size mode))) s

/-- One write completion: the count goes down, and the completion of the last outstanding frame arms the
waiting timer (R266). -/
def completeTx (s : State) : State :=
  let n := s.ses.txOutstanding - 1
  match n, s.ses.armOnTxc with
  | 0, some k =>
    { s with ses := { s.ses with txOutstanding := 0, timer := .armed k, armOnTxc := none } }
  | _, _ => { s with ses := { s.ses with txOutstanding := n } }

/-- `TXC`, enabled only when a frame is outstanding (R266). -/
def execTxc (s : State) : Host.Outcome State Fault Refusal :=
  if s.ses.txOutstanding = 0 then .refused .notEnabled else .next (completeTx s)

/-- The number of received bytes that completes the current phase (R268). -/
def needBytes (ses : Session) : Nat :=
  match ses.state with
  | .idle => 0
  | .waitReadEnqAck => 3
  | .waitWriteEnqAck => 3
  | .waitReadDataBlock => ses.expectedByteCount
  | .waitReadEot => 1
  | .waitWriteDataBlockAck => 1
  | .waitWriteEot => 1

/-- The phase rule of the current state (R261's column RXB). -/
def runPhase (s : State) : Except Stop State :=
  match s.ses.state with
  | .idle => .ok s
  | .waitReadEnqAck => phaseReadEnqAck s
  | .waitReadDataBlock => phaseReadBlock s
  | .waitReadEot => phaseReadEot s
  | .waitWriteEnqAck => phaseWriteEnqAck s
  | .waitWriteDataBlockAck => phaseWriteAck s
  | .waitWriteEot => phaseWriteEot s

/-- Reception of a chunk: dropped in `Idle`; else appended, and the phase rule runs once when the count
is reached (R268). -/
def receive (chunk : Bytes) (s : State) : Except Stop State :=
  if s.ses.state = .idle then .ok s
  else
    let s : State := { s with ses := { s.ses with rx := s.ses.rx ++ chunk } }
    if s.ses.rx.length < needBytes s.ses then .ok s else runPhase s

/-- `RXB` (R268). -/
def execRxb (chunk : Bytes) (s : State) : Host.Outcome State Fault Refusal :=
  toOutcome (receive chunk s)

/-- The alert key of a timeout (R297, R314). -/
def timeoutKey : SState → Option AlertKey
  | .idle => none
  | .waitReadEnqAck => some .enqAckNotReceivedError
  | .waitReadDataBlock => some .readTimeoutError
  | .waitReadEot => some .readTimeoutError
  | .waitWriteEnqAck => some .enqAckNotReceivedError
  | .waitWriteDataBlockAck => some .writeTimeoutError
  | .waitWriteEot => some .writeTimeoutError

/-- `TMO`, enabled only while the session timer is armed (R269). -/
def execTmo (s : State) : Host.Outcome State Fault Refusal :=
  match s.ses.timer, timeoutKey s.ses.state with
  | .armed _, some key => toOutcome (takeAbort key true s)
  | _, _ => .refused .notEnabled

/-- `ABORT` (R270): the failure exit of a session, from every state but `Idle`, with a key that a session
can raise (R370); with any other key no rule invokes it, so that the engine never raises an alert of its
collaborators (R440). That the model then stops by name is its choice (log 19). -/
def execAbort (key : AlertKey) (timeout : Bool) (s : State) : Host.Outcome State Fault Refusal :=
  if s.ses.state = .idle ∨ key.inSession = false then .refused .notEnabled
  else toOutcome (takeAbort key timeout s)

/-- `DONE` (R271): the end of a session, in every state but `Idle`. -/
def execFinish (outcome : SessionOutcome) (s : State) : Host.Outcome State Fault Refusal :=
  if s.ses.state = .idle then .refused .notEnabled else toOutcome (endSession outcome s)

end Sys2Proof.Machine
end

