-- ==== Sys2Proof/Machine/Frames.lean ====
section
/-! DEFINITION. The wire frames of `30_encoding.md` R94 to R100 as inputs: a frame arrives from the
transport in one chunk and is received by R268; "the parser gives every received byte sequence a
verdict" (R102). DESIGN CHOICE (log 12). -/

namespace Sys2Proof.Machine

/-- FRAME.ENQ (R94) on the line: an unexpected frame to a master, received like any bytes (R430). -/
def execFrameEnq (a : Byte) (s : State) : Host.Outcome State Fault Refusal :=
  toOutcome (receive (enqBytes a) s)

/-- FRAME.HDR.HEX (R95) on the line. -/
def execFrameHdrHex (h : HdrChars) (k : Byte) (s : State) : Host.Outcome State Fault Refusal :=
  toOutcome (receive (headerBytes h ++ [k]) s)

/-- FRAME.HDR.ASCII (R95) on the line. -/
def execFrameHdrAscii (h : HdrChars) (k0 k1 : Byte) (s : State) :
    Host.Outcome State Fault Refusal :=
  toOutcome (receive (headerBytes h ++ [k0, k1]) s)

/-- FRAME.DB.HEX (R97), received in `WaitReadDataBlock` by R292. -/
def execFrameDbHex (p : Bytes) (t k : Byte) (s : State) : Host.Outcome State Fault Refusal :=
  toOutcome (receive (blockBytes p t (.raw k)) s)

/-- FRAME.DB.ASCII (R97), received in `WaitReadDataBlock` by R292. -/
def execFrameDbAscii (p : Bytes) (t k0 k1 : Byte) (s : State) : Host.Outcome State Fault Refusal :=
  toOutcome (receive (blockBytes p t (.digits k0 k1)) s)

/-- FRAME.EOT (R98), received in `WaitReadEot` by R295. -/
def execFrameEot (s : State) : Host.Outcome State Fault Refusal :=
  toOutcome (receive [Code.eot] s)

/-- FRAME.ACK (R98), received in the write states by R312 and R313. -/
def execFrameAck (s : State) : Host.Outcome State Fault Refusal :=
  toOutcome (receive [Code.ack] s)

/-- FRAME.ENQRSP (R99), received in the `…EnqAck` states by R291 and R311. -/
def execFrameEnqRsp (u0 u1 : Byte) (s : State) : Host.Outcome State Fault Refusal :=
  toOutcome (receive (enqRspBytes u0 u1) s)

/-- FRAME.DB.FIRST (R100), the first block of a read, received by R292. -/
def execFrameDbFirst (p : Bytes) (t : Byte) (k : CheckField) (s : State) :
    Host.Outcome State Fault Refusal :=
  toOutcome (receive (firstBlockBytes p t k) s)

end Sys2Proof.Machine
end

