-- ==== Sys2Proof/Machine/Parser.lean ====
section
/-! DEFINITION. The meanings of the Frame Parser's operations (`44_frame_parser.md`). A verdict, `Ok` or
`Fail`, is the operation's answer; the operations raise nothing (R230). -/

namespace Sys2Proof.Machine

/-- `HEXD` (R231). -/
def execHexd (c0 c1 : Byte) (s : State) : Host.Outcome State Fault Refusal :=
  answer (.ok (.hexByte (hexd c0 c1))) s

/-- `PAYD` (R237). -/
def execPayd (wire : Bytes) (mode : Mode) (s : State) : Host.Outcome State Fault Refusal :=
  answer (.ok (.rawPayload (payd wire mode))) s

/-- `PRS.ENQACK` (R232). -/
def execPrsEnqAck (rx : Bytes) (s : State) : Host.Outcome State Fault Refusal :=
  answer ((prsEnqAck rx).map .verdict) s

/-- `PRS.ACK` (R233). -/
def execPrsAck (rx : Bytes) (s : State) : Host.Outcome State Fault Refusal :=
  answer ((prsAck rx).map .verdict) s

/-- `PRS.DB` (R234). -/
def execPrsDb (rx : Bytes) (isFirst isFinal : Bool) (size : Nat) (mode : Mode) (s : State) :
    Host.Outcome State Fault Refusal :=
  answer ((prsDb s.par rx isFirst isFinal size mode).map .block) s

/-- `PRS.EOT` (R235). -/
def execPrsEot (rx : Bytes) (s : State) : Host.Outcome State Fault Refusal :=
  answer ((prsEot rx).map .verdict) s

/-- `PRS.HDR` (R236). -/
def execPrsHdr (h : Bytes) (mode : Mode) (s : State) : Host.Outcome State Fault Refusal :=
  answer ((prsHdr h mode).map .header) s

end Sys2Proof.Machine
end

