-- ==== Sys2Proof/Machine/Scheduler.lean ====
section
/-! DEFINITION. The scheduler's events (`48_scheduler.md`): `CFG`, `POLL`, `WRQ`, `DBT`, `CLS`, `CPT`. -/

namespace Sys2Proof.Machine

/-- One of the eight formats (R332). -/
def knownFormat : Format → Bool
  | .other _ => false
  | _ => true

/-- The size check of a variable whose address translates (R332). -/
def sizeOk (p : Config.Params) (mode : Mode) (v : VarDescr) : Bool :=
  match xltVar v with
  | none => true
  | some xa =>
    let z := blkmath xa.bpe v.elementCount mode
    decide (1 ≤ z.numBytes ∧ z.numBytes ≤ p.accMax) &&
      (match p.hdrCountRule with
       | .fullAndRemainder => true
       | .requiredAndLast => decide (z.blocksRequired ≤ 255))

/-- The checks on one descriptor (R332). -/
def varOk (p : Config.Params) (mode : Mode) (v : VarDescr) : Bool :=
  knownFormat v.format && decide (v.nativeAddress ≤ 0xFFFF) && wfBitIndex v.bitIndex &&
    (!v.isArray || decide (1 ≤ v.length)) && sizeOk p mode v

/-- The configuration check (R332). `c.mode` is ASCII or HEX by its type. -/
def cfgOk (p : Config.Params) (c : Cfg) : Bool :=
  decide (c.station ≤ Config.stationMax) &&
    decide (1 ≤ c.t1 ∧ 1 ≤ c.t2 ∧ 1 ≤ c.t3 ∧ 1 ≤ c.t4) &&
    decide (0 < c.requestFrequency) && decide (0 ≤ c.disconnectReportTime) &&
    decide (c.vars.map VarDescr.name).Nodup && c.vars.all (varOk p c.mode)

/-- An accepted configuration: loaded, the invalid-address latches and alerts cleared, the engine
Running (R332). -/
def loadCfg (c : Cfg) (s : State) : State :=
  let s : State := { s with cfg := c, sch := { s.sch with invalidLatched := [] } }
  let s := clearAlerts configClass s
  { s with sch := { s.sch with run := .running } }

/-- `CFG` (R332): refused in `Closed`; else enabled in `Idle` outside `Closing`. -/
def execCfg (c : Cfg) (s : State) : Host.Outcome State Fault Refusal :=
  if s.sch.run = .closed then .refused (.refuse .closed)
  else if s.ses.state ≠ .idle ∨ s.sch.run = .closing then .refused .notEnabled
  else if cfgOk s.par c then .next (loadCfg c s)
  else .refused (.refuse .configInvalid)

/-- The poll tick in `Running` (R334). -/
def pollTick (s : State) : Except Stop State :=
  if s.ses.state = .idle then startCycle s
  else
    match s.ses.req with
    | none => .error (.fault .noRequest)
    | some r =>
      match r.dir with
      | .write => .ok { s with sch := { s.sch with readPending := true } }
      | .read => .ok s

/-- `POLL` (R334). -/
def execPoll (s : State) : Host.Outcome State Fault Refusal :=
  if s.sch.run = .running then toOutcome (pollTick s) else .refused .notEnabled

/-- The variable of a name (R340). -/
def findVar (c : Cfg) (name : VarName) : Option VarDescr := c.vars.find? fun v => v.name = name

/-- A write to a variable whose address does not translate: the alert once per variable, and the write
reported as not done (R340). -/
def writeInvalid (var : VarDescr) (s : State) : State :=
  let s := if var.name ∈ s.sch.invalidLatched then s else latchInvalid var s
  emit (.writeDone var.name false) s

/-- A write request for a variable that may be written (R340). -/
def acceptWrite (var : VarDescr) (value : Value) (s : State) : Except Stop State :=
  match xltVar var with
  | none => .ok (writeInvalid var s)
  | some xa => do
    let _ ← unit (enca s.par var.format value xa.bpe var.isArray var.length)
    if s.ses.state = .idle then dispatchWrite var value s
    else
      match s.sch.pendingWrite with
      | some _ => .error (refuse .busy)
      | none => pure { s with sch := { s.sch with pendingWrite := some ⟨var, value⟩ } }

/-- `WRQ`'s checks in their order, then the request (R340). -/
def writeRequest (name : VarName) (value : Value) (s : State) : Except Stop State :=
  if s.sch.run ≠ .running then .error (refuse .notRunning)
  else
    match findVar s.cfg name with
    | none => .error (refuse .unknownVariable)
    | some var =>
      if var.access ≠ .write then .error (refuse .notWritable)
      else if var.bitIndex.isSome then .error (refuse .bitWriteUnsupported)
      else acceptWrite var value s

/-- `WRQ` (R340). -/
def execWrq (name : VarName) (value : Value) (s : State) : Host.Outcome State Fault Refusal :=
  toOutcome (writeRequest name value s)

/-- The debounce expired (R351). -/
def debounceExpired (s : State) : State :=
  let s : State := { s with sch := { s.sch with debounce := .disarmed } }
  if s.sch.link ≠ .reportedFalse then
    let s := emitAll (linkReports s.cfg false) s
    { s with sch := { s.sch with link := .reportedFalse } }
  else s

/-- `DBT`, enabled while the debounce is armed (R351). -/
def execDbt (s : State) : Host.Outcome State Fault Refusal :=
  if s.sch.debounce = .armed then .next (debounceExpired s) else .refused .notEnabled

/-- `CLS`, enabled in `Running` (R355). -/
def execCls (s : State) : Host.Outcome State Fault Refusal :=
  if s.sch.run = .running then
    if s.ses.state = .idle then .next (finishClose s)
    else .next { s with sch := { s.sch with run := .closing, closeWaited := 0 } }
  else .refused .notEnabled

/-- The forced return to `Idle`: no EOT, no alert, no `ON_DONE` (R356, R434). -/
def forceIdle (s : State) : Except Stop State :=
  match s.ses.req with
  | none => .error (.fault .noRequest)
  | some r =>
    let s := if r.dir = .write then emit (.writeDone r.var.name false) s else s
    .ok (finishClose (clearSession s))

/-- The close-poll tick (R356). -/
def closePoll (s : State) : Except Stop State :=
  if s.ses.state = .idle then .ok (finishClose s)
  else
    let n := s.sch.closeWaited + s.par.closePollMs
    let s : State := { s with sch := { s.sch with closeWaited := n } }
    if n ≥ s.par.closeMaxWaitMs then forceIdle s else .ok s

/-- `CPT`, enabled in `Closing` (R356). -/
def execCpt (s : State) : Host.Outcome State Fault Refusal :=
  if s.sch.run = .closing then toOutcome (closePoll s) else .refused .notEnabled

end Sys2Proof.Machine
end

