-- ==== Sys2Proof/Machine/Translator.lean ====
section
/-! DEFINITION. The meaning of `XLT` (`41_address_translator.md`). -/

namespace Sys2Proof.Machine

/-- `XLT` (R140): `InvalidAddress` is an answer; the unit raises nothing (R147). -/
def execXlt (mt : MemoryType) (nativeAddress : Nat) (bitIndex : Option Nat) (pos : BytePosition)
    (s : State) : Host.Outcome State Fault Refusal :=
  answer (.ok (.address (xlt mt nativeAddress bitIndex pos))) s

end Sys2Proof.Machine
end

