-- ==== Sys2Proof/Machine/Dispatch.lean ====
section
/-! DEFINITION. One arm per instruction: a direct call of its meaning. -/

namespace Sys2Proof.Machine

/-- The effect of one instruction (one input event, unit operation or frame) on the state. -/
def exec (i : Instr) (s : State) : Host.Outcome State Fault Refusal :=
  match i with
  | .chk b lo hi => Sys2Proof.Machine.execChk b lo hi s
  | .xlt memoryType nativeAddress bitIndex bytePosition => Sys2Proof.Machine.execXlt memoryType nativeAddress bitIndex bytePosition s
  | .encChar v w => Sys2Proof.Machine.execEncChar v w s
  | .encBool v w => Sys2Proof.Machine.execEncBool v w s
  | .encInt8 v w => Sys2Proof.Machine.execEncInt8 v w s
  | .encUint8 v w => Sys2Proof.Machine.execEncUint8 v w s
  | .encInt16 v w => Sys2Proof.Machine.execEncInt16 v w s
  | .encUint16 v w => Sys2Proof.Machine.execEncUint16 v w s
  | .encUint32 v w => Sys2Proof.Machine.execEncUint32 v w s
  | .encUint64 v w => Sys2Proof.Machine.execEncUint64 v w s
  | .enca format v w isArray length => Sys2Proof.Machine.execEnca format v w isArray length s
  | .decChar b cur w => Sys2Proof.Machine.execDecChar b cur w s
  | .decBool b cur w => Sys2Proof.Machine.execDecBool b cur w s
  | .decInt8 b cur w => Sys2Proof.Machine.execDecInt8 b cur w s
  | .decUint8 b cur w => Sys2Proof.Machine.execDecUint8 b cur w s
  | .decInt16 b cur w => Sys2Proof.Machine.execDecInt16 b cur w s
  | .decUint16 b cur w => Sys2Proof.Machine.execDecUint16 b cur w s
  | .decUint32 b cur w => Sys2Proof.Machine.execDecUint32 b cur w s
  | .decUint64 b cur w => Sys2Proof.Machine.execDecUint64 b cur w s
  | .decBit format b cur w bitIndex bytePosition => Sys2Proof.Machine.execDecBit format b cur w bitIndex bytePosition s
  | .deca var w b => Sys2Proof.Machine.execDeca var w b s
  | .hexe x => Sys2Proof.Machine.execHexe x s
  | .hexd c0 c1 => Sys2Proof.Machine.execHexd c0 c1 s
  | .paye raw mode => Sys2Proof.Machine.execPaye raw mode s
  | .payd wire mode => Sys2Proof.Machine.execPayd wire mode s
  | .bldEnq station => Sys2Proof.Machine.execBldEnq station s
  | .bldHdr station dir memoryType referenceAddress numBytes mode => Sys2Proof.Machine.execBldHdr station dir memoryType referenceAddress numBytes mode s
  | .bldDb chunk isFinal mode => Sys2Proof.Machine.execBldDb chunk isFinal mode s
  | .bldEot => Sys2Proof.Machine.execBldEot s
  | .bldAck => Sys2Proof.Machine.execBldAck s
  | .prsEnqAck rx => Sys2Proof.Machine.execPrsEnqAck rx s
  | .prsAck rx => Sys2Proof.Machine.execPrsAck rx s
  | .prsDb rx isFirst isFinal size mode => Sys2Proof.Machine.execPrsDb rx isFirst isFinal size mode s
  | .prsEot rx => Sys2Proof.Machine.execPrsEot rx s
  | .prsHdr h mode => Sys2Proof.Machine.execPrsHdr h mode s
  | .blkmath bpe count mode => Sys2Proof.Machine.execBlkmath bpe count mode s
  | .expect isFirst size mode => Sys2Proof.Machine.execExpect isFirst size mode s
  | .cfg c => Sys2Proof.Machine.execCfg c s
  | .poll => Sys2Proof.Machine.execPoll s
  | .wrq name value => Sys2Proof.Machine.execWrq name value s
  | .rxb chunk => Sys2Proof.Machine.execRxb chunk s
  | .txc => Sys2Proof.Machine.execTxc s
  | .tmo => Sys2Proof.Machine.execTmo s
  | .dbt => Sys2Proof.Machine.execDbt s
  | .cls => Sys2Proof.Machine.execCls s
  | .cpt => Sys2Proof.Machine.execCpt s
  | .srd var xa => Sys2Proof.Machine.execSrd var xa s
  | .swr var xa raw => Sys2Proof.Machine.execSwr var xa raw s
  | .abort key timeout => Sys2Proof.Machine.execAbort key timeout s
  | .finish outcome => Sys2Proof.Machine.execFinish outcome s
  | .frameEnq a => Sys2Proof.Machine.execFrameEnq a s
  | .frameHdrHex h k => Sys2Proof.Machine.execFrameHdrHex h k s
  | .frameHdrAscii h k0 k1 => Sys2Proof.Machine.execFrameHdrAscii h k0 k1 s
  | .frameDbHex p t k => Sys2Proof.Machine.execFrameDbHex p t k s
  | .frameDbAscii p t k0 k1 => Sys2Proof.Machine.execFrameDbAscii p t k0 k1 s
  | .frameEot => Sys2Proof.Machine.execFrameEot s
  | .frameAck => Sys2Proof.Machine.execFrameAck s
  | .frameEnqRsp u0 u1 => Sys2Proof.Machine.execFrameEnqRsp u0 u1 s
  | .frameDbFirst p t k => Sys2Proof.Machine.execFrameDbFirst p t k s

end Sys2Proof.Machine
end

