-- ==== Sys2Proof/Machine/Step.lean ====
section
/-! DEFINITION. One step of the machine: the next input event is taken, decoded and executed. -/

namespace Sys2Proof.Machine

/-- The state in which a taken input runs: the rest of the queue remains, the answer of the step before
is gone. -/
def State.take (s : State) (rest : List Input) : State := { s with inbox := rest, reply := .none }

/-- What a step makes of an instruction's outcome. A refusal of R371 changes no state and its caller
sees `Refused(reason)`; the engine goes on with the next event (log 6). -/
def settle (o : Host.Outcome State Fault Refusal) (s : State) : Host.Outcome State Fault Refusal :=
  match o with
  | .refused (.refuse r) => .next { s with reply := .refused r }
  | .refused r => .refused r
  | .fault f => .fault f
  | .next t => .next t

/-- One step. With no event delivered the engine rests: nothing changes (R384; log 5). -/
def step (s : State) : Host.Outcome State Fault Refusal :=
  match s.inbox with
  | [] => .next s
  | i :: rest =>
    match decode i with
    | .error e => .refused (.undecodable e)
    | .ok instr => settle (exec instr (s.take rest)) (s.take rest)

/-- The state in which a word of the opcode table is the next input event. -/
def State.withFetchWord (s : State) (nbits w : Nat) : State :=
  { s with inbox := tableInput nbits w :: s.inbox }

end Sys2Proof.Machine
end

