-- ==== Sys2Proof/Safety.lean ====
section
/-! DEFINITION. What counts as a safe run, in the terms the statements use: which instructions are unit
operations and which may arrive at a port, the invariants of the session (R272, R25 to R30) and of the
scheduler (R331), and a few plain readings of the rules (characters, checksums, the configuration check)
written independently of the machine. -/

namespace Sys2Proof

/-! ## Classes of instructions -/

/-- A unit operation of R120 (format `U`): a pure function of its operands. -/
def Instr.isUnit : Instr → Bool
  | .chk _ _ _ => true
  | .xlt _ _ _ _ => true
  | .encChar _ _ => true
  | .encBool _ _ => true
  | .encInt8 _ _ => true
  | .encUint8 _ _ => true
  | .encInt16 _ _ => true
  | .encUint16 _ _ => true
  | .encUint32 _ _ => true
  | .encUint64 _ _ => true
  | .enca _ _ _ _ _ => true
  | .decChar _ _ _ => true
  | .decBool _ _ _ => true
  | .decInt8 _ _ _ => true
  | .decUint8 _ _ _ => true
  | .decInt16 _ _ _ => true
  | .decUint16 _ _ _ => true
  | .decUint32 _ _ _ => true
  | .decUint64 _ _ _ => true
  | .decBit _ _ _ _ _ _ => true
  | .deca _ _ _ => true
  | .hexe _ => true
  | .hexd _ _ => true
  | .paye _ _ => true
  | .payd _ _ => true
  | .bldEnq _ => true
  | .bldHdr _ _ _ _ _ _ => true
  | .bldDb _ _ _ => true
  | .bldEot => true
  | .bldAck => true
  | .prsEnqAck _ => true
  | .prsAck _ => true
  | .prsDb _ _ _ _ _ => true
  | .prsEot _ => true
  | .prsHdr _ _ => true
  | .blkmath _ _ _ => true
  | .expect _ _ _ => true
  | .cfg _ => false
  | .poll => false
  | .wrq _ _ => false
  | .rxb _ => false
  | .txc => false
  | .tmo => false
  | .dbt => false
  | .cls => false
  | .cpt => false
  | .srd _ _ => false
  | .swr _ _ _ => false
  | .abort _ _ => false
  | .finish _ => false
  | .frameEnq _ => false
  | .frameHdrHex _ _ => false
  | .frameHdrAscii _ _ _ => false
  | .frameDbHex _ _ _ => false
  | .frameDbAscii _ _ _ _ => false
  | .frameEot => false
  | .frameAck => false
  | .frameEnqRsp _ _ => false
  | .frameDbFirst _ _ _ => false

/-- What the environment may deliver: every unit operation, event and frame, but not the four internal
operations, which "are not ports" (R41, R120 format `I`). -/
def Instr.isPort : Instr → Bool
  | .chk _ _ _ => true
  | .xlt _ _ _ _ => true
  | .encChar _ _ => true
  | .encBool _ _ => true
  | .encInt8 _ _ => true
  | .encUint8 _ _ => true
  | .encInt16 _ _ => true
  | .encUint16 _ _ => true
  | .encUint32 _ _ => true
  | .encUint64 _ _ => true
  | .enca _ _ _ _ _ => true
  | .decChar _ _ _ => true
  | .decBool _ _ _ => true
  | .decInt8 _ _ _ => true
  | .decUint8 _ _ _ => true
  | .decInt16 _ _ _ => true
  | .decUint16 _ _ _ => true
  | .decUint32 _ _ _ => true
  | .decUint64 _ _ _ => true
  | .decBit _ _ _ _ _ _ => true
  | .deca _ _ _ => true
  | .hexe _ => true
  | .hexd _ _ => true
  | .paye _ _ => true
  | .payd _ _ => true
  | .bldEnq _ => true
  | .bldHdr _ _ _ _ _ _ => true
  | .bldDb _ _ _ => true
  | .bldEot => true
  | .bldAck => true
  | .prsEnqAck _ => true
  | .prsAck _ => true
  | .prsDb _ _ _ _ _ => true
  | .prsEot _ => true
  | .prsHdr _ _ => true
  | .blkmath _ _ _ => true
  | .expect _ _ _ => true
  | .cfg _ => true
  | .poll => true
  | .wrq _ _ => true
  | .rxb _ => true
  | .txc => true
  | .tmo => true
  | .dbt => true
  | .cls => true
  | .cpt => true
  | .srd _ _ => false
  | .swr _ _ _ => false
  | .abort _ _ => false
  | .finish _ => false
  | .frameEnq _ => true
  | .frameHdrHex _ _ => true
  | .frameHdrAscii _ _ _ => true
  | .frameDbHex _ _ _ => true
  | .frameDbAscii _ _ _ _ => true
  | .frameEot => true
  | .frameAck => true
  | .frameEnqRsp _ _ => true
  | .frameDbFirst _ _ _ => true

/-- A delivery that is no internal operation; one that does not decode runs nothing. -/
def portInput (d : Input) : Bool :=
  match decode d with
  | .ok i => i.isPort
  | .error _ => true

end Sys2Proof

namespace Sys2Proof.Machine

/-! ## Outputs of a step -/

/-- The outputs a step from `s` to `t` emitted, given that it only appended some. -/
def newOutputs (s t : State) : List Output := t.out.drop s.out.length

/-- A frame handed to the transport. -/
def isTx : Output → Bool
  | .tx _ => true
  | .report _ _ => false
  | .alertRaise _ _ => false
  | .alertClear _ => false
  | .writeDone _ _ => false
  | .closeDone => false

/-- A write completion. -/
def isWriteDone : Output → Bool
  | .tx _ => false
  | .report _ _ => false
  | .alertRaise _ _ => false
  | .alertClear _ => false
  | .writeDone _ _ => true
  | .closeDone => false

/-- The variable an invalid-address alert names (R147). -/
def invalidAlertName : Output → Option VarName
  | .tx _ => none
  | .report _ _ => none
  | .alertRaise k n => if k ∈ configClass then some n else none
  | .alertClear _ => none
  | .writeDone _ _ => none
  | .closeDone => none

/-- The keys of class external (R370). -/
def externalClass : List AlertKey := [.deviceOpenError, .dbAddError]

/-- A raise or a clear of a collaborator's alert, which the engine never emits (R440). -/
def isExternalAlert : Output → Bool
  | .tx _ => false
  | .report _ _ => false
  | .alertRaise k _ => decide (k ∈ externalClass)
  | .alertClear k => decide (k ∈ externalClass)
  | .writeDone _ _ => false
  | .closeDone => false

/-- What the alert sink makes of an output: the alerts that are up. -/
def sinkStep (r : BitVec 15) : Output → BitVec 15
  | .tx _ => r
  | .report _ _ => r
  | .alertRaise k _ => r ||| BitVec.twoPow 15 (alertCode k)
  | .alertClear k => r &&& ~~~(BitVec.twoPow 15 (alertCode k))
  | .writeDone _ _ => r
  | .closeDone => r

/-- The writes accepted and not yet completed: the queued one and the one in session. -/
def openWrites (s : State) : Nat :=
  (match s.sch.pendingWrite with
   | some _ => 1
   | none => 0) +
  (match s.ses.req with
   | some r => if r.dir = .write then 1 else 0
   | none => 0)

/-! ## Plain readings of the rules -/

/-- The sixteen digit characters '0' to '9' and 'A' to 'F' (R92, G1). -/
def digitChars : Bytes :=
  [0x30, 0x31, 0x32, 0x33, 0x34, 0x35, 0x36, 0x37, 0x38, 0x39, 0x41, 0x42, 0x43, 0x44, 0x45, 0x46]

/-- The character of a digit below 16. -/
def digitChar (n : Nat) : Byte := digitChars.getD n 0

/-- A byte as two characters, high nibble first (R201). -/
def twoDigits (x : Byte) : Bytes := [digitChar (x.toNat / 16), digitChar (x.toNat % 16)]

/-- The exclusive OR of a byte sequence (R130). -/
def xorOf (b : Bytes) : Byte := b.foldl (· ^^^ ·) 0x00

/-- The checksum field of a mode (R101). -/
def checkField (c : Byte) : Mode → Bytes
  | .hex => [c]
  | .ascii => twoDigits c

/-- The Enquiry of a station (R94). -/
def enquiryOf (station : Byte) : Bytes := [0x4E, 0x20 + station, 0x05]

/-- The state after a session start that is not refused (R290, R310): the request and its sizes, the
Enquiry handed over, the first phase with its timer to be armed. -/
def sessionOpened (st : SState) (dir : Dir) (var : VarDescr) (xa : XAddr) (wire : Bytes) (s : State) :
    State :=
  let z := blkmath xa.bpe var.elementCount s.cfg.mode
  { s with
    out := s.out ++ [.tx (enquiryOf s.cfg.station)]
    ses :=
      { state := st
        blocksRequired := z.blocksRequired
        blocksDone := 0
        lastBlockSize := z.lastBlockSize
        expectedByteCount := 0
        acc := []
        rx := []
        timer := .disarmed
        armOnTxc := some .t1
        txOutstanding := s.ses.txOutstanding + 1
        req := some ⟨var, dir, xa, var.elementCount, z.numBytes, wire⟩ } }

/-- The two spellings of a digit: upper case, and lower case for a letter (R92, R231). -/
def spells (c : Byte) (n : Nat) : Prop := n < 16 ∧ (c = digitChar n ∨ c = digitChar n ||| 0x20)

/-- The checksum field at index `i` of received bytes carries `c` (R234, R236). -/
def fieldCarries (rx : Bytes) (i : Nat) (c : Byte) : Mode → Bool
  | .hex => rx[i]? == some c
  | .ascii =>
    match rx[i]?, rx[i + 1]? with
    | some a, some b => hexd a b == some c
    | _, _ => false

/-- The two numbers a header's count fields carry (R96). -/
def headerCounts (rule : Config.HdrCountRule) (numBytes : Nat) : Nat × Nat :=
  match rule with
  | .fullAndRemainder => (numBytes / 256, numBytes % 256)
  | .requiredAndLast => ((numBytes + 255) / 256, numBytes % 256)

/-- The characters of `cmd` and `dataType` (R200). -/
def cmdByte : Dir → Byte
  | .read => 0x30
  | .write => 0x38

/-- See `cmdByte`. -/
def dataTypeByte : MemoryType → Byte
  | .memory => 0x31
  | .input => 0x32
  | .output => 0x33

/-- Bytes 1 to 14 of a Header, the range of its checksum (R95, R131). -/
def headerText (rule : Config.HdrCountRule) (station : Byte) (dir : Dir) (mt : MemoryType)
    (ref : BitVec 16) (numBytes : Nat) : Bytes :=
  twoDigits station ++ [cmdByte dir, dataTypeByte mt] ++
    [digitChar (ref.toNat / 4096), digitChar (ref.toNat / 256 % 16), digitChar (ref.toNat / 16 % 16),
     digitChar (ref.toNat % 16)] ++
    twoDigits (BitVec.ofNat 8 (headerCounts rule numBytes).1) ++
    twoDigits (BitVec.ofNat 8 (headerCounts rule numBytes).2) ++ [0x30, 0x31]

/-- A Header frame (R95, R204). -/
def headerFrame (rule : Config.HdrCountRule) (station : Byte) (dir : Dir) (mt : MemoryType)
    (ref : BitVec 16) (numBytes : Nat) (mode : Mode) : Bytes :=
  let h := headerText rule station dir mt ref numBytes
  [0x01] ++ h ++ [0x17] ++ checkField (xorOf h) mode

/-- The terminator of a block (R97). -/
def endByte (isFinal : Bool) : Byte := if isFinal then 0x03 else 0x17

/-- A DataBlock frame (R97, R205). -/
def blockFrame (chunk : Bytes) (isFinal : Bool) (mode : Mode) : Bytes :=
  [0x02] ++ chunk ++ [endByte isFinal] ++ checkField (xorOf (chunk ++ [endByte isFinal])) mode

/-- The header counts of a request fit their two digits: always under the default rule (R96, R204). -/
def countsFit (rule : Config.HdrCountRule) (numBytes : Nat) : Prop :=
  (headerCounts rule numBytes).1 ≤ 255

/-! ## Plain readings of the state changes -/

/-- The session after it is destroyed: reset values, but for the transport's count (R31, R271). -/
def sessionEnded (s : State) : Session := { resetSession with txOutstanding := s.ses.txOutstanding }

/-- The alerts of a class that are up, cleared in code order (R373). -/
def clearsOf (ks : List AlertKey) (r : BitVec 15) : List Output :=
  (ks.filter fun k => r.getLsbD (alertCode k)).map Output.alertClear

/-- The bits of a list of keys. -/
def bitsOf (ks : List AlertKey) : BitVec 15 :=
  ks.foldl (fun b k => b ||| BitVec.twoPow 15 (alertCode k)) 0

/-- The connection reports a success emits (R350). -/
def upReports (s : State) : List Output :=
  if s.sch.link = .reportedTrue then []
  else s.cfg.connIndicators.map fun n => Output.report n (.scalar (.bool true))

/-- A result stored at the cursor, which advances (R337). -/
def stored (v : Value) (c : ReadCycle) : ReadCycle :=
  { c with results := c.results.set c.cursor v, cursor := c.cursor + 1 }

/-- What `ON_DONE` leaves for `ARBITRATE` when a session with request `r` ends (R271, R345, R349, R350,
R337, R343, R373). -/
def afterSession (r : Request) (o : SessionOutcome) (s : State) : State :=
  match o with
  | .readOk v =>
    { s with
      ses := sessionEnded s
      sch := { s.sch with
        cycle := s.sch.cycle.map (stored v)
        link := .reportedTrue
        debounce := .disarmed }
      raised := s.raised &&& ~~~(bitsOf readClass)
      out := s.out ++ upReports s ++ clearsOf readClass s.raised }
  | .readFail timeout =>
    { s with
      ses := sessionEnded s
      sch := { s.sch with
        cycle := s.sch.cycle.map (stored .null)
        debounce :=
          if timeout = true ∧ s.sch.link ≠ .reportedFalse then .armed else s.sch.debounce } }
  | .writeOk =>
    { s with
      ses := sessionEnded s
      sch := { s.sch with link := .reportedTrue, debounce := .disarmed }
      raised := s.raised &&& ~~~(bitsOf writeClass)
      out := s.out ++ upReports s ++ clearsOf writeClass s.raised ++ [.writeDone r.var.name true] }
  | .writeFail timeout =>
    { s with
      ses := sessionEnded s
      sch := { s.sch with
        debounce :=
          if timeout = true ∧ s.sch.link ≠ .reportedFalse then .armed else s.sch.debounce }
      out := s.out ++ [.writeDone r.var.name false] }

/-- The direction an outcome belongs to (R271). -/
def outcomeDir : SessionOutcome → Dir
  | .readOk _ => .read
  | .readFail _ => .read
  | .writeOk => .write
  | .writeFail _ => .write

/-- The failure outcome of a direction (R270). -/
def failureOf (dir : Dir) (timeout : Bool) : SessionOutcome :=
  match dir with
  | .read => .readFail timeout
  | .write => .writeFail timeout

/-- What an abort does before the session ends: one EOT, one alert (R270, R372). -/
def aborted (k : AlertKey) (r : Request) (s : State) : State :=
  { s with
    out := s.out ++ [.tx [0x04], .alertRaise k r.var.name]
    raised := s.raised ||| BitVec.twoPow 15 (alertCode k)
    ses := { s.ses with txOutstanding := s.ses.txOutstanding + 1 } }

/-- A phase entered with a frame just sent (R266, R267). -/
def phaseEntered (frame : Bytes) (st : SState) (k : TimerId) (s : State) : State :=
  { s with
    out := s.out ++ [.tx frame]
    ses := { s.ses with
      state := st
      rx := []
      timer := .disarmed
      armOnTxc := some k
      txOutstanding := s.ses.txOutstanding + 1 } }

/-- `FINISH_CLOSE` (R357). -/
def closeFinished (s : State) : State :=
  { s with
    out := s.out ++ (s.sch.pendingWrite.toList.map fun pw => Output.writeDone pw.var.name false) ++
      [.closeDone]
    ses := { s.ses with txOutstanding := 0, armOnTxc := none }
    sch := { s.sch with
      cycle := none
      pendingWrite := none
      readPending := false
      debounce := .disarmed
      run := .closed
      closeWaited := 0 } }

/-- The key of an invalid address (R147, R336). -/
def addressAlert : MemoryType → AlertKey
  | .memory => .invalidMemoryAddressError
  | .input => .invalidInputAddressError
  | .output => .invalidOutputAddressError

/-- The invalid-address alerts of skipped variables, for those not latched yet (R336). -/
def skipAlerts (latched : List VarName) (vs : List VarDescr) : List Output :=
  (vs.filter fun v => v.name ∉ latched).map fun v =>
    Output.alertRaise (addressAlert v.memoryType) v.name

/-- The state after the variables `vs` were skipped (R335, R336). -/
def skipped (vs : List VarDescr) (s : State) : State :=
  { s with
    out := s.out ++ skipAlerts s.sch.invalidLatched vs
    raised := (skipAlerts s.sch.invalidLatched vs).foldl sinkStep s.raised
    sch := { s.sch with
      invalidLatched := s.sch.invalidLatched ++
        (vs.filter fun v => v.name ∉ s.sch.invalidLatched).map VarDescr.name } }

/-- The variables a cycle reads (R334). -/
def pollList (c : Cfg) : List VarDescr := c.vars.filter fun v => v.access = .read

/-- The values an element of a format keeps through encode and decode (the domain table of R182). -/
def survives (f : Format) (w : Width) (v : Scalar) : Prop :=
  match f, w, v with
  | .char, .one, .char c => c ≤ 0xFF
  | .char, .two, .char c => c ≤ 0xFFFF
  | .bool, _, .bool _ => True
  | .int8, _, .int n => -128 ≤ n ∧ n ≤ 127
  | .uint8, _, .int n => 0 ≤ n ∧ n ≤ 255
  | .int16, .one, .int n => -128 ≤ n ∧ n ≤ 127
  | .int16, .two, .int n => -32768 ≤ n ∧ n ≤ 32767
  | .uint16, .one, .int n => 0 ≤ n ∧ n ≤ 255
  | .uint16, .two, .int n => 0 ≤ n ∧ n ≤ 65535
  | .uint32, .one, .int n => 0 ≤ n ∧ n ≤ 255
  | .uint32, .two, .int n => 0 ≤ n ∧ n ≤ 65535
  | .uint64, .one, .int n => 0 ≤ n ∧ n ≤ 255
  | .uint64, .two, .int n => 0 ≤ n ∧ n ≤ 65535
  | _, _, _ => False

/-- What R332 asks of one descriptor under a mode. -/
structure DescrAccepted (p : Config.Params) (mode : Mode) (v : VarDescr) : Prop where
  format : v.format ∈ [.char, .bool, .int8, .uint8, .int16, .uint16, .uint32, .uint64]
  address : v.nativeAddress ≤ 0xFFFF
  bit : ∀ i, v.bitIndex = some i → i ≤ 7
  length : v.isArray = true → 1 ≤ v.length
  size : ∀ xa, xltVar v = some xa →
    1 ≤ (blkmath xa.bpe v.elementCount mode).numBytes ∧
      (blkmath xa.bpe v.elementCount mode).numBytes ≤ p.accMax ∧
      (p.hdrCountRule = .requiredAndLast →
        (blkmath xa.bpe v.elementCount mode).blocksRequired ≤ 255)

/-- What R332 asks of a configuration. -/
structure ConfigAccepted (p : Config.Params) (c : Cfg) : Prop where
  station : c.station ≤ 0xDF
  timeouts : 1 ≤ c.t1 ∧ 1 ≤ c.t2 ∧ 1 ≤ c.t3 ∧ 1 ≤ c.t4
  frequency : 0 < c.requestFrequency
  disconnect : 0 ≤ c.disconnectReportTime
  names : (c.vars.map VarDescr.name).Nodup
  vars : ∀ v ∈ c.vars, DescrAccepted p c.mode v

/-! ## The session's invariant -/

/-- The direction of a state (R30). -/
def dirOf : SState → Option Dir
  | .idle => none
  | .waitReadEnqAck => some .read
  | .waitReadDataBlock => some .read
  | .waitReadEot => some .read
  | .waitWriteEnqAck => some .write
  | .waitWriteDataBlockAck => some .write
  | .waitWriteEot => some .write

/-- What holds of the session while its request is `r` (R30, R26, R272 items 4 and 5, R73). -/
structure ActiveInv (p : Config.Params) (c : Cfg) (z : Session) (r : Request) : Prop where
  dir : dirOf z.state = some r.dir
  descr : DescrAccepted p c.mode r.var
  xlt : xltVar r.var = some r.xa
  count : r.count = r.var.elementCount
  sizes : blkmath r.xa.bpe r.count c.mode = ⟨r.numBytes, z.blocksRequired, z.lastBlockSize⟩
  acc : r.dir = .read →
    z.acc.length = if z.blocksDone < z.blocksRequired then 256 * z.blocksDone else r.numBytes
  wire : r.dir = .write → r.wire.length = r.numBytes ∧ z.acc = []
  started : z.state = .waitReadEnqAck ∨ z.state = .waitWriteEnqAck → z.blocksDone = 0
  expected : z.state = .waitReadDataBlock → z.blocksDone < z.blocksRequired ∧
    z.expectedByteCount = expect (decide (z.blocksDone = 0)) (blockSizeOf z z.blocksDone) c.mode
  complete : z.state = .waitReadEot ∨ z.state = .waitWriteEot → z.blocksDone = z.blocksRequired
  short : z.rx.length < needBytes z

/-- The invariant of the session: R272 (item 2 as strong as R31 has it), with the widths of R26 and the
arming rule of R267. -/
structure SessionInv (p : Config.Params) (c : Cfg) (z : Session) : Prop where
  req_iff : z.state = .idle ↔ z.req = none
  idle_reset : z.state = .idle → z = { resetSession with txOutstanding := z.txOutstanding }
  armed : ∀ k, z.timer = .armed k → z.armOnTxc = none ∧ timerOf z.state = some k
  waiting : ∀ k, z.armOnTxc = some k → timerOf z.state = some k ∧ 1 ≤ z.txOutstanding
  blocks : z.blocksDone ≤ z.blocksRequired
  widths : z.blocksRequired ≤ 256 ∧ z.lastBlockSize ≤ 256 ∧ z.expectedByteCount ≤ 261
  active : ∀ r, z.req = some r → ActiveInv p c z r

/-! ## The scheduler's invariant -/

/-- A queued write that `DISPATCH_WRITE` can start (R341). -/
def Dispatchable (p : Config.Params) (c : Cfg) (pw : PendingWrite) : Prop :=
  DescrAccepted p c.mode pw.var ∧
    ∃ xa raw, xltVar pw.var = some xa ∧
      enca p pw.var.format pw.value xa.bpe pw.var.isArray pw.var.length = .ok raw

/-- The invariant of the scheduler: R331 items 2 to 6, R32, R33, R36, R357. Item 4 is weakened in `Closing`,
where a flag set during a write outlives that write until the close ends (log 20). -/
structure SchedInv (s : State) : Prop where
  configured : s.sch.run ≠ .unconfigured → ConfigAccepted s.par s.cfg
  rest : s.sch.run = .running → s.ses.state = .idle →
    s.sch.cycle = none ∧ s.sch.pendingWrite = none ∧ s.sch.readPending = false
  reading : ∀ r, s.ses.req = some r → r.dir = .read →
    ∃ c, s.sch.cycle = some c ∧ c.list[c.cursor]? = some r.var
  cycle : ∀ c, s.sch.cycle = some c →
    c.list = readVars s.cfg ∧ c.results.length = c.list.length ∧ c.cursor ≤ c.list.length
  readPending : s.sch.readPending = true →
    s.sch.run = .closing ∨ ∃ r, s.ses.req = some r ∧ r.dir = .write
  debounce : s.sch.debounce = .armed → s.sch.link ≠ .reportedFalse
  quiet : s.sch.run = .unconfigured ∨ s.sch.run = .closed →
    s.ses.state = .idle ∧ s.sch.cycle = none ∧ s.sch.pendingWrite = none ∧
      s.sch.readPending = false ∧ s.sch.debounce = .disarmed ∧ s.ses.txOutstanding = 0
  pending : ∀ pw, s.sch.pendingWrite = some pw → Dispatchable s.par s.cfg pw
  latched : ∀ n ∈ s.sch.invalidLatched, ∃ v ∈ s.cfg.vars, v.name = n ∧ xltVar v = none
  latched_once : s.sch.invalidLatched.Nodup

/-- The engine's invariant: the session's, the scheduler's, the bound the register widths rest on (R26),
and that the environment delivers no internal operation (R41). -/
structure EngineInv (s : State) : Prop where
  session : SessionInv s.par s.cfg s.ses
  sched : SchedInv s
  accMax : s.par.accMax ≤ 65535
  ports : ∀ d ∈ s.inbox, portInput d = true

end Sys2Proof.Machine
end

