-- ==== Sys2Proof/Certificates/Slice0/Obligations.lean ====
section
/-! DEFINITION. The statements for the provers. Every docstring names the rules a statement formalises;
"the model's choice" marks a clause that rests on a log entry instead. -/

open Sys2Proof Sys2Proof.Machine

/-! ## Decoding and the step -/

/-- Every well-formed instruction, written as it stands at the input port and decoded, is itself: the
fifty operations by number and operand record (R120), the nine frames by their bytes (R94 to R100). -/
def Obligations.DecodeOfEncodeIsTheInstruction : Prop :=
  ∀ i : Instr, i.wf = true → decode (encode i) = .ok i

/-- Each delivery that decodes has one meaning: the instruction is well formed, an operation has the
number it was delivered under and encodes back to the same record, a frame encodes back to the same
bytes. -/
def Obligations.EncodeOfDecodeIsTheDelivery : Prop :=
  (∀ n ops i, decode (.op n ops) = .ok i →
    i.wf = true ∧ i.number = some n ∧ encode i = .op n ops) ∧
  (∀ m b i, decode (.wire m b) = .ok i →
    i.wf = true ∧ i.number = none ∧ ∃ m', encode i = .wire m' b) ∧
  (∀ n ops, n ∉ ([0x01, 0x02, 0x10, 0x11, 0x12, 0x13, 0x14, 0x15, 0x16, 0x17, 0x18, 0x20, 0x21, 0x22,
      0x23, 0x24, 0x25, 0x26, 0x27, 0x28, 0x29, 0x30, 0x31, 0x32, 0x33, 0x40, 0x41, 0x42, 0x43, 0x44,
      0x50, 0x51, 0x52, 0x53, 0x54, 0x60, 0x61, 0x80, 0x81, 0x82, 0x83, 0x84, 0x85, 0x86, 0x87, 0x88,
      0x90, 0x91, 0x92, 0x93] : Bytes) → decode (.op n ops) = .error .unknownNumber)

/-- A few words of the opcode table, one or more of each family, decode to their instructions. The model's
choice: the operand records are its zero records (log 10), a frame's word is read most significant byte
first, in the payload mode its row belongs to, and the 8-bit words 0x04 and 0x06 are frames (log 11). -/
def Obligations.WordsOfTheTableDecode : Prop :=
  decodeTableWord 8 0x01 = some (.chk [] 0 0) ∧
  decodeTableWord 8 0x02 = some (.xlt .memory 0 none .lsb) ∧
  decodeTableWord 8 0x14 = some (.encInt16 (.scalar (.int 0)) .one) ∧
  decodeTableWord 8 0x28 = some (.decBit .char [0] 0 .one 0 .lsb) ∧
  decodeTableWord 8 0x31 = some (.hexd 0 0) ∧
  decodeTableWord 8 0x43 = some .bldEot ∧
  decodeTableWord 8 0x51 = some (.prsAck [0]) ∧
  decodeTableWord 8 0x81 = some .poll ∧
  decodeTableWord 8 0x92 = some (.abort .readTimeoutError false) ∧
  decodeTableWord 8 0x04 = some .frameEot ∧
  decodeTableWord 8 0x06 = some .frameAck ∧
  decodeTableWord 24 0x4E2105 = some (.frameEnq 0x21) ∧
  decodeTableWord 24 0x4E2106 = some (.frameEnqRsp 0x4E 0x21) ∧
  decodeTableWord 32 0x02C803CB = some (.frameDbHex [0xC8] 0x03 0xCB) ∧
  decodeTableWord 8 0x03 = none

/-- With an instruction delivered, one step is `exec` of that instruction in the state without the
delivery; a refusal of R371 changes nothing else and shows in the answer (the model's choice, log 6);
with nothing delivered the engine rests (R384; log 5). -/
def Obligations.StepRunsTheDecodedInstruction : Prop :=
  (∀ s d rest i, s.inbox = d :: rest → decode d = .ok i →
    (∀ t, exec i (s.take rest) = .next t → step s = .next t) ∧
    (∀ r, exec i (s.take rest) = .refused (.refuse r) →
      step s = .next { s with inbox := rest, reply := .refused r }) ∧
    (exec i (s.take rest) = .refused .notEnabled → step s = .refused .notEnabled) ∧
    (∀ f, exec i (s.take rest) = .fault f → step s = .fault f)) ∧
  (∀ s d rest e, s.inbox = d :: rest → decode d = .error e → step s = .refused (.undecodable e)) ∧
  (∀ s, s.inbox = [] → step s = .next s)

/-- Reset leaves every piece of state for which R421 gives a value at that value. -/
def Obligations.ResetLeavesTheStatedValues : Prop :=
  State.reset.ses.state = .idle ∧ State.reset.ses.blocksRequired = 0 ∧
  State.reset.ses.blocksDone = 0 ∧ State.reset.ses.lastBlockSize = 0 ∧
  State.reset.ses.expectedByteCount = 0 ∧ State.reset.ses.acc = [] ∧ State.reset.ses.rx = [] ∧
  State.reset.ses.timer = .disarmed ∧ State.reset.ses.armOnTxc = none ∧
  State.reset.ses.txOutstanding = 0 ∧ State.reset.ses.req = none ∧
  State.reset.sch.cycle = none ∧ State.reset.sch.pendingWrite = none ∧
  State.reset.sch.readPending = false ∧ State.reset.sch.link = .unreported ∧
  State.reset.sch.debounce = .disarmed ∧ State.reset.sch.invalidLatched = [] ∧
  State.reset.sch.run = .unconfigured ∧ State.reset.sch.closeWaited = 0 ∧
  (∀ k, State.reset.raised.getLsbD (alertCode k) = false) ∧
  State.reset.cfg.t1 = 800 ∧ State.reset.cfg.t2 = 2000 ∧ State.reset.cfg.t3 = 800 ∧
  State.reset.cfg.t4 = 2000 ∧ State.reset.cfg.vars = [] ∧ State.reset.cfg.connIndicators = []

/-! ## Invariants of the whole machine -/

/-- The state after reset satisfies the engine's invariant. -/
def Obligations.ResetSatisfiesTheEngineInvariant : Prop := EngineInv State.reset

/-- Every step keeps the invariants of the session (R272, R26, R30, R31) and of the scheduler (R331),
from any state that satisfies them. Item 4 of R331 is weakened while closing (log 20). -/
def Obligations.EveryStepKeepsTheEngineInvariant : Prop :=
  ∀ s t, EngineInv s → step s = .next t → EngineInv t

/-- Under the invariant no delivery ends in a fault: a step answers a next state, or the delivered event
is not enabled in that state and cannot occur (R41, R261), or the delivery does not decode. -/
def Obligations.NoStepFaultsUnderTheEngineInvariant : Prop :=
  ∀ s, EngineInv s →
    (∃ t, step s = .next t) ∨ step s = .refused .notEnabled ∨
      ∃ e, step s = .refused (.undecodable e)

/-- A unit operation writes nothing but the answer, and its answer depends on no state but the build-time
parameters (R20). -/
def Obligations.UnitOperationsWriteNoState : Prop :=
  ∀ i s t, i.isUnit = true → exec i s = .next t →
    ∃ r, t = { s with reply := r } ∧
      ∀ u : State, u.par = s.par → exec i u = .next { u with reply := r }

/-- Only `CFG` writes the configuration, and it loads its operand; nothing writes the build-time
parameters or the deliveries that wait (R20, R21). -/
def Obligations.OnlyCfgWritesTheConfiguration : Prop :=
  ∀ i s t, exec i s = .next t →
    t.par = s.par ∧ t.inbox = s.inbox ∧ ((∀ c, i ≠ .cfg c) → t.cfg = s.cfg) ∧
      ∀ c, i = .cfg c → t.cfg = c

/-- Outputs are only ever appended, and `A.raised` is what the alert sink has been told: every change of a
sticky bit is an `AlertRaise` or an `AlertClear` of the same step (R20, R38, R42, R372, R373). The
collaborators' two alerts the engine neither raises nor clears (R440). -/
def Obligations.AlertBitsFollowTheOutputs : Prop :=
  ∀ i s t, exec i s = .next t →
    t.out = s.out ++ newOutputs s t ∧ t.raised = (newOutputs s t).foldl sinkStep s.raised ∧
      ∀ o ∈ newOutputs s t, isExternalAlert o = false

/-- `S.txOutstanding` counts the frames handed over and not yet completed: one more for each `Tx` of a
step, one less for a `TXC`, and nothing else until a close forgets them (R266, R31, R357). -/
def Obligations.OutstandingFramesAreCounted : Prop :=
  ∀ i s t, exec i s = .next t →
    (i ≠ .txc → i ≠ .cls → i ≠ .cpt →
      t.ses.txOutstanding = s.ses.txOutstanding + ((newOutputs s t).filter isTx).length) ∧
    (i = .txc → s.ses.txOutstanding = t.ses.txOutstanding + 1 ∧ t.out = s.out) ∧
    (i = .cls ∨ i = .cpt → (newOutputs s t).filter isTx = [] ∧
      (t.ses.txOutstanding = s.ses.txOutstanding ∨
        t.sch.run = .closed ∧ t.ses.txOutstanding = 0))

/-- A variable with an invalid address raises its alert at most once between two `CFG` events: an alert
is raised only for a name that is not latched, the name is latched in the same step, and only `CFG`
empties the latches (R358 (5), R336, R340, R36). -/
def Obligations.InvalidAddressAlertsAreOncePerVariable : Prop :=
  ∀ i s t, exec i s = .next t →
    ((∀ c, i ≠ .cfg c) →
      t.sch.invalidLatched =
        s.sch.invalidLatched ++ (newOutputs s t).filterMap invalidAlertName) ∧
    ((newOutputs s t).filterMap invalidAlertName).Nodup ∧
    (∀ n ∈ (newOutputs s t).filterMap invalidAlertName, n ∉ s.sch.invalidLatched) ∧
    (∀ c, i = .cfg c → t.sch.invalidLatched = [] ∧ (newOutputs s t).filterMap invalidAlertName = [])

/-- `WriteDone` is emitted exactly once for every accepted write: in every step the writes open before it
and the one it accepts are the writes it completes and the ones still open (R358 (6)). -/
def Obligations.EveryAcceptedWriteCompletesOnce : Prop :=
  ∀ i s t, EngineInv s → i.isPort = true → exec i s = .next t →
    ((∀ n v, i ≠ .wrq n v) →
      openWrites t + ((newOutputs s t).filter isWriteDone).length = openWrites s) ∧
    (∀ n v, i = .wrq n v →
      openWrites t + ((newOutputs s t).filter isWriteDone).length = openWrites s + 1)

/-- Which events are enabled (R41): in every other state they cannot occur; that the model then stops, by
name, is its choice (log 7), as is that `ABORT` and `DONE` are not enabled in `Idle`, nor `ABORT` with a key
that no session raises (log 19). -/
def Obligations.EventsOutsideTheirStatesAreNotEnabled : Prop :=
  ∀ s : State,
    (s.sch.run ≠ .running → exec .poll s = .refused .notEnabled) ∧
    (s.ses.txOutstanding = 0 → exec .txc s = .refused .notEnabled) ∧
    (s.ses.timer = .disarmed → exec .tmo s = .refused .notEnabled) ∧
    (s.sch.debounce = .disarmed → exec .dbt s = .refused .notEnabled) ∧
    (s.sch.run ≠ .running → exec .cls s = .refused .notEnabled) ∧
    (s.sch.run ≠ .closing → exec .cpt s = .refused .notEnabled) ∧
    (∀ c, s.sch.run ≠ .closed → s.ses.state ≠ .idle ∨ s.sch.run = .closing →
      exec (.cfg c) s = .refused .notEnabled) ∧
    (s.ses.state = .idle → (∀ k b, exec (.abort k b) s = .refused .notEnabled) ∧
      ∀ o, exec (.finish o) s = .refused .notEnabled) ∧
    (∀ k b, k.inSession = false → exec (.abort k b) s = .refused .notEnabled)

/-- In `Closed` no event changes state: `RXB` and every frame are dropped, `WRQ` and `CFG` are refused,
and the other events are not enabled (R357). -/
def Obligations.ClosedIsLeftOnlyByReset : Prop :=
  ∀ s, EngineInv s → s.sch.run = .closed →
    (∀ b, exec (.rxb b) s = .next s) ∧
    (∀ i, i.number = none → exec i s = .next s) ∧
    (∀ n v, exec (.wrq n v) s = .refused (.refuse .notRunning)) ∧
    (∀ c, exec (.cfg c) s = .refused (.refuse .closed)) ∧
    (∀ i ∈ ([.poll, .txc, .tmo, .dbt, .cls, .cpt] : List Instr), exec i s = .refused .notEnabled)

/-! ## Checksum unit and address translator -/

/-- `CHK` answers the exclusive OR of its range, and refuses a range outside the buffer (R130). -/
def Obligations.ChecksumIsTheXorOfItsRange : Prop :=
  ∀ b lo hi s, exec (.chk b lo hi) s =
    if lo ≤ hi ∧ hi ≤ b.length then
      .next { s with reply := .byte (xorOf ((b.drop lo).take (hi - lo))) }
    else .refused (.refuse .badRange)

/-- The laws of the checksum: appending it gives zero, ranges add up, one corrupted byte is always
detected and changes it by exactly its difference, two bytes changed by the same difference are not
detected, and a byte outside the range does not count (R134). -/
def Obligations.ChecksumLawsHold : Prop :=
  (∀ b c, chk b 0 b.length = .ok c → chk (b ++ [c]) 0 (b.length + 1) = .ok 0x00) ∧
  (∀ a b ca cb, chk a 0 a.length = .ok ca → chk b 0 b.length = .ok cb →
    chk (a ++ b) 0 (a.length + b.length) = .ok (ca ^^^ cb)) ∧
  (∀ b lo hi i x y c, lo ≤ i → i < hi → b[i]? = some y → chk b lo hi = .ok c →
    chk (b.set i x) lo hi = .ok (c ^^^ (y ^^^ x)) ∧ (x ≠ y → chk (b.set i x) lo hi ≠ .ok c)) ∧
  (∀ b lo hi i j d x y c, lo ≤ i → i < hi → lo ≤ j → j < hi → i ≠ j → b[i]? = some x →
    b[j]? = some y → chk b lo hi = .ok c →
    chk ((b.set i (x ^^^ d)).set j (y ^^^ d)) lo hi = .ok c) ∧
  (∀ b lo hi i x, i < lo ∨ hi ≤ i → chk (b.set i x) lo hi = chk b lo hi)

/-- `XLT` answers the reference address of R142, R143 and R144: the Memory rule, the three Input ranges,
the two Output ranges, every bound inclusive, `InvalidAddress` outside them; `bitIndex` enters nowhere
(R140). -/
def Obligations.TranslationFollowsTheRangeTable : Prop :=
  ∀ (a : Nat) (bit : Option Nat) (pos : BytePosition) (s : State),
    exec (.xlt .memory a bit pos) s =
      .next { s with reply := (.address
        (if a + 1 ≤ 0xFFFF then some ⟨BitVec.ofNat 16 (a + 1), .two⟩ else none)) } ∧
    exec (.xlt .input a bit pos) s =
      .next { s with reply := (.address
        (if 0o40000 ≤ a ∧ a ≤ 0o40077 then
          some ⟨BitVec.ofNat 16 (2 * (a - 0o40000) + 0x001 + (if pos = .msb then 1 else 0)), .one⟩
        else if 0o40400 ≤ a ∧ a ≤ 0o40423 then
          some ⟨BitVec.ofNat 16 (2 * (a - 0o40400) + 0x101 + (if pos = .msb then 1 else 0)), .one⟩
        else if 0o41200 ≤ a ∧ a ≤ 0o41234 then
          some ⟨BitVec.ofNat 16 (2 * (a - 0o41200) + 0x181 + (if pos = .msb then 1 else 0)), .one⟩
        else none)) } ∧
    exec (.xlt .output a bit pos) s =
      .next { s with reply := (.address
        (if 0o40500 ≤ a ∧ a ≤ 0o41117 then
          some ⟨BitVec.ofNat 16 (2 * (a - 0o40500) + 0x101 + (if pos = .msb then 1 else 0)), .one⟩
        else if 0o41140 ≤ a ∧ a ≤ 0o41147 then
          some ⟨BitVec.ofNat 16 (2 * (a - 0o41140) + 0x321 + (if pos = .msb then 1 else 0)), .one⟩
        else none)) }

/-- No two valid inputs of one memory type share a reference address, and the images are those of R141
and R145. For Memory the byte position is no part of the input: R142 ignores it (log 29). -/
def Obligations.TranslationIsInjective : Prop :=
  (∀ a a' b b' p p' x, xlt .memory a b p = some x → xlt .memory a' b' p' = some x →
    a = a' ∧ x.bpe = .two ∧ 1 ≤ x.ref.toNat) ∧
  (∀ a a' b b' p p' x, xlt .input a b p = some x → xlt .input a' b' p' = some x →
    a = a' ∧ p = p' ∧ x.bpe = .one ∧
      (0x001 ≤ x.ref.toNat ∧ x.ref.toNat ≤ 0x080 ∨ 0x101 ≤ x.ref.toNat ∧ x.ref.toNat ≤ 0x128 ∨
        0x181 ≤ x.ref.toNat ∧ x.ref.toNat ≤ 0x1BA)) ∧
  (∀ a a' b b' p p' x, xlt .output a b p = some x → xlt .output a' b' p' = some x →
    a = a' ∧ p = p' ∧ x.bpe = .one ∧ 0x101 ≤ x.ref.toNat ∧ x.ref.toNat ≤ 0x330)

/-! ## Value codec -/

/-- `ENC.char` and `ENC.bool` (R163, R164), and their refusal of any other value (R161). -/
def Obligations.CharactersAndBooleansEncode : Prop :=
  ∀ (c : Nat) (b : Bool) (s : State),
    exec (.encChar (.scalar (.char c)) .one) s =
      (if c > 0xFF then .refused (.refuse .charOutOfRange)
       else .next { s with reply := .bytes [BitVec.ofNat 8 c] }) ∧
    exec (.encChar (.scalar (.char c)) .two) s =
      (if c > 0xFFFF then .refused (.refuse .charOutOfRange)
       else .next { s with reply := .bytes [BitVec.ofNat 8 (c % 256), BitVec.ofNat 8 (c / 256)] }) ∧
    exec (.encBool (.scalar (.bool b)) .one) s =
      .next { s with reply := .bytes [if b then 0x01 else 0x00] } ∧
    exec (.encBool (.scalar (.bool b)) .two) s =
      .next { s with reply := .bytes [if b then 0x01 else 0x00, 0x00] } ∧
    (∀ v w, (∀ x, v ≠ .scalar (.char x)) →
      exec (.encChar v w) s = .refused (.refuse .typeMismatch)) ∧
    (∀ v w, (∀ x, v ≠ .scalar (.bool x)) →
      exec (.encBool v w) s = .refused (.refuse .typeMismatch))

/-- `ENC.int8` to `ENC.uint64` (R165 to R170): the low byte of the two's complement representation, and
in a 2-byte element the next byte for the wide formats, the byte `INT8_HIGH_BYTE` names for the 8-bit
ones; any other value is refused (R161). -/
def Obligations.IntegersEncodeTruncated : Prop :=
  ∀ (n : Int) (s : State),
    (∀ op ∈ ([.encInt8, .encUint8] : List (Value → Width → Instr)),
      exec (op (.scalar (.int n)) .one) s = .next { s with reply := .bytes [BitVec.ofInt 8 n] } ∧
      exec (op (.scalar (.int n)) .two) s =
        .next { s with reply := (.bytes
          [BitVec.ofInt 8 n,
           if s.par.int8HighByte = .zero then 0x00 else BitVec.ofInt 8 n]) }) ∧
    (∀ op ∈ ([.encInt16, .encUint16, .encUint32, .encUint64] : List (Value → Width → Instr)),
      exec (op (.scalar (.int n)) .one) s = .next { s with reply := .bytes [BitVec.ofInt 8 n] } ∧
      exec (op (.scalar (.int n)) .two) s =
        .next { s with reply := .bytes [BitVec.ofInt 8 n, BitVec.ofInt 8 (n / 256)] }) ∧
    (∀ op ∈ ([.encInt8, .encUint8, .encInt16, .encUint16, .encUint32, .encUint64] :
        List (Value → Width → Instr)),
      ∀ v w, (∀ x, v ≠ .scalar (.int x)) →
        exec (op v w) s = .refused (.refuse .typeMismatch))

/-- `ENCA` (R171; that an empty array follows its pseudocode is the model's inference, log 31): a scalar is
its format's operation; an array of the right length is the concatenation of its elements in ascending
index order; a wrong length or a value that is no array is refused, as is an
array with an element that is refused; a format beyond the eight is refused (R161). -/
def Obligations.VariablesEncodeElementByElement : Prop :=
  ∀ (w : Width) (n : Nat) (s : State),
    (∀ v, ∀ q ∈ ([(.char, .encChar), (.bool, .encBool), (.int8, .encInt8), (.uint8, .encUint8),
        (.int16, .encInt16), (.uint16, .encUint16), (.uint32, .encUint32), (.uint64, .encUint64)] :
        List (Format × (Value → Width → Instr))),
      exec (.enca q.1 v w false n) s = exec (q.2 v w) s) ∧
    (∀ f vs bs, List.Forall₂ (fun v b => encFormat s.par f (.scalar v) w = .ok b) vs bs →
      exec (.enca f (.array vs) w true vs.length) s =
        .next { s with reply := .bytes bs.flatten }) ∧
    (∀ f vs v us r, (∀ u ∈ vs, ∃ b, encFormat s.par f (.scalar u) w = .ok b) →
      encFormat s.par f (.scalar v) w = .error r →
      exec (.enca f (.array (vs ++ v :: us)) w true (vs ++ v :: us).length) s =
        .refused (.refuse r)) ∧
    (∀ f v, (∀ vs, v = .array vs → vs.length ≠ n) →
      exec (.enca f v w true n) s = .refused (.refuse .lengthMismatch)) ∧
    (∀ tag v, exec (.enca (.other tag) v w false n) s = .refused (.refuse .unsupportedFormat))

/-- `DEC.char` to `DEC.uint64` (R172 to R179) on a 1-byte and on a 2-byte element, little-endian, signed
formats sign-extended from the width they read, and their refusal of a short payload. -/
def Obligations.ElementsDecodeByFormat : Prop :=
  ∀ (b : Bytes) (cur : Nat) (s : State),
    (∀ x, b[cur]? = some x →
      exec (.decChar b cur .one) s = .next { s with reply := .value (.scalar (.char x.toNat)) } ∧
      exec (.decBool b cur .one) s = .next { s with reply := .value (.scalar (.bool (x != 0))) } ∧
      exec (.decInt8 b cur .one) s = .next { s with reply := .value (.scalar (.int x.toInt)) } ∧
      exec (.decInt16 b cur .one) s = .next { s with reply := .value (.scalar (.int x.toInt)) } ∧
      ∀ op ∈ ([.decUint8, .decUint16, .decUint32, .decUint64] : List (Bytes → Nat → Width → Instr)),
        exec (op b cur .one) s = .next { s with reply := .value (.scalar (.int x.toNat)) }) ∧
    (∀ x y, b[cur]? = some x → b[cur + 1]? = some y →
      exec (.decChar b cur .two) s =
        .next { s with reply := .value (.scalar (.char (x.toNat + 256 * y.toNat))) } ∧
      exec (.decBool b cur .two) s =
        .next { s with reply := .value (.scalar (.bool (x != 0 || y != 0))) } ∧
      exec (.decInt8 b cur .two) s = .next { s with reply := .value (.scalar (.int x.toInt)) } ∧
      exec (.decUint8 b cur .two) s = .next { s with reply := .value (.scalar (.int x.toNat)) } ∧
      exec (.decInt16 b cur .two) s =
        .next { s with reply := .value (.scalar (.int (y ++ x).toInt)) } ∧
      ∀ op ∈ ([.decUint16, .decUint32, .decUint64] : List (Bytes → Nat → Width → Instr)),
        exec (op b cur .two) s =
          .next { s with reply := .value (.scalar (.int (x.toNat + 256 * y.toNat))) }) ∧
    (∀ w, b.length < cur + w.bytes →
      ∀ op ∈ ([.decChar, .decBool, .decInt8, .decUint8, .decInt16, .decUint16, .decUint32,
          .decUint64] : List (Bytes → Nat → Width → Instr)),
        exec (op b cur w) s = .refused (.refuse .shortPayload))

/-- `DEC.BIT` (R180): the indexed bit of the one byte, or of the byte `BIT_BYTE_RULE` designates in a
2-byte element, coerced to the format; a short payload and a format beyond the eight are refused. Which
refusal wins where both hold is the model's choice (log 32). -/
def Obligations.BitsDecodeFromTheDesignatedByte : Prop :=
  ∀ (b : Bytes) (cur i : Nat) (pos : BytePosition) (s : State), i ≤ 7 →
    (∀ w z, (w = .one ∧ b[cur]? = some z ∨
        w = .two ∧ cur + 1 < b.length ∧
          b[if s.par.bitByteRule = .alwaysHigh ∨ pos = .msb then cur + 1 else cur]? = some z) →
      exec (.decBit .bool b cur w i pos) s =
        .next { s with reply := .value (.scalar (.bool (z.getLsbD i))) } ∧
      exec (.decBit .char b cur w i pos) s =
        .next { s with reply := .value (.scalar (.char (if z.getLsbD i then 0x31 else 0x30))) } ∧
      (∀ f ∈ ([.int8, .uint8, .int16, .uint16, .uint32, .uint64] : List Format),
        exec (.decBit f b cur w i pos) s =
          .next { s with reply := .value (.scalar (.int (if z.getLsbD i then 1 else 0))) }) ∧
      ∀ tag, exec (.decBit (.other tag) b cur w i pos) s = .refused (.refuse .unsupportedFormat)) ∧
    (∀ f w, b.length < cur + w.bytes →
      exec (.decBit f b cur w i pos) s = .refused (.refuse .shortPayload))

/-- `DECA` (R181): a scalar is one element at the start of the payload, bit-addressed exactly when the
descriptor has a bit index; an array is the elements at successive multiples of the width; it answers on
every payload that is long enough, and refuses one that is not. That it answers on a longer one, by its
first bytes, is the model's choice (log 30). -/
def Obligations.VariablesDecodeElementByElement : Prop :=
  ∀ (v : VarDescr) (w : Width) (b : Bytes) (s : State),
    (v.isArray = false → ∀ i, v.bitIndex = some i →
      exec (.deca v w b) s = exec (.decBit v.format b 0 w i v.bytePosition) s) ∧
    (v.isArray = false → v.bitIndex = none →
      ∀ q ∈ ([(.char, .decChar), (.bool, .decBool), (.int8, .decInt8), (.uint8, .decUint8),
        (.int16, .decInt16), (.uint16, .decUint16), (.uint32, .decUint32), (.uint64, .decUint64)] :
        List (Format × (Bytes → Nat → Width → Instr))),
        v.format = q.1 → exec (.deca v w b) s = exec (q.2 b 0 w) s) ∧
    (v.isArray = true → ∀ xs : List Scalar, xs.length = v.length →
      (∀ j x, xs[j]? = some x → decOne s.par v w b (w.bytes * j) = .ok x) →
      exec (.deca v w b) s = .next { s with reply := .value (.array xs) }) ∧
    (knownFormat v.format = true → (∀ i, v.bitIndex = some i → i ≤ 7) →
      (w.bytes * v.elementCount ≤ b.length →
        ∃ x, exec (.deca v w b) s = .next { s with reply := .value x }) ∧
      (b.length < w.bytes * v.elementCount →
        exec (.deca v w b) s = .refused (.refuse .shortPayload)))

/-- The codec's round trip (R182): decoding an encoded value gives it back exactly on the values that fit
the surviving bits, for every format, both widths, both values of `INT8_HIGH_BYTE` and arrays element by
element; the converse holds for `char` and the formats of 16 bits and more. -/
def Obligations.CodecRoundTripHoldsOnSurvivingValues : Prop :=
  (∀ p f w v, survives f w v ↔
    ∃ b, encFormat p f (.scalar v) w = .ok b ∧ decFormat f b 0 w = .ok v) ∧
  (∀ p w vs (var : VarDescr), var.isArray = true → var.bitIndex = none → var.length = vs.length →
    (∀ v ∈ vs, survives var.format w v) →
    ∃ b, enca p var.format (.array vs) w true vs.length = .ok b ∧
      deca p var w b = .ok (.array vs)) ∧
  (∀ p w b v, ∀ f ∈ ([.char, .int16, .uint16, .uint32, .uint64] : List Format),
    b.length = w.bytes → decFormat f b 0 w = .ok v → encFormat p f (.scalar v) w = .ok b)

/-! ## Frame builder -/

/-- `HEXE` renders a byte as two upper-case digits, high nibble first (R201); `PAYE` leaves a payload
alone in `HEX` mode and renders every byte in `ASCII` mode (R202). -/
def Obligations.PayloadsRenderAsDigits : Prop :=
  ∀ (x : Byte) (raw : Bytes) (s : State),
    exec (.hexe x) s = .next { s with reply := .bytes (twoDigits x) } ∧
    exec (.paye raw .hex) s = .next { s with reply := .bytes raw } ∧
    exec (.paye raw .ascii) s = .next { s with reply := .bytes (raw.flatMap twoDigits) }

/-- `HEXD` reads two digits in either case and answers `NotHex` for any other character (R231); `PAYD`
undoes `PAYE` (R209), reads digit pairs, and answers `NotHex` for an odd length or a byte that is no
digit (R237). -/
def Obligations.DigitsReadBackAsBytes : Prop :=
  ∀ (s : State) (mode : Mode),
    (∀ c0 c1 h l, spells c0 h → spells c1 l →
      exec (.hexd c0 c1) s =
        .next { s with reply := .hexByte (some (BitVec.ofNat 8 (16 * h + l))) }) ∧
    (∀ c0 c1, ((∀ h, ¬ spells c0 h) ∨ (∀ l, ¬ spells c1 l)) →
      exec (.hexd c0 c1) s = .next { s with reply := .hexByte none }) ∧
    (∀ raw, exec (.payd (paye raw mode) mode) s =
      .next { s with reply := .rawPayload (some raw) }) ∧
    (∀ wire, exec (.payd wire .hex) s = .next { s with reply := .rawPayload (some wire) }) ∧
    (∀ wire : Bytes, wire.length % 2 = 0 → (∀ c ∈ wire, ∃ n, spells c n) →
      ∃ raw : Bytes, 2 * raw.length = wire.length ∧
        (∀ j x c0 c1, raw[j]? = some x → wire[2 * j]? = some c0 → wire[2 * j + 1]? = some c1 →
          hexd c0 c1 = some x) ∧
        exec (.payd wire .ascii) s = .next { s with reply := .rawPayload (some raw) }) ∧
    (∀ wire : Bytes, (wire.length % 2 = 1 ∨ ∃ c ∈ wire, ∀ n, ¬ spells c n) →
      exec (.payd wire .ascii) s = .next { s with reply := .rawPayload none })

/-- `BLD.ENQ`, `BLD.EOT` and `BLD.ACK` (R203, R206, R207). -/
def Obligations.ShortFramesAreBuilt : Prop :=
  ∀ (station : Byte) (s : State),
    exec (.bldEnq station) s =
      (if station ≤ 0xDF then .next { s with reply := .bytes [0x4E, 0x20 + station, 0x05] }
       else .refused (.refuse .stationOutOfRange)) ∧
    exec .bldEot s = .next { s with reply := .bytes [0x04] } ∧
    exec .bldAck s = .next { s with reply := .bytes [0x06] }

/-- `BLD.HDR` builds the Header of R95 under both values of `HDR_COUNT_RULE` (R96, R204), 17 bytes in
`HEX` mode and 18 in `ASCII` mode (R209); counts that do not fit their digits are refused (R93). -/
def Obligations.HeadersAreBuilt : Prop :=
  ∀ station dir mt ref n mode (s : State),
    (countsFit s.par.hdrCountRule n →
      exec (.bldHdr station dir mt ref n mode) s =
        .next { s with reply := .bytes (headerFrame s.par.hdrCountRule station dir mt ref n mode) } ∧
      (headerFrame s.par.hdrCountRule station dir mt ref n mode).length =
        (match mode with | .hex => 17 | .ascii => 18)) ∧
    (¬ countsFit s.par.hdrCountRule n →
      exec (.bldHdr station dir mt ref n mode) s = .refused (.refuse .fieldOverflow))

/-- `BLD.DB` builds the DataBlock of R97 for 1 to 256 bytes and refuses any other size (R205). -/
def Obligations.DataBlocksAreBuilt : Prop :=
  ∀ chunk isFinal mode (s : State),
    exec (.bldDb chunk isFinal mode) s =
      if chunk.length < 1 ∨ chunk.length > 256 then .refused (.refuse .badBlockSize)
      else .next { s with reply := .bytes (blockFrame chunk isFinal mode) }

/-- What the builder builds the parser accepts (R209): a data block, alone or after an ACK, yields its
chunk; a Header yields its fields. Under the default `ECHO_CHECK`. -/
def Obligations.BuiltFramesAreAccepted : Prop :=
  (∀ chunk isFinal mode f (s : State), s.par.echo = .passes →
    exec (.bldDb chunk isFinal mode) s = .next { s with reply := .bytes f } →
    exec (.prsDb f false isFinal chunk.length mode) s =
      .next { s with reply := .block (.ok chunk) } ∧
    exec (.prsDb (0x06 :: f) true isFinal chunk.length mode) s =
      .next { s with reply := .block (.ok chunk) }) ∧
  (∀ station dir mt ref n mode h (s : State),
    exec (.bldHdr station dir mt ref n mode) s = .next { s with reply := .bytes h } →
    exec (.prsHdr h mode) s =
      .next { s with reply := .header (.ok
        ⟨station.toNat, cmdByte dir, dataTypeByte mt, ref.toNat,
          (headerCounts s.par.hdrCountRule n).1, (headerCounts s.par.hdrCountRule n).2, 1⟩) })

/-- `SPLIT` (R208): every block but the last has 256 bytes and is not final, the last has
`lastBlockSize` bytes and is final, and the blocks together are the payload (R209). -/
def Obligations.BlocksSplitThePayload : Prop :=
  ∀ (wire : Bytes) (bpe : Width) (count : Nat) (mode : Mode) (z : Sizes),
    blkmath bpe count mode = z → wire.length = z.numBytes → 1 ≤ z.numBytes →
    (∀ i, i + 1 < z.blocksRequired →
      (split wire z.numBytes z.blocksRequired i).1.length = 256 ∧
        (split wire z.numBytes z.blocksRequired i).2 = false) ∧
    (∀ i, i + 1 = z.blocksRequired →
      (split wire z.numBytes z.blocksRequired i).1.length = z.lastBlockSize ∧
        (split wire z.numBytes z.blocksRequired i).2 = true) ∧
    ((List.range z.blocksRequired).map fun i =>
      (split wire z.numBytes z.blocksRequired i).1).flatten = wire

/-! ## Frame parser -/

/-- `PRS.ENQACK`, `PRS.ACK` and `PRS.EOT` look at one byte and ignore the rest (R232, R233, R235). -/
def Obligations.SingleByteAnswersAreJudged : Prop :=
  ∀ (u0 u1 x : Byte) (rest : Bytes) (s : State),
    exec (.prsEnqAck (u0 :: u1 :: x :: rest)) s =
      .next { s with reply := .verdict (if x = 0x06 then .ok () else .fail .enqAckMissing) } ∧
    exec (.prsAck (x :: rest)) s =
      .next { s with reply := .verdict (if x = 0x06 then .ok () else .fail .ackMissing) } ∧
    exec (.prsEot (x :: rest)) s =
      .next { s with reply := .verdict (if x = 0x04 then .ok () else .fail .eotMissing) }

/-- `PRS.DB` reports the first failure in byte order, or the payload (R234, R230). On fewer bytes than it
needs the model refuses (the model's choice, log 13). -/
def Obligations.DataBlocksAreJudgedInByteOrder : Prop :=
  ∀ (rx : Bytes) (isFirst isFinal : Bool) (size : Nat) (mode : Mode) (s : State),
    (expect isFirst size mode ≤ rx.length →
      ∀ o t : Nat, o = (if isFirst then 1 else 0) → t = o + 1 + size →
      exec (.prsDb rx isFirst isFinal size mode) s =
        .next { s with reply := (.block
          (if isFirst = true ∧ rx[0]? ≠ some 0x06 then .fail .ackMissing
           else if rx[o]? ≠ some 0x02 then .fail .stxMissing
           else if s.par.echo = .uninterpreted ∧
               Config.echoCheck rx isFirst isFinal size mode = false then .fail .echoMismatch
           else if rx[t]? ≠ some (endByte isFinal) then .fail .terminatorMissing
           else if fieldCarries rx (t + 1) (xorOf ((rx.drop (o + 1)).take (size + 1))) mode = false
             then .fail .checksumMismatch
           else .ok ((rx.drop (o + 1)).take size))) }) ∧
    (rx.length < expect isFirst size mode →
      exec (.prsDb rx isFirst isFinal size mode) s = .refused (.refuse .badRange))

/-- `PRS.HDR` on a whole header of either mode, with anything after it, and on too few bytes (R236). -/
def Obligations.HeadersAreJudged : Prop :=
  (∀ (h0 s0 s1 cmd dt r0 r1 r2 r3 b0 b1 l0 l1 m0 m1 e k0 k1 : Byte) (rest : Bytes) (s : State),
    ∀ body, body = [h0, s0, s1, cmd, dt, r0, r1, r2, r3, b0, b1, l0, l1, m0, m1, e] →
    ∀ c, c = xorOf [s0, s1, cmd, dt, r0, r1, r2, r3, b0, b1, l0, l1, m0, m1] →
    ∀ fields : Verdict HdrFields, fields =
      (match hexd s0 s1, hexd r0 r1, hexd r2 r3, hexd b0 b1, hexd l0 l1, hexd m0 m1 with
       | some st, some rh, some rl, some nb, some nl, some mi =>
         .ok ⟨st.toNat, cmd, dt, 256 * rh.toNat + rl.toNat, nb.toNat, nl.toNat, mi.toNat⟩
       | _, _, _, _, _, _ => .fail .echoMismatch) →
    exec (.prsHdr (body ++ k0 :: rest) .hex) s =
      .next { s with reply := (.header
        (if h0 ≠ 0x01 then .fail .stxMissing
         else if e ≠ 0x17 then .fail .terminatorMissing
         else if k0 ≠ c then .fail .checksumMismatch else fields)) } ∧
    exec (.prsHdr (body ++ k0 :: k1 :: rest) .ascii) s =
      .next { s with reply := (.header
        (if h0 ≠ 0x01 then .fail .stxMissing
         else if e ≠ 0x17 then .fail .terminatorMissing
         else if hexd k0 k1 ≠ some c then .fail .checksumMismatch else fields)) }) ∧
  (∀ (h : Bytes) (mode : Mode) (s : State), h.length < (match mode with | .hex => 17 | .ascii => 18) →
    exec (.prsHdr h mode) s = .next { s with reply := .header (.fail .terminatorMissing) })

/-- No false accept (R239), under the default `ECHO_CHECK`: an accepted frame has its ACK, STX,
terminator and checksum and yields exactly its payload; a frame that differs from it in one byte within
the expected count is rejected, by the failure of that byte's position, except that a checksum digit may
change its case. -/
def Obligations.NoFalseAccept : Prop :=
  ∀ (p : Config.Params) (rx : Bytes) (isFirst isFinal : Bool) (size : Nat) (mode : Mode)
    (payload : Bytes) (o t : Nat),
    p.echo = .passes → o = (if isFirst then 1 else 0) → t = o + 1 + size →
    prsDb p rx isFirst isFinal size mode = .ok (.ok payload) →
    (isFirst = true → rx[0]? = some 0x06) ∧ rx[o]? = some 0x02 ∧ rx[t]? = some (endByte isFinal) ∧
    fieldCarries rx (t + 1) (xorOf ((rx.drop (o + 1)).take (size + 1))) mode = true ∧
    payload = (rx.drop (o + 1)).take size ∧ payload.length = size ∧
    ∀ j x y, j < expect isFirst size mode → rx[j]? = some y → x ≠ y →
      (mode = .ascii → t < j → hexVal x ≠ hexVal y) →
      prsDb p (rx.set j x) isFirst isFinal size mode =
        .ok (.fail
          (if isFirst = true ∧ j = 0 then .ackMissing
           else if j = o then .stxMissing
           else if j = t then .terminatorMissing
           else .checksumMismatch))

/-! ## Session -/

/-- `BLKMATH` and `EXPECT` (R263, R264), and what the sizes mean: the blocks hold the request exactly. -/
def Obligations.RequestSizesAreComputed : Prop :=
  ∀ (bpe : Width) (count : Nat) (mode : Mode) (isFirst : Bool) (size : Nat) (s : State),
    ∀ n, n = (if mode = .ascii then 2 * (bpe.bytes * count) else bpe.bytes * count) →
    ∀ b l, b = (if n % 256 = 0 then n / 256 else n / 256 + 1) →
    l = (if n % 256 = 0 then 256 else n % 256) →
    exec (.blkmath bpe count mode) s = .next { s with reply := .sizes ⟨n, b, l⟩ } ∧
    (1 ≤ n → 256 * (b - 1) + l = n ∧ 1 ≤ l ∧ l ≤ 256 ∧ b = (n + 255) / 256) ∧
    exec (.expect isFirst size mode) s =
      .next { s with reply := .count ((if isFirst then 1 else 0) + 1 + size + 1 +
        (if mode = .hex then 1 else 2)) }

/-- `SRD` and `SWR` (R290, R310): in `Idle`, for a request of 1 to `ACC_MAX` bytes at a legal station,
the request and its sizes are set, the Enquiry is sent and the first phase entered; outside `Idle` they
are refused with `Busy`, an impossible size with `BadLength`. -/
def Obligations.SessionsStartWithAnEnquiry : Prop :=
  ∀ (var : VarDescr) (xa : XAddr) (raw : Bytes) (s : State),
    ∀ n, n = (blkmath xa.bpe var.elementCount s.cfg.mode).numBytes →
    (s.ses.state = .idle → 1 ≤ n → n ≤ s.par.accMax → s.cfg.station ≤ 0xDF →
      exec (.srd var xa) s = .next (sessionOpened .waitReadEnqAck .read var xa [] s) ∧
      exec (.swr var xa raw) s =
        .next (sessionOpened .waitWriteEnqAck .write var xa (paye raw s.cfg.mode) s)) ∧
    (s.ses.state ≠ .idle →
      exec (.srd var xa) s = .refused (.refuse .busy) ∧
      exec (.swr var xa raw) s = .refused (.refuse .busy)) ∧
    (s.ses.state = .idle → n = 0 ∨ s.par.accMax < n →
      exec (.srd var xa) s = .refused (.refuse .badLength) ∧
      exec (.swr var xa raw) s = .refused (.refuse .badLength))

/-- `TXC` (R266): one frame less outstanding; the completion of the last one arms the waiting timer. -/
def Obligations.CompletionArmsTheTimer : Prop :=
  ∀ (s : State) (n : Nat), s.ses.txOutstanding = n + 1 →
    (n = 0 → ∀ k, s.ses.armOnTxc = some k →
      exec .txc s = .next { s with ses := { s.ses with
        txOutstanding := 0, timer := .armed k, armOnTxc := none } }) ∧
    (n ≠ 0 ∨ s.ses.armOnTxc = none →
      exec .txc s = .next { s with ses := { s.ses with txOutstanding := n } })

/-- The frames as inputs: each is received as a chunk of exactly its bytes (the model's choice, log 12),
with the bytes of R94 to R100. -/
def Obligations.FramesAreReceivedAsTheirBytes : Prop :=
  ∀ (s : State) (a u0 u1 t k k0 k1 : Byte) (p : Bytes) (h : HdrChars),
    exec (.frameEnq a) s = exec (.rxb [0x4E, a, 0x05]) s ∧
    (∀ body, body = [0x01, h.station0, h.station1, h.cmd, h.dataType, h.ref0, h.ref1, h.ref2, h.ref3,
        h.blocks0, h.blocks1, h.last0, h.last1, 0x30, 0x31, 0x17] →
      exec (.frameHdrHex h k) s = exec (.rxb (body ++ [k])) s ∧
      exec (.frameHdrAscii h k0 k1) s = exec (.rxb (body ++ [k0, k1])) s) ∧
    exec (.frameDbHex p t k) s = exec (.rxb ([0x02] ++ p ++ [t, k])) s ∧
    exec (.frameDbAscii p t k0 k1) s = exec (.rxb ([0x02] ++ p ++ [t, k0, k1])) s ∧
    exec .frameEot s = exec (.rxb [0x04]) s ∧
    exec .frameAck s = exec (.rxb [0x06]) s ∧
    exec (.frameEnqRsp u0 u1) s = exec (.rxb [u0, u1, 0x06]) s ∧
    exec (.frameDbFirst p t (.raw k)) s = exec (.rxb ([0x06, 0x02] ++ p ++ [t, k])) s ∧
    exec (.frameDbFirst p t (.digits k0 k1)) s =
      exec (.rxb ([0x06, 0x02] ++ p ++ [t, k0, k1])) s

/-- Reception (R268): in `Idle` the bytes are dropped; otherwise they are appended, and while the phase
needs more bytes nothing else happens: 3 for an enquiry response, `S.expectedByteCount` for a data block,
1 otherwise. For a chunk, and for the frames no phase waits for (an Enquiry, a Header). -/
def Obligations.IncompleteReceptionOnlyBuffers : Prop :=
  ∀ (s : State) (i : Instr) (chunk : Bytes),
    (i = .rxb chunk ∨ (∃ a, i = .frameEnq a ∧ chunk = [0x4E, a, 0x05]) ∨
      (∃ h k, i = .frameHdrHex h k ∧ chunk = headerBytes h ++ [k]) ∨
      ∃ h k0 k1, i = .frameHdrAscii h k0 k1 ∧ chunk = headerBytes h ++ [k0, k1]) →
    (s.ses.state = .idle → exec i s = .next s) ∧
    (s.ses.state ≠ .idle →
      (s.ses.rx ++ chunk).length <
        (if s.ses.state = .waitReadEnqAck ∨ s.ses.state = .waitWriteEnqAck then 3
         else if s.ses.state = .waitReadDataBlock then s.ses.expectedByteCount else 1) →
      exec i s = .next { s with ses := { s.ses with rx := s.ses.rx ++ chunk } })

/-- The enquiry response (R291, R311): with ACK as its third byte the Header is sent and the data phase
entered, a read expecting its first block; whatever else arrived is discarded. -/
def Obligations.EnquiryResponseSendsTheHeader : Prop :=
  ∀ (s : State) (i : Instr) (chunk : Bytes) (u0 u1 : Byte) (rest : Bytes) (r : Request) (hdr : Bytes),
    (i = .rxb chunk ∨ ∃ a b, i = .frameEnqRsp a b ∧ chunk = [a, b, 0x06]) →
    s.ses.rx ++ chunk = u0 :: u1 :: 0x06 :: rest → s.ses.req = some r →
    countsFit s.par.hdrCountRule r.numBytes →
    (s.ses.state = .waitReadEnqAck →
      hdr = headerFrame s.par.hdrCountRule s.cfg.station .read r.var.memoryType r.xa.ref r.numBytes
        s.cfg.mode →
      exec i s = .next (phaseEntered hdr .waitReadDataBlock .t2
        { s with ses := { s.ses with
          expectedByteCount := 1 + 1 +
            (if 1 < s.ses.blocksRequired then 256 else s.ses.lastBlockSize) + 1 +
            (if s.cfg.mode = .hex then 1 else 2) } })) ∧
    (s.ses.state = .waitWriteEnqAck →
      hdr = headerFrame s.par.hdrCountRule s.cfg.station .write r.var.memoryType r.xa.ref r.numBytes
        s.cfg.mode →
      exec i s = .next (phaseEntered hdr .waitWriteDataBlockAck .t4 s))

/-- A received data block that holds (R292), alone or after the ACK that only the first block carries
(R100), is appended and acknowledged; the session then waits for the next block or for the EOT. Under the
default `ECHO_CHECK`. -/
def Obligations.GoodBlocksAreAppendedAndAcknowledged : Prop :=
  ∀ (s : State) (i : Instr) (chunk payload check rest : Bytes) (done : Nat) (u : State),
    (i = .rxb chunk ∨ (∃ p t k, i = .frameDbHex p t k ∧ chunk = blockBytes p t (.raw k)) ∨
      (∃ p t k0 k1, i = .frameDbAscii p t k0 k1 ∧ chunk = blockBytes p t (.digits k0 k1)) ∨
      ∃ p t k, i = .frameDbFirst p t k ∧ chunk = firstBlockBytes p t k) →
    s.par.echo = .passes → s.ses.state = .waitReadDataBlock → s.ses.blocksDone = done →
    payload.length = (if done + 1 < s.ses.blocksRequired then 256 else s.ses.lastBlockSize) →
    s.ses.expectedByteCount =
      (if done = 0 then 1 else 0) + 1 + payload.length + 1 + (if s.cfg.mode = .hex then 1 else 2) →
    check = checkField (xorOf (payload ++ [endByte (decide (done + 1 = s.ses.blocksRequired))]))
      s.cfg.mode →
    s.ses.rx ++ chunk = (if done = 0 then [0x06] else []) ++ [0x02] ++ payload ++
      [endByte (decide (done + 1 = s.ses.blocksRequired))] ++ check ++ rest →
    u = { s with ses := { s.ses with acc := s.ses.acc ++ payload, blocksDone := done + 1 } } →
    (done + 1 < s.ses.blocksRequired →
      exec i s = .next (phaseEntered [0x06] .waitReadDataBlock .t2
        { u with ses := { u.ses with
          expectedByteCount := 1 +
            (if done + 2 < s.ses.blocksRequired then 256 else s.ses.lastBlockSize) + 1 +
            (if s.cfg.mode = .hex then 1 else 2) } })) ∧
    (¬ done + 1 < s.ses.blocksRequired →
      exec i s = .next (phaseEntered [0x06] .waitReadEot .t3 u))

/-- The end of a read (R295, R296): on EOT the engine replies with EOT, decodes the accumulated payload
and ends the session, as a failed read with its own alert when a payload character is no hex digit. When
nothing waits and the cycle has no further variable the cycle is published in the same step (R338). -/
def Obligations.EotEndsTheRead : Prop :=
  ∀ (s : State) (i : Instr) (chunk rest : Bytes) (r : Request) (u : State),
    (i = .rxb chunk ∨ i = .frameEot ∧ chunk = [0x04]) →
    s.ses.state = .waitReadEot → s.ses.req = some r → s.ses.rx ++ chunk = 0x04 :: rest →
    u = { s with
      out := s.out ++ [.tx [0x04]]
      ses := { s.ses with txOutstanding := s.ses.txOutstanding + 1 } } →
    (∀ raw v, payd s.ses.acc s.cfg.mode = some raw → deca s.par r.var r.xa.bpe raw = .ok v →
      exec i s = exec (.finish (.readOk v)) u ∧
      (∀ c, s.sch.run = .running → s.sch.pendingWrite = none → s.sch.cycle = some c →
        c.cursor + 1 = c.list.length → c.results.length = c.list.length →
        exec i s = .next { afterSession r (.readOk v) u with
          sch := { (afterSession r (.readOk v) u).sch with cycle := none, readPending := false }
          out := (afterSession r (.readOk v) u).out ++
            List.zipWith (fun x y => Output.report x.name y) c.list (stored v c).results })) ∧
    (payd s.ses.acc s.cfg.mode = none →
      exec i s = exec (.finish (.readFail false))
        { u with
          out := u.out ++ [.alertRaise .payloadFormatError r.var.name]
          raised := u.raised ||| BitVec.twoPow 15 (alertCode .payloadFormatError) })

/-- ACK in the write states (R312, R313): the next block of the payload is sent while one remains, then
the EOT, and the ACK that answers the EOT ends the write as done. -/
def Obligations.AcksDriveTheWrite : Prop :=
  ∀ (s : State) (i : Instr) (chunk rest : Bytes) (r : Request),
    (i = .rxb chunk ∨ i = .frameAck ∧ chunk = [0x06]) →
    s.ses.req = some r → s.ses.rx ++ chunk = 0x06 :: rest →
    (s.ses.state = .waitWriteDataBlockAck → s.ses.blocksDone < s.ses.blocksRequired →
      ∀ block, block = (r.wire.drop (256 * s.ses.blocksDone)).take
        (min (256 * (s.ses.blocksDone + 1)) r.numBytes - 256 * s.ses.blocksDone) →
      1 ≤ block.length →
      exec i s = .next (phaseEntered
        (blockFrame block (decide (s.ses.blocksDone + 1 = s.ses.blocksRequired)) s.cfg.mode)
        .waitWriteDataBlockAck .t4
        { s with ses := { s.ses with blocksDone := s.ses.blocksDone + 1 } })) ∧
    (s.ses.state = .waitWriteDataBlockAck → ¬ s.ses.blocksDone < s.ses.blocksRequired →
      exec i s = .next (phaseEntered [0x04] .waitWriteEot .t4 s)) ∧
    (s.ses.state = .waitWriteEot → exec i s = exec (.finish .writeOk) s)

/-- A reception that completes a phase with the wrong bytes aborts the session without a timeout, under
the key of the first byte that is wrong (R291, R292, R295, R311 to R313, R230). -/
def Obligations.WrongBytesAbortTheSession : Prop :=
  ∀ (s : State) (chunk : Bytes) (r : Request), s.ses.req = some r →
    (s.ses.state = .waitReadEnqAck ∨ s.ses.state = .waitWriteEnqAck →
      ∀ u0 u1 x rest, s.ses.rx ++ chunk = u0 :: u1 :: x :: rest → x ≠ 0x06 →
      exec (.rxb chunk) s = exec (.abort .enqAckNotReceivedError false) s) ∧
    (s.ses.state = .waitReadDataBlock → s.ses.expectedByteCount ≤ (s.ses.rx ++ chunk).length →
      ∀ k key, prsDb s.par (s.ses.rx ++ chunk) (decide (s.ses.blocksDone = 0))
        (decide (s.ses.blocksDone + 1 = s.ses.blocksRequired))
        (if s.ses.blocksDone + 1 < s.ses.blocksRequired then 256 else s.ses.lastBlockSize)
        s.cfg.mode = .ok (.fail k) →
      (k, key) ∈ [(FailKind.ackMissing, AlertKey.ackNotReceivedError),
        (.stxMissing, .stxNotReceivedError), (.echoMismatch, .echoError),
        (.terminatorMissing, .terminatorNotReceivedError), (.checksumMismatch, .checksumError)] →
      exec (.rxb chunk) s = exec (.abort key false) s) ∧
    (s.ses.state = .waitReadEot → ∀ x rest, s.ses.rx ++ chunk = x :: rest → x ≠ 0x04 →
      exec (.rxb chunk) s = exec (.abort .eotNotReceivedError false) s) ∧
    (s.ses.state = .waitWriteDataBlockAck ∨ s.ses.state = .waitWriteEot →
      ∀ x rest, s.ses.rx ++ chunk = x :: rest → x ≠ 0x06 →
      exec (.rxb chunk) s = exec (.abort .ackNotReceivedError false) s)

/-! ## Abort and the end of a session -/

/-- Taking an exception (R270, R376), by `ABORT` with a key a session can raise or by `TMO` with the key of its state (R297, R314): one
EOT is sent, one alert raised, the session ends as a failure of its direction, and whatever runs next
follows in the same step with the alert still up. -/
def Obligations.AbortsSendEotAndRaise : Prop :=
  ∀ (s : State) (i : Instr) (k : AlertKey) (timeout : Bool) (r : Request),
    (i = .abort k timeout ∧ k.inSession = true ∨ i = .tmo ∧ timeout = true ∧ (∃ x, s.ses.timer = .armed x) ∧
      (s.ses.state, k) ∈ [(SState.waitReadEnqAck, AlertKey.enqAckNotReceivedError),
        (.waitReadDataBlock, .readTimeoutError), (.waitReadEot, .readTimeoutError),
        (.waitWriteEnqAck, .enqAckNotReceivedError),
        (.waitWriteDataBlockAck, .writeTimeoutError), (.waitWriteEot, .writeTimeoutError)]) →
    s.ses.state ≠ .idle → s.ses.req = some r →
    exec i s = exec (.finish (failureOf r.dir timeout)) (aborted k r s) ∧
    ∀ t, exec i s = .next t →
      t.raised.getLsbD (alertCode k) = true ∧
      ∃ more, t.out = s.out ++ [.tx [0x04], .alertRaise k r.var.name] ++
        (if r.dir = .write then [.writeDone r.var.name false] else []) ++ more

/-- An abort, or a timeout, with nothing queued behind a write, or while closing: the whole next state
(R270, R271, R345, R349). -/
def Obligations.AbortedSessionsEndInIdle : Prop :=
  ∀ (s : State) (i : Instr) (k : AlertKey) (timeout : Bool) (r : Request),
    (i = .abort k timeout ∧ k.inSession = true ∨ i = .tmo ∧ timeout = true ∧ (∃ x, s.ses.timer = .armed x) ∧
      (s.ses.state, k) ∈ [(SState.waitReadEnqAck, AlertKey.enqAckNotReceivedError),
        (.waitReadDataBlock, .readTimeoutError), (.waitReadEot, .readTimeoutError),
        (.waitWriteEnqAck, .enqAckNotReceivedError),
        (.waitWriteDataBlockAck, .writeTimeoutError), (.waitWriteEot, .writeTimeoutError)]) →
    s.ses.state ≠ .idle → s.ses.req = some r →
    (r.dir = .read → ∃ c, s.sch.cycle = some c ∧ c.cursor < c.results.length) →
    s.sch.run = .closing ∨
      (s.sch.pendingWrite = none ∧ s.sch.cycle = none ∧ s.sch.readPending = false) →
    exec i s = .next (afterSession r (failureOf r.dir timeout) (aborted k r s))

/-- `DONE` of any outcome, when nothing runs next (closing, or nothing queued): the session is destroyed
and its outcome recorded: connection reports, alert clears of the class, `WriteDone`, or the result in
its slot (R271, R345, R343, R337, R349, R350, R373). When then no write is queued and the cursor of the cycle
stands at its end, the cycle is published in the same step, one report per variable in order (R338): after
its last read, and after a write that was sent before it (R342, D52). -/
def Obligations.DoneRecordsTheOutcome : Prop :=
  ∀ (s : State) (o : SessionOutcome) (r : Request),
    s.ses.state ≠ .idle → s.ses.req = some r →
    (outcomeDir o = .read → ∃ c, s.sch.cycle = some c ∧ c.cursor < c.results.length) →
    (s.sch.run = .closing ∨
      (s.sch.pendingWrite = none ∧ s.sch.cycle = none ∧ s.sch.readPending = false) →
      exec (.finish o) s = .next (afterSession r o s)) ∧
    (∀ c c', s.sch.run ≠ .closing → s.sch.pendingWrite = none → s.sch.cycle = some c →
      (c' = match o with
        | .readOk v => stored v c
        | .readFail _ => stored .null c
        | .writeOk => c
        | .writeFail _ => c) →
      c'.cursor = c'.list.length → c'.results.length = c'.list.length →
      exec (.finish o) s = .next { afterSession r o s with
        sch := { (afterSession r o s).sch with cycle := none, readPending := false }
        out := (afterSession r o s).out ++
          List.zipWith (fun x y => Output.report x.name y) c'.list c'.results })

/-- What runs next when a session has ended (R342, R344, Scenario E): a queued write before the next
variable of the cycle; else the interrupted cycle, at the first variable from its cursor on that can be
read, or, when none can, its publication (R335, R336, R338); else a remembered poll tick; nothing while
closing. -/
def Obligations.QueuedWorkRunsInOrder : Prop :=
  ∀ (s : State) (o : SessionOutcome) (r : Request) (u : State),
    s.ses.state ≠ .idle → s.ses.req = some r →
    (outcomeDir o = .read → ∃ c, s.sch.cycle = some c ∧ c.cursor < c.results.length) →
    u = afterSession r o s →
    (∀ pw xa raw, s.sch.run ≠ .closing → s.sch.pendingWrite = some pw → xltVar pw.var = some xa →
      enca s.par pw.var.format pw.value xa.bpe pw.var.isArray pw.var.length = .ok raw →
      exec (.finish o) s =
        exec (.swr pw.var xa raw) { u with sch := { u.sch with pendingWrite := none } }) ∧
    (∀ c pre, s.sch.run ≠ .closing → s.sch.pendingWrite = none → u.sch.cycle = some c →
      (∀ x ∈ pre, x.name ∈ s.sch.invalidLatched ∨ xltVar x = none) →
      (∀ v post xa, c.list.drop c.cursor = pre ++ v :: post → ((pre ++ [v]).map VarDescr.name).Nodup →
        v.name ∉ s.sch.invalidLatched → xltVar v = some xa →
        exec (.finish o) s = exec (.srd v xa) { skipped pre u with
          sch := { (skipped pre u).sch with
            cycle := some { c with cursor := c.cursor + pre.length }
            readPending := false } }) ∧
      (c.list.drop c.cursor = pre → (pre.map VarDescr.name).Nodup →
        c.results.length = c.list.length →
        exec (.finish o) s = .next { skipped pre u with
          sch := { (skipped pre u).sch with cycle := none, readPending := false }
          out := (skipped pre u).out ++
            List.zipWith (fun x y => Output.report x.name y) c.list c.results })) ∧
    (s.sch.pendingWrite = none → s.sch.cycle = none → s.sch.readPending = true →
      s.sch.run = .running →
      exec (.finish o) s = exec .poll { u with sch := { u.sch with readPending := false } }) ∧
    (s.sch.run = .closing → exec (.finish o) s = .next u)

/-! ## Scheduler -/

/-- `CFG` (R332): an acceptable configuration is loaded, the latches emptied, the three invalid-address
alerts cleared if they are up, the engine is Running; any other is refused and changes nothing; in
`Closed` it is refused. -/
def Obligations.AcceptedConfigurationsAreLoaded : Prop :=
  ∀ (s : State) (c : Cfg),
    (s.sch.run = .unconfigured ∨ s.sch.run = .running → s.ses.state = .idle →
      (ConfigAccepted s.par c →
        exec (.cfg c) s = .next { s with
          cfg := c
          sch := { s.sch with invalidLatched := [], run := .running }
          raised := s.raised &&& ~~~(0x4180#15)
          out := s.out ++ clearsOf [.invalidInputAddressError, .invalidOutputAddressError,
            .invalidMemoryAddressError] s.raised }) ∧
      (¬ ConfigAccepted s.par c → exec (.cfg c) s = .refused (.refuse .configInvalid))) ∧
    (s.sch.run = .closed → exec (.cfg c) s = .refused (.refuse .closed))

/-- `POLL` in `Idle` (R334 to R336): the cycle is built from the read variables in configured order, the
variables that cannot be read are skipped (with one alert for each whose address is found invalid now),
and a read session starts for the first one that can. -/
def Obligations.PollReadsTheFirstReadableVariable : Prop :=
  ∀ (s : State) (pre post : List VarDescr) (v : VarDescr) (xa : XAddr),
    s.sch.run = .running → s.ses.state = .idle → pollList s.cfg = pre ++ v :: post →
    ((pre ++ [v]).map VarDescr.name).Nodup →
    (∀ u ∈ pre, u.name ∈ s.sch.invalidLatched ∨ xltVar u = none) →
    v.name ∉ s.sch.invalidLatched → xltVar v = some xa →
    1 ≤ (blkmath xa.bpe v.elementCount s.cfg.mode).numBytes →
    (blkmath xa.bpe v.elementCount s.cfg.mode).numBytes ≤ s.par.accMax →
    s.cfg.station ≤ 0xDF →
    exec .poll s = .next
      { sessionOpened .waitReadEnqAck .read v xa [] (skipped pre s) with
        sch := { (skipped pre s).sch with
          cycle := some ⟨pre ++ v :: post, List.replicate (pre ++ v :: post).length .null,
            pre.length⟩ } }

/-- `POLL` when no variable can be read: the cycle ends in the same step, with `VNull` for every read
variable in order, and nothing at all for an empty list (R334, R336, R338). -/
def Obligations.PollOfNothingReadableReportsNulls : Prop :=
  ∀ (s : State), s.sch.run = .running → s.ses.state = .idle →
    ((pollList s.cfg).map VarDescr.name).Nodup →
    (∀ u ∈ pollList s.cfg, u.name ∈ s.sch.invalidLatched ∨ xltVar u = none) →
    exec .poll s = .next { skipped (pollList s.cfg) s with
      sch := { (skipped (pollList s.cfg) s).sch with cycle := none }
      out := (skipped (pollList s.cfg) s).out ++
        (pollList s.cfg).map fun u => Output.report u.name .null }

/-- `POLL` during a session: a tick during a write is remembered, one during a read is lost (R334). -/
def Obligations.PollDuringASessionIsDeferredOrLost : Prop :=
  ∀ (s : State) (r : Request), s.sch.run = .running → s.ses.state ≠ .idle → s.ses.req = some r →
    (r.dir = .write → exec .poll s = .next { s with sch := { s.sch with readPending := true } }) ∧
    (r.dir = .read → exec .poll s = .next s)

/-- The checks of `WRQ` that refuse, in their order (R340, R183). -/
def Obligations.WriteRequestsAreCheckedInOrder : Prop :=
  ∀ (s : State) (name : VarName) (value : Value),
    (s.sch.run ≠ .running → exec (.wrq name value) s = .refused (.refuse .notRunning)) ∧
    (s.sch.run = .running →
      ((∀ v ∈ s.cfg.vars, v.name ≠ name) →
        exec (.wrq name value) s = .refused (.refuse .unknownVariable)) ∧
      (∀ var, s.cfg.vars.find? (fun v => v.name = name) = some var →
        (var.access = .read → exec (.wrq name value) s = .refused (.refuse .notWritable)) ∧
        (var.access = .write → var.bitIndex.isSome = true →
          exec (.wrq name value) s = .refused (.refuse .bitWriteUnsupported)) ∧
        (var.access = .write → var.bitIndex = none → ∀ xa, xltVar var = some xa →
          (∀ e, enca s.par var.format value xa.bpe var.isArray var.length = .error e →
            exec (.wrq name value) s = .refused (.refuse e)) ∧
          (∀ raw, enca s.par var.format value xa.bpe var.isArray var.length = .ok raw →
            s.ses.state ≠ .idle → s.sch.pendingWrite.isSome = true →
            exec (.wrq name value) s = .refused (.refuse .busy)))))

/-- A write request that passes its checks (R340, R341): in `Idle` the write session starts, otherwise
the write is queued in the empty slot; for an address that does not translate nothing is sent, the alert
is raised once per variable and the write reported as not done. -/
def Obligations.WriteRequestsStartOrQueue : Prop :=
  ∀ (s : State) (name : VarName) (value : Value) (var : VarDescr),
    s.sch.run = .running → s.cfg.vars.find? (fun v => v.name = name) = some var →
    var.access = .write → var.bitIndex = none →
    (∀ xa raw, xltVar var = some xa →
      enca s.par var.format value xa.bpe var.isArray var.length = .ok raw →
      (s.ses.state = .idle → s.cfg.station ≤ 0xDF →
        1 ≤ (blkmath xa.bpe var.elementCount s.cfg.mode).numBytes →
        (blkmath xa.bpe var.elementCount s.cfg.mode).numBytes ≤ s.par.accMax →
        exec (.wrq name value) s =
          .next (sessionOpened .waitWriteEnqAck .write var xa (paye raw s.cfg.mode) s)) ∧
      (s.ses.state ≠ .idle → s.sch.pendingWrite = none →
        exec (.wrq name value) s =
          .next { s with sch := { s.sch with pendingWrite := some ⟨var, value⟩ } })) ∧
    (xltVar var = none →
      exec (.wrq name value) s = .next { skipped [var] s with
        out := (skipped [var] s).out ++ [.writeDone var.name false] })

/-- `DBT` (R351): the debounce ends, and unless it is already reported the indicators are reported false,
in order, and the link with them; no session state and no alert is touched. -/
def Obligations.DebounceReportsTheLinkDown : Prop :=
  ∀ (s : State), s.sch.debounce = .armed →
    (s.sch.link ≠ .reportedFalse →
      exec .dbt s = .next { s with
        sch := { s.sch with debounce := .disarmed, link := .reportedFalse }
        out := s.out ++ s.cfg.connIndicators.map fun n => Output.report n (.scalar (.bool false)) }) ∧
    (s.sch.link = .reportedFalse →
      exec .dbt s = .next { s with sch := { s.sch with debounce := .disarmed } })

/-- `CLS` and `CPT` (R355 to R357): a close in `Idle` finishes at once; with a session active it waits,
tick by tick, for the session to end, and at the bound forces `Idle` without an EOT, an alert or a
result, reporting an unfinished write as not done. -/
def Obligations.CloseWaitsThenForces : Prop :=
  ∀ (s : State),
    (s.sch.run = .running →
      (s.ses.state = .idle → exec .cls s = .next (closeFinished s)) ∧
      (s.ses.state ≠ .idle →
        exec .cls s = .next { s with sch := { s.sch with run := .closing, closeWaited := 0 } })) ∧
    (s.sch.run = .closing →
      (s.ses.state = .idle → exec .cpt s = .next (closeFinished s)) ∧
      (s.ses.state ≠ .idle → ∀ n, n = s.sch.closeWaited + s.par.closePollMs →
        (n < s.par.closeMaxWaitMs →
          exec .cpt s = .next { s with sch := { s.sch with closeWaited := n } }) ∧
        (s.par.closeMaxWaitMs ≤ n → ∀ r, s.ses.req = some r →
          exec .cpt s = .next (closeFinished { s with
            ses := resetSession
            out := s.out ++
              (if r.dir = .write then [.writeDone r.var.name false] else []) }))))
end

