-- ==== Sys2Proof/Laws/State.lean ====
section
/-! SUPPORT. One lemma per field per update of the state: what each named update of `Machine/Flags.lean`,
`Machine/Ops.lean` and `Machine/Step.lean` leaves in every field. -/

namespace Sys2Proof.Machine

@[simp] theorem emit_cfg (o : Output) (s : State) : (emit o s).cfg = s.cfg := rfl
@[simp] theorem emit_ses (o : Output) (s : State) : (emit o s).ses = s.ses := rfl
@[simp] theorem emit_sch (o : Output) (s : State) : (emit o s).sch = s.sch := rfl
@[simp] theorem emit_raised (o : Output) (s : State) : (emit o s).raised = s.raised := rfl
@[simp] theorem emit_par (o : Output) (s : State) : (emit o s).par = s.par := rfl
@[simp] theorem emit_inbox (o : Output) (s : State) : (emit o s).inbox = s.inbox := rfl
@[simp] theorem emit_out (o : Output) (s : State) : (emit o s).out = s.out ++ [o] := rfl
@[simp] theorem emit_reply (o : Output) (s : State) : (emit o s).reply = s.reply := rfl

@[simp] theorem emitAll_cfg (os : List Output) (s : State) : (emitAll os s).cfg = s.cfg := rfl
@[simp] theorem emitAll_ses (os : List Output) (s : State) : (emitAll os s).ses = s.ses := rfl
@[simp] theorem emitAll_sch (os : List Output) (s : State) : (emitAll os s).sch = s.sch := rfl
@[simp] theorem emitAll_raised (os : List Output) (s : State) :
    (emitAll os s).raised = s.raised := rfl
@[simp] theorem emitAll_par (os : List Output) (s : State) : (emitAll os s).par = s.par := rfl
@[simp] theorem emitAll_inbox (os : List Output) (s : State) : (emitAll os s).inbox = s.inbox := rfl
@[simp] theorem emitAll_out (os : List Output) (s : State) : (emitAll os s).out = s.out ++ os := rfl
@[simp] theorem emitAll_reply (os : List Output) (s : State) : (emitAll os s).reply = s.reply := rfl

@[simp] theorem send_cfg (f : Bytes) (s : State) : (send f s).cfg = s.cfg := rfl
@[simp] theorem send_state (f : Bytes) (s : State) : (send f s).ses.state = s.ses.state := rfl
@[simp] theorem send_blocksRequired (f : Bytes) (s : State) :
    (send f s).ses.blocksRequired = s.ses.blocksRequired := rfl
@[simp] theorem send_blocksDone (f : Bytes) (s : State) :
    (send f s).ses.blocksDone = s.ses.blocksDone := rfl
@[simp] theorem send_lastBlockSize (f : Bytes) (s : State) :
    (send f s).ses.lastBlockSize = s.ses.lastBlockSize := rfl
@[simp] theorem send_expectedByteCount (f : Bytes) (s : State) :
    (send f s).ses.expectedByteCount = s.ses.expectedByteCount := rfl
@[simp] theorem send_acc (f : Bytes) (s : State) : (send f s).ses.acc = s.ses.acc := rfl
@[simp] theorem send_rx (f : Bytes) (s : State) : (send f s).ses.rx = s.ses.rx := rfl
@[simp] theorem send_timer (f : Bytes) (s : State) : (send f s).ses.timer = s.ses.timer := rfl
@[simp] theorem send_armOnTxc (f : Bytes) (s : State) :
    (send f s).ses.armOnTxc = s.ses.armOnTxc := rfl
@[simp] theorem send_txOutstanding (f : Bytes) (s : State) :
    (send f s).ses.txOutstanding = s.ses.txOutstanding + 1 := rfl
@[simp] theorem send_req (f : Bytes) (s : State) : (send f s).ses.req = s.ses.req := rfl
@[simp] theorem send_sch (f : Bytes) (s : State) : (send f s).sch = s.sch := rfl
@[simp] theorem send_raised (f : Bytes) (s : State) : (send f s).raised = s.raised := rfl
@[simp] theorem send_par (f : Bytes) (s : State) : (send f s).par = s.par := rfl
@[simp] theorem send_inbox (f : Bytes) (s : State) : (send f s).inbox = s.inbox := rfl
@[simp] theorem send_out (f : Bytes) (s : State) : (send f s).out = s.out ++ [.tx f] := rfl
@[simp] theorem send_reply (f : Bytes) (s : State) : (send f s).reply = s.reply := rfl

@[simp] theorem enter_cfg (st : SState) (k : TimerId) (s : State) :
    (enter st k s).cfg = s.cfg := rfl
@[simp] theorem enter_state (st : SState) (k : TimerId) (s : State) :
    (enter st k s).ses.state = st := rfl
@[simp] theorem enter_blocksRequired (st : SState) (k : TimerId) (s : State) :
    (enter st k s).ses.blocksRequired = s.ses.blocksRequired := rfl
@[simp] theorem enter_blocksDone (st : SState) (k : TimerId) (s : State) :
    (enter st k s).ses.blocksDone = s.ses.blocksDone := rfl
@[simp] theorem enter_lastBlockSize (st : SState) (k : TimerId) (s : State) :
    (enter st k s).ses.lastBlockSize = s.ses.lastBlockSize := rfl
@[simp] theorem enter_expectedByteCount (st : SState) (k : TimerId) (s : State) :
    (enter st k s).ses.expectedByteCount = s.ses.expectedByteCount := rfl
@[simp] theorem enter_acc (st : SState) (k : TimerId) (s : State) :
    (enter st k s).ses.acc = s.ses.acc := rfl
@[simp] theorem enter_rx (st : SState) (k : TimerId) (s : State) : (enter st k s).ses.rx = [] := rfl
@[simp] theorem enter_timer (st : SState) (k : TimerId) (s : State) :
    (enter st k s).ses.timer = .disarmed := rfl
@[simp] theorem enter_armOnTxc (st : SState) (k : TimerId) (s : State) :
    (enter st k s).ses.armOnTxc = some k := rfl
@[simp] theorem enter_txOutstanding (st : SState) (k : TimerId) (s : State) :
    (enter st k s).ses.txOutstanding = s.ses.txOutstanding := rfl
@[simp] theorem enter_req (st : SState) (k : TimerId) (s : State) :
    (enter st k s).ses.req = s.ses.req := rfl
@[simp] theorem enter_sch (st : SState) (k : TimerId) (s : State) :
    (enter st k s).sch = s.sch := rfl
@[simp] theorem enter_raised (st : SState) (k : TimerId) (s : State) :
    (enter st k s).raised = s.raised := rfl
@[simp] theorem enter_par (st : SState) (k : TimerId) (s : State) :
    (enter st k s).par = s.par := rfl
@[simp] theorem enter_inbox (st : SState) (k : TimerId) (s : State) :
    (enter st k s).inbox = s.inbox := rfl
@[simp] theorem enter_out (st : SState) (k : TimerId) (s : State) :
    (enter st k s).out = s.out := rfl
@[simp] theorem enter_reply (st : SState) (k : TimerId) (s : State) :
    (enter st k s).reply = s.reply := rfl

@[simp] theorem clearSession_cfg (s : State) : (clearSession s).cfg = s.cfg := rfl
@[simp] theorem clearSession_state (s : State) : (clearSession s).ses.state = .idle := rfl
@[simp] theorem clearSession_blocksRequired (s : State) :
    (clearSession s).ses.blocksRequired = 0 := rfl
@[simp] theorem clearSession_blocksDone (s : State) : (clearSession s).ses.blocksDone = 0 := rfl
@[simp] theorem clearSession_lastBlockSize (s : State) :
    (clearSession s).ses.lastBlockSize = 0 := rfl
@[simp] theorem clearSession_expectedByteCount (s : State) :
    (clearSession s).ses.expectedByteCount = 0 := rfl
@[simp] theorem clearSession_acc (s : State) : (clearSession s).ses.acc = [] := rfl
@[simp] theorem clearSession_rx (s : State) : (clearSession s).ses.rx = [] := rfl
@[simp] theorem clearSession_timer (s : State) : (clearSession s).ses.timer = .disarmed := rfl
@[simp] theorem clearSession_armOnTxc (s : State) : (clearSession s).ses.armOnTxc = none := rfl
@[simp] theorem clearSession_txOutstanding (s : State) :
    (clearSession s).ses.txOutstanding = s.ses.txOutstanding := rfl
@[simp] theorem clearSession_req (s : State) : (clearSession s).ses.req = none := rfl
@[simp] theorem clearSession_sch (s : State) : (clearSession s).sch = s.sch := rfl
@[simp] theorem clearSession_raised (s : State) : (clearSession s).raised = s.raised := rfl
@[simp] theorem clearSession_par (s : State) : (clearSession s).par = s.par := rfl
@[simp] theorem clearSession_inbox (s : State) : (clearSession s).inbox = s.inbox := rfl
@[simp] theorem clearSession_out (s : State) : (clearSession s).out = s.out := rfl
@[simp] theorem clearSession_reply (s : State) : (clearSession s).reply = s.reply := rfl

@[simp] theorem raiseAlert_cfg (k : AlertKey) (n : VarName) (s : State) :
    (raiseAlert k n s).cfg = s.cfg := rfl
@[simp] theorem raiseAlert_ses (k : AlertKey) (n : VarName) (s : State) :
    (raiseAlert k n s).ses = s.ses := rfl
@[simp] theorem raiseAlert_sch (k : AlertKey) (n : VarName) (s : State) :
    (raiseAlert k n s).sch = s.sch := rfl
@[simp] theorem raiseAlert_raised (k : AlertKey) (n : VarName) (s : State) :
    (raiseAlert k n s).raised = setRaised s.raised k := rfl
@[simp] theorem raiseAlert_par (k : AlertKey) (n : VarName) (s : State) :
    (raiseAlert k n s).par = s.par := rfl
@[simp] theorem raiseAlert_inbox (k : AlertKey) (n : VarName) (s : State) :
    (raiseAlert k n s).inbox = s.inbox := rfl
@[simp] theorem raiseAlert_out (k : AlertKey) (n : VarName) (s : State) :
    (raiseAlert k n s).out = s.out ++ [.alertRaise k n] := rfl
@[simp] theorem raiseAlert_reply (k : AlertKey) (n : VarName) (s : State) :
    (raiseAlert k n s).reply = s.reply := rfl

@[simp] theorem latchInvalid_cfg (v : VarDescr) (s : State) : (latchInvalid v s).cfg = s.cfg := rfl
@[simp] theorem latchInvalid_ses (v : VarDescr) (s : State) : (latchInvalid v s).ses = s.ses := rfl
@[simp] theorem latchInvalid_cycle (v : VarDescr) (s : State) :
    (latchInvalid v s).sch.cycle = s.sch.cycle := rfl
@[simp] theorem latchInvalid_pendingWrite (v : VarDescr) (s : State) :
    (latchInvalid v s).sch.pendingWrite = s.sch.pendingWrite := rfl
@[simp] theorem latchInvalid_readPending (v : VarDescr) (s : State) :
    (latchInvalid v s).sch.readPending = s.sch.readPending := rfl
@[simp] theorem latchInvalid_link (v : VarDescr) (s : State) :
    (latchInvalid v s).sch.link = s.sch.link := rfl
@[simp] theorem latchInvalid_debounce (v : VarDescr) (s : State) :
    (latchInvalid v s).sch.debounce = s.sch.debounce := rfl
@[simp] theorem latchInvalid_invalidLatched (v : VarDescr) (s : State) :
    (latchInvalid v s).sch.invalidLatched = s.sch.invalidLatched ++ [v.name] := rfl
@[simp] theorem latchInvalid_run (v : VarDescr) (s : State) :
    (latchInvalid v s).sch.run = s.sch.run := rfl
@[simp] theorem latchInvalid_closeWaited (v : VarDescr) (s : State) :
    (latchInvalid v s).sch.closeWaited = s.sch.closeWaited := rfl
@[simp] theorem latchInvalid_raised (v : VarDescr) (s : State) :
    (latchInvalid v s).raised = setRaised s.raised (invalidKey v.memoryType) := rfl
@[simp] theorem latchInvalid_par (v : VarDescr) (s : State) : (latchInvalid v s).par = s.par := rfl
@[simp] theorem latchInvalid_inbox (v : VarDescr) (s : State) :
    (latchInvalid v s).inbox = s.inbox := rfl
@[simp] theorem latchInvalid_out (v : VarDescr) (s : State) :
    (latchInvalid v s).out = s.out ++ [.alertRaise (invalidKey v.memoryType) v.name] := rfl
@[simp] theorem latchInvalid_reply (v : VarDescr) (s : State) :
    (latchInvalid v s).reply = s.reply := rfl

@[simp] theorem advanceCursor_cfg (s : State) : (advanceCursor s).cfg = s.cfg := rfl
@[simp] theorem advanceCursor_ses (s : State) : (advanceCursor s).ses = s.ses := rfl
@[simp] theorem advanceCursor_cycle (s : State) :
    (advanceCursor s).sch.cycle = s.sch.cycle.map fun c => { c with cursor := c.cursor + 1 } := rfl
@[simp] theorem advanceCursor_pendingWrite (s : State) :
    (advanceCursor s).sch.pendingWrite = s.sch.pendingWrite := rfl
@[simp] theorem advanceCursor_readPending (s : State) :
    (advanceCursor s).sch.readPending = s.sch.readPending := rfl
@[simp] theorem advanceCursor_link (s : State) : (advanceCursor s).sch.link = s.sch.link := rfl
@[simp] theorem advanceCursor_debounce (s : State) :
    (advanceCursor s).sch.debounce = s.sch.debounce := rfl
@[simp] theorem advanceCursor_invalidLatched (s : State) :
    (advanceCursor s).sch.invalidLatched = s.sch.invalidLatched := rfl
@[simp] theorem advanceCursor_run (s : State) : (advanceCursor s).sch.run = s.sch.run := rfl
@[simp] theorem advanceCursor_closeWaited (s : State) :
    (advanceCursor s).sch.closeWaited = s.sch.closeWaited := rfl
@[simp] theorem advanceCursor_raised (s : State) : (advanceCursor s).raised = s.raised := rfl
@[simp] theorem advanceCursor_par (s : State) : (advanceCursor s).par = s.par := rfl
@[simp] theorem advanceCursor_inbox (s : State) : (advanceCursor s).inbox = s.inbox := rfl
@[simp] theorem advanceCursor_out (s : State) : (advanceCursor s).out = s.out := rfl
@[simp] theorem advanceCursor_reply (s : State) : (advanceCursor s).reply = s.reply := rfl

@[simp] theorem take_cfg (s : State) (rest : List Input) : (s.take rest).cfg = s.cfg := rfl
@[simp] theorem take_ses (s : State) (rest : List Input) : (s.take rest).ses = s.ses := rfl
@[simp] theorem take_sch (s : State) (rest : List Input) : (s.take rest).sch = s.sch := rfl
@[simp] theorem take_raised (s : State) (rest : List Input) : (s.take rest).raised = s.raised := rfl
@[simp] theorem take_par (s : State) (rest : List Input) : (s.take rest).par = s.par := rfl
@[simp] theorem take_inbox (s : State) (rest : List Input) : (s.take rest).inbox = rest := rfl
@[simp] theorem take_out (s : State) (rest : List Input) : (s.take rest).out = s.out := rfl
@[simp] theorem take_reply (s : State) (rest : List Input) : (s.take rest).reply = .none := rfl

@[simp] theorem withFetchWord_cfg (s : State) (n w : Nat) : (s.withFetchWord n w).cfg = s.cfg := rfl
@[simp] theorem withFetchWord_ses (s : State) (n w : Nat) : (s.withFetchWord n w).ses = s.ses := rfl
@[simp] theorem withFetchWord_sch (s : State) (n w : Nat) : (s.withFetchWord n w).sch = s.sch := rfl
@[simp] theorem withFetchWord_raised (s : State) (n w : Nat) :
    (s.withFetchWord n w).raised = s.raised := rfl
@[simp] theorem withFetchWord_par (s : State) (n w : Nat) : (s.withFetchWord n w).par = s.par := rfl
@[simp] theorem withFetchWord_inbox (s : State) (n w : Nat) :
    (s.withFetchWord n w).inbox = tableInput n w :: s.inbox := rfl
@[simp] theorem withFetchWord_out (s : State) (n w : Nat) : (s.withFetchWord n w).out = s.out := rfl
@[simp] theorem withFetchWord_reply (s : State) (n w : Nat) :
    (s.withFetchWord n w).reply = s.reply := rfl

@[simp] theorem clearAlert_cfg (k : AlertKey) (s : State) : (clearAlert k s).cfg = s.cfg := by unfold clearAlert; split <;> rfl
@[simp] theorem clearAlert_ses (k : AlertKey) (s : State) : (clearAlert k s).ses = s.ses := by unfold clearAlert; split <;> rfl
@[simp] theorem clearAlert_sch (k : AlertKey) (s : State) : (clearAlert k s).sch = s.sch := by unfold clearAlert; split <;> rfl
@[simp] theorem clearAlert_par (k : AlertKey) (s : State) : (clearAlert k s).par = s.par := by unfold clearAlert; split <;> rfl
@[simp] theorem clearAlert_inbox (k : AlertKey) (s : State) :
    (clearAlert k s).inbox = s.inbox := by unfold clearAlert; split <;> rfl
@[simp] theorem clearAlert_reply (k : AlertKey) (s : State) :
    (clearAlert k s).reply = s.reply := by unfold clearAlert; split <;> rfl
@[simp] theorem clearAlerts_cfg (ks : List AlertKey) (s : State) : (clearAlerts ks s).cfg = s.cfg := by
  induction ks generalizing s with
  | nil => rfl
  | cons k ks ih => simp [clearAlerts, ih]
@[simp] theorem clearAlerts_ses (ks : List AlertKey) (s : State) : (clearAlerts ks s).ses = s.ses := by
  induction ks generalizing s with
  | nil => rfl
  | cons k ks ih => simp [clearAlerts, ih]
@[simp] theorem clearAlerts_sch (ks : List AlertKey) (s : State) : (clearAlerts ks s).sch = s.sch := by
  induction ks generalizing s with
  | nil => rfl
  | cons k ks ih => simp [clearAlerts, ih]
@[simp] theorem clearAlerts_par (ks : List AlertKey) (s : State) : (clearAlerts ks s).par = s.par := by
  induction ks generalizing s with
  | nil => rfl
  | cons k ks ih => simp [clearAlerts, ih]
@[simp] theorem clearAlerts_inbox (ks : List AlertKey) (s : State) : (clearAlerts ks s).inbox = s.inbox := by
  induction ks generalizing s with
  | nil => rfl
  | cons k ks ih => simp [clearAlerts, ih]
@[simp] theorem clearAlerts_reply (ks : List AlertKey) (s : State) : (clearAlerts ks s).reply = s.reply := by
  induction ks generalizing s with
  | nil => rfl
  | cons k ks ih => simp [clearAlerts, ih]

@[simp] theorem connTimeout_cfg (s : State) : (connTimeout s).cfg = s.cfg := by unfold connTimeout; split <;> rfl
@[simp] theorem connTimeout_ses (s : State) : (connTimeout s).ses = s.ses := by unfold connTimeout; split <;> rfl
@[simp] theorem connTimeout_raised (s : State) : (connTimeout s).raised = s.raised := by unfold connTimeout; split <;> rfl
@[simp] theorem connTimeout_par (s : State) : (connTimeout s).par = s.par := by unfold connTimeout; split <;> rfl
@[simp] theorem connTimeout_inbox (s : State) : (connTimeout s).inbox = s.inbox := by unfold connTimeout; split <;> rfl
@[simp] theorem connTimeout_out (s : State) : (connTimeout s).out = s.out := by unfold connTimeout; split <;> rfl
@[simp] theorem connTimeout_reply (s : State) : (connTimeout s).reply = s.reply := by unfold connTimeout; split <;> rfl
@[simp] theorem connTimeout_cycle (s : State) : (connTimeout s).sch.cycle = s.sch.cycle := by unfold connTimeout; split <;> rfl
@[simp] theorem connTimeout_pendingWrite (s : State) :
    (connTimeout s).sch.pendingWrite = s.sch.pendingWrite := by unfold connTimeout; split <;> rfl
@[simp] theorem connTimeout_readPending (s : State) :
    (connTimeout s).sch.readPending = s.sch.readPending := by unfold connTimeout; split <;> rfl
@[simp] theorem connTimeout_link (s : State) : (connTimeout s).sch.link = s.sch.link := by unfold connTimeout; split <;> rfl
@[simp] theorem connTimeout_invalidLatched (s : State) :
    (connTimeout s).sch.invalidLatched = s.sch.invalidLatched := by unfold connTimeout; split <;> rfl
@[simp] theorem connTimeout_run (s : State) : (connTimeout s).sch.run = s.sch.run := by unfold connTimeout; split <;> rfl
@[simp] theorem connTimeout_closeWaited (s : State) :
    (connTimeout s).sch.closeWaited = s.sch.closeWaited := by unfold connTimeout; split <;> rfl
@[simp] theorem connFailure_cfg (b : Bool) (s : State) : (connFailure b s).cfg = s.cfg := by unfold connFailure; split <;> simp
@[simp] theorem connFailure_ses (b : Bool) (s : State) : (connFailure b s).ses = s.ses := by unfold connFailure; split <;> simp
@[simp] theorem connFailure_raised (b : Bool) (s : State) :
    (connFailure b s).raised = s.raised := by unfold connFailure; split <;> simp
@[simp] theorem connFailure_par (b : Bool) (s : State) : (connFailure b s).par = s.par := by unfold connFailure; split <;> simp
@[simp] theorem connFailure_inbox (b : Bool) (s : State) : (connFailure b s).inbox = s.inbox := by unfold connFailure; split <;> simp
@[simp] theorem connFailure_out (b : Bool) (s : State) : (connFailure b s).out = s.out := by unfold connFailure; split <;> simp
@[simp] theorem connFailure_reply (b : Bool) (s : State) : (connFailure b s).reply = s.reply := by unfold connFailure; split <;> simp
@[simp] theorem connFailure_cycle (b : Bool) (s : State) :
    (connFailure b s).sch.cycle = s.sch.cycle := by unfold connFailure; split <;> simp
@[simp] theorem connFailure_pendingWrite (b : Bool) (s : State) :
    (connFailure b s).sch.pendingWrite = s.sch.pendingWrite := by unfold connFailure; split <;> simp
@[simp] theorem connFailure_readPending (b : Bool) (s : State) :
    (connFailure b s).sch.readPending = s.sch.readPending := by unfold connFailure; split <;> simp
@[simp] theorem connFailure_link (b : Bool) (s : State) :
    (connFailure b s).sch.link = s.sch.link := by unfold connFailure; split <;> simp
@[simp] theorem connFailure_invalidLatched (b : Bool) (s : State) :
    (connFailure b s).sch.invalidLatched = s.sch.invalidLatched := by unfold connFailure; split <;> simp
@[simp] theorem connFailure_run (b : Bool) (s : State) :
    (connFailure b s).sch.run = s.sch.run := by unfold connFailure; split <;> simp
@[simp] theorem connFailure_closeWaited (b : Bool) (s : State) :
    (connFailure b s).sch.closeWaited = s.sch.closeWaited := by unfold connFailure; split <;> simp
@[simp] theorem connSuccess_cfg (s : State) : (connSuccess s).cfg = s.cfg := by unfold connSuccess; dsimp only; split <;> rfl
@[simp] theorem connSuccess_ses (s : State) : (connSuccess s).ses = s.ses := by unfold connSuccess; dsimp only; split <;> rfl
@[simp] theorem connSuccess_raised (s : State) : (connSuccess s).raised = s.raised := by unfold connSuccess; dsimp only; split <;> rfl
@[simp] theorem connSuccess_par (s : State) : (connSuccess s).par = s.par := by unfold connSuccess; dsimp only; split <;> rfl
@[simp] theorem connSuccess_inbox (s : State) : (connSuccess s).inbox = s.inbox := by unfold connSuccess; dsimp only; split <;> rfl
@[simp] theorem connSuccess_reply (s : State) : (connSuccess s).reply = s.reply := by unfold connSuccess; dsimp only; split <;> rfl
@[simp] theorem connSuccess_cycle (s : State) : (connSuccess s).sch.cycle = s.sch.cycle := by unfold connSuccess; dsimp only; split <;> rfl
@[simp] theorem connSuccess_pendingWrite (s : State) :
    (connSuccess s).sch.pendingWrite = s.sch.pendingWrite := by unfold connSuccess; dsimp only; split <;> rfl
@[simp] theorem connSuccess_readPending (s : State) :
    (connSuccess s).sch.readPending = s.sch.readPending := by unfold connSuccess; dsimp only; split <;> rfl
@[simp] theorem connSuccess_link (s : State) : (connSuccess s).sch.link = .reportedTrue := by
  unfold connSuccess; dsimp only; split
  · rfl
  · rename_i h; exact not_not.mp h
@[simp] theorem connSuccess_debounce (s : State) : (connSuccess s).sch.debounce = .disarmed := by unfold connSuccess; dsimp only; split <;> rfl
@[simp] theorem connSuccess_invalidLatched (s : State) :
    (connSuccess s).sch.invalidLatched = s.sch.invalidLatched := by unfold connSuccess; dsimp only; split <;> rfl
@[simp] theorem connSuccess_run (s : State) : (connSuccess s).sch.run = s.sch.run := by unfold connSuccess; dsimp only; split <;> rfl
@[simp] theorem connSuccess_closeWaited (s : State) :
    (connSuccess s).sch.closeWaited = s.sch.closeWaited := by unfold connSuccess; dsimp only; split <;> rfl

@[simp] theorem finishClose_cfg (s : State) : (finishClose s).cfg = s.cfg := by unfold finishClose; cases s.sch.pendingWrite <;> rfl
@[simp] theorem finishClose_raised (s : State) : (finishClose s).raised = s.raised := by unfold finishClose; cases s.sch.pendingWrite <;> rfl
@[simp] theorem finishClose_par (s : State) : (finishClose s).par = s.par := by unfold finishClose; cases s.sch.pendingWrite <;> rfl
@[simp] theorem finishClose_inbox (s : State) : (finishClose s).inbox = s.inbox := by unfold finishClose; cases s.sch.pendingWrite <;> rfl
@[simp] theorem finishClose_reply (s : State) : (finishClose s).reply = s.reply := by unfold finishClose; cases s.sch.pendingWrite <;> rfl
@[simp] theorem finishClose_state (s : State) : (finishClose s).ses.state = s.ses.state := by unfold finishClose; cases s.sch.pendingWrite <;> rfl
@[simp] theorem finishClose_blocksRequired (s : State) :
    (finishClose s).ses.blocksRequired = s.ses.blocksRequired := by unfold finishClose; cases s.sch.pendingWrite <;> rfl
@[simp] theorem finishClose_blocksDone (s : State) :
    (finishClose s).ses.blocksDone = s.ses.blocksDone := by unfold finishClose; cases s.sch.pendingWrite <;> rfl
@[simp] theorem finishClose_lastBlockSize (s : State) :
    (finishClose s).ses.lastBlockSize = s.ses.lastBlockSize := by unfold finishClose; cases s.sch.pendingWrite <;> rfl
@[simp] theorem finishClose_expectedByteCount (s : State) :
    (finishClose s).ses.expectedByteCount = s.ses.expectedByteCount := by unfold finishClose; cases s.sch.pendingWrite <;> rfl
@[simp] theorem finishClose_acc (s : State) : (finishClose s).ses.acc = s.ses.acc := by unfold finishClose; cases s.sch.pendingWrite <;> rfl
@[simp] theorem finishClose_rx (s : State) : (finishClose s).ses.rx = s.ses.rx := by unfold finishClose; cases s.sch.pendingWrite <;> rfl
@[simp] theorem finishClose_timer (s : State) : (finishClose s).ses.timer = s.ses.timer := by unfold finishClose; cases s.sch.pendingWrite <;> rfl
@[simp] theorem finishClose_armOnTxc (s : State) : (finishClose s).ses.armOnTxc = none := by unfold finishClose; cases s.sch.pendingWrite <;> rfl
@[simp] theorem finishClose_txOutstanding (s : State) : (finishClose s).ses.txOutstanding = 0 := by unfold finishClose; cases s.sch.pendingWrite <;> rfl
@[simp] theorem finishClose_req (s : State) : (finishClose s).ses.req = s.ses.req := by unfold finishClose; cases s.sch.pendingWrite <;> rfl
@[simp] theorem finishClose_cycle (s : State) : (finishClose s).sch.cycle = none := by unfold finishClose; cases s.sch.pendingWrite <;> rfl
@[simp] theorem finishClose_pendingWrite (s : State) :
    (finishClose s).sch.pendingWrite = none := by unfold finishClose; cases s.sch.pendingWrite <;> rfl
@[simp] theorem finishClose_readPending (s : State) : (finishClose s).sch.readPending = false := by unfold finishClose; cases s.sch.pendingWrite <;> rfl
@[simp] theorem finishClose_link (s : State) : (finishClose s).sch.link = s.sch.link := by unfold finishClose; cases s.sch.pendingWrite <;> rfl
@[simp] theorem finishClose_debounce (s : State) : (finishClose s).sch.debounce = .disarmed := by unfold finishClose; cases s.sch.pendingWrite <;> rfl
@[simp] theorem finishClose_invalidLatched (s : State) :
    (finishClose s).sch.invalidLatched = s.sch.invalidLatched := by unfold finishClose; cases s.sch.pendingWrite <;> rfl
@[simp] theorem finishClose_run (s : State) : (finishClose s).sch.run = .closed := by unfold finishClose; cases s.sch.pendingWrite <;> rfl
@[simp] theorem finishClose_closeWaited (s : State) : (finishClose s).sch.closeWaited = 0 := by unfold finishClose; cases s.sch.pendingWrite <;> rfl

end Sys2Proof.Machine
end

