-- ==== Sys2Proof/Laws/Ops.lean ====
section
/-! SUPPORT. What each shared operation of `Machine/Ops.lean` can do, said once: a caller cites these and
never unfolds the operation. -/

namespace Sys2Proof.Machine

/-! ## Outcomes -/

@[simp] theorem toOutcome_ok (s : State) : toOutcome (.ok s) = .next s := rfl
@[simp] theorem toOutcome_fault (f : Fault) : toOutcome (.error (.fault f)) = .fault f := rfl
@[simp] theorem toOutcome_refused (r : Refusal) : toOutcome (.error (.refused r)) = .refused r := rfl
@[simp] theorem unit_ok {α : Type} (a : α) : unit (.ok a : Except Reason α) = .ok a := rfl
@[simp] theorem unit_error {α : Type} (r : Reason) :
    unit (.error r : Except Reason α) = .error (refuse r) := rfl
@[simp] theorem answer_ok (r : Reply) (s : State) : answer (.ok r) s = .next { s with reply := r } := rfl
@[simp] theorem answer_error (r : Reason) (s : State) :
    answer (.error r) s = .refused (.refuse r) := rfl
@[simp] theorem toOutcome_refuse (r : Reason) :
    toOutcome (.error (refuse r)) = .refused (.refuse r) := rfl

theorem toOutcome_next {e : Except Stop State} {t : State} : toOutcome e = .next t ↔ e = .ok t := by
  rcases e with (f | r) | s <;> simp [toOutcome]

theorem answer_next {e : Except Reason Reply} {s t : State} :
    answer e s = .next t ↔ ∃ r, e = .ok r ∧ t = { s with reply := r } := by
  rcases e with r | r <;> simp [answer, eq_comm]

/-- `do let a ← x; f a` answers only what some answer of `x` leads to. -/
theorem bind_ok {ε α β : Type} {x : Except ε α} {f : α → Except ε β} {b : β} :
    (x >>= f) = .ok b ↔ ∃ a, x = .ok a ∧ f a = .ok b := by
  rcases x with e | a
  · simp [bind, Except.bind]
  · simp [bind, Except.bind]

theorem unit_eq_ok {α : Type} {e : Except Reason α} {a : α} : unit e = .ok a ↔ e = .ok a := by
  rcases e with r | b <;> simp [unit]

/-! ## Session start -/

theorem bldEnq_ok {st : Byte} (h : st ≤ Config.stationMax) : bldEnq st = .ok (enquiryOf st) := by
  simp [bldEnq, h, enquiryOf, Code.enqLead, Code.stationOffset, Code.enq]

/-- A session starts in `Idle`, for a request of 1 to `ACC_MAX` bytes, at a legal station (R290, R310). -/
theorem openSession_ok {st : SState} {dir : Dir} {var : VarDescr} {xa : XAddr} {wire : Bytes} {s : State}
    (hi : s.ses.state = .idle)
    (hn : 1 ≤ (blkmath xa.bpe var.elementCount s.cfg.mode).numBytes)
    (hm : (blkmath xa.bpe var.elementCount s.cfg.mode).numBytes ≤ s.par.accMax)
    (hs : s.cfg.station ≤ Config.stationMax) :
    openSession st dir var xa wire s = .ok (sessionOpened st dir var xa wire s) := by
  unfold openSession
  rw [if_neg (by simpa using hi), if_neg (by omega), bldEnq_ok hs]
  rfl

/-- A session start that answers is the one above; nothing else answers. -/
theorem openSession_cases {st : SState} {dir : Dir} {var : VarDescr} {xa : XAddr} {wire : Bytes}
    {s t : State} (h : openSession st dir var xa wire s = .ok t) :
    s.ses.state = .idle ∧ 1 ≤ (blkmath xa.bpe var.elementCount s.cfg.mode).numBytes ∧
      (blkmath xa.bpe var.elementCount s.cfg.mode).numBytes ≤ s.par.accMax ∧
      s.cfg.station ≤ Config.stationMax ∧ t = sessionOpened st dir var xa wire s := by
  by_cases hi : s.ses.state = .idle
  · by_cases hn : 1 ≤ (blkmath xa.bpe var.elementCount s.cfg.mode).numBytes ∧
        (blkmath xa.bpe var.elementCount s.cfg.mode).numBytes ≤ s.par.accMax
    · by_cases hs : s.cfg.station ≤ Config.stationMax
      · rw [openSession_ok hi hn.1 hn.2 hs] at h
        exact ⟨hi, hn.1, hn.2, hs, (Except.ok.inj h).symm⟩
      · unfold openSession at h
        rw [if_neg (by simpa using hi), if_neg (by omega), bldEnq, if_neg hs] at h
        cases h
    · unfold openSession at h
      rw [if_neg (by simpa using hi), if_pos (by omega)] at h
      cases h
  · unfold openSession at h
    rw [if_pos hi] at h
    cases h

end Sys2Proof.Machine
end

