-- ==== Sys2Proof/Laws/Codec.lean ====
section
/-! SUPPORT. The sizes of requests and the lengths and totality of the codec, the builder and the parser: what they
answer on, and how long what they answer is (R162 to R181, R202 to R208, R230 to R237, R263). -/

namespace Sys2Proof.Machine

/-- R263: the sizes of a request of at least one byte. -/
theorem blkmath_sizes {bpe : Width} {count : Nat} {mode : Mode} {n b l : Nat}
    (h : blkmath bpe count mode = ⟨n, b, l⟩) (hn : 1 ≤ n) :
    1 ≤ b ∧ 1 ≤ l ∧ l ≤ 256 ∧ 256 * (b - 1) + l = n := by
  simp only [blkmath, Sizes.mk.injEq] at h
  obtain ⟨h1, h2, h3⟩ := h
  rw [h1] at h2 h3
  subst h2 h3
  unfold blockCounts Config.blockSize
  split
  · simp only; omega
  · simp only; omega

theorem sizes_of {bpe : Width} {count : Nat} {mode : Mode} :
    ∀ z, blkmath bpe count mode = z → 1 ≤ z.numBytes → z.numBytes ≤ 65535 →
      1 ≤ z.blocksRequired ∧ z.blocksRequired ≤ 256 ∧ 1 ≤ z.lastBlockSize ∧ z.lastBlockSize ≤ 256 ∧
      256 * (z.blocksRequired - 1) + z.lastBlockSize = z.numBytes := by
  rintro ⟨n, b, l⟩ h hn hm
  have := blkmath_sizes h hn
  dsimp only at *
  omega



/-! ## Lengths -/
theorem le_length (n : Nat) (w : Width) : (le n w).length = w.bytes := by cases w <;> rfl
theorem encByte_length (p : Config.Params) (n : Int) (w : Width) : (encByte p n w).length = w.bytes := by
  cases w <;> rfl
theorem encFormat_length {p : Config.Params} {f : Format} {v : Value} {w : Width} {b : Bytes}
    (h : encFormat p f v w = .ok b) : b.length = w.bytes := by
  cases f <;> simp only [encFormat, encChar, encBool, encInt8, encUint8, encInt16, encUint16, encUint32, encUint64] at h
  all_goals try cases h
  all_goals split at h
  all_goals try cases h
  all_goals try split at h
  all_goals try cases h
  all_goals first | rfl | exact le_length _ _ | exact encByte_length _ _ _

theorem encElems_length {p : Config.Params} {f : Format} {w : Width} {vs : List Scalar} {b : Bytes}
    (h : encElems p f w vs = .ok b) : b.length = w.bytes * vs.length := by
  induction vs generalizing b with
  | nil => cases h; rfl
  | cons v vs ih =>
    simp only [encElems, bind_ok] at h
    obtain ⟨x, hx, y, hy, h⟩ := h
    cases h
    simp [encFormat_length hx, ih hy, Nat.mul_add, Nat.add_comm]

theorem enca_length {p : Config.Params} {f : Format} {v : Value} {w : Width} {arr : Bool} {n : Nat}
    {b : Bytes} (h : enca p f v w arr n = .ok b) : b.length = w.bytes * (if arr then n else 1) := by
  unfold enca at h
  split at h
  · split at h
    · split at h
      · rename_i vs hl
        rw [encElems_length h, hl, if_pos (by assumption)]
      · cases h
    · cases h
  · rw [encFormat_length h, if_neg (by assumption), Nat.mul_one]

theorem payeAscii_length (b : Bytes) : (payeAscii b).length = 2 * b.length := by
  induction b with
  | nil => rfl
  | cons x xs ih => simp [payeAscii, ih, hexe, hexDigits]; omega

theorem paye_length (b : Bytes) (m : Mode) : (paye b m).length =
    match m with | .hex => b.length | .ascii => 2 * b.length := by
  cases m
  · exact payeAscii_length b
  · rfl

theorem paye_numBytes {b : Bytes} {w : Width} {n : Nat} (h : b.length = w.bytes * n) (m : Mode) :
    (paye b m).length = (blkmath w n m).numBytes := by
  rw [paye_length]; cases m <;> simp [blkmath, h]


theorem hexf_ok {v d : Nat} (h : v < 16 ^ d) : hexf v d = .ok (hexDigits v d) := by simp [hexf, h]

theorem hexDigits_length (v d : Nat) : (hexDigits v d).length = d := by
  induction d with
  | zero => rfl
  | succ d ih => simp [hexDigits, ih]

/-- The header builder answers on every legal request (R204). -/
theorem bldHdr_ok {p : Config.Params} {st : Byte} {dir : Dir} {mt : MemoryType} {ref : BitVec 16}
    {n : Nat} {m : Mode} (hn : n ≤ 65535)
    (hc : p.hdrCountRule = .requiredAndLast → (blockCounts n).1 ≤ 255) :
    ∃ h, bldHdr p st dir mt ref n m = .ok h := by
  have h1 : st.toNat < 16 ^ 2 := st.isLt
  have h2 : ref.toNat < 16 ^ 4 := ref.isLt
  have h3 : (countFields p n).1 < 16 ^ 2 ∧ (countFields p n).2 < 16 ^ 2 := by
    unfold countFields
    cases e : p.hdrCountRule with
    | fullAndRemainder => simp only; omega
    | requiredAndLast => have := hc e; simp only; omega
  unfold bldHdr headerBody
  simp only [hexf_ok h1, hexf_ok h2, hexf_ok h3.1, hexf_ok h3.2]
  simp only [bind, Except.bind, pure, Except.pure, chkHdr, chk]
  rw [if_pos (by simp [hexDigits_length])]
  exact ⟨_, rfl⟩

theorem prsEnqAck_ok {rx : Bytes} (h : 3 ≤ rx.length) : ∃ v, prsEnqAck rx = .ok v := by
  unfold prsEnqAck; rw [if_neg (by omega)]; split <;> exact ⟨_, rfl⟩
theorem prsAck_ok {rx : Bytes} (h : 1 ≤ rx.length) : ∃ v, prsAck rx = .ok v := by
  unfold prsAck; rw [if_neg (by omega)]; split <;> exact ⟨_, rfl⟩
theorem prsEot_ok {rx : Bytes} (h : 1 ≤ rx.length) : ∃ v, prsEot rx = .ok v := by
  unfold prsEot; rw [if_neg (by omega)]; split <;> exact ⟨_, rfl⟩

theorem slice_length {b : Bytes} {lo hi : Nat} (h : hi ≤ b.length) : (slice b lo hi).length = hi - lo := by
  simp [slice]; omega

/-- The block parser answers whenever its bytes are there, and an accepted payload has its size. -/
theorem prsDb_ok {p : Config.Params} {rx : Bytes} {a f : Bool} {size : Nat} {m : Mode}
    (h : expect a size m ≤ rx.length) :
    ∃ v, prsDb p rx a f size m = .ok v ∧ ∀ b, v = .ok b → b.length = size := by
  have hl : (if a then 1 else 0) + 1 + size + 1 ≤ rx.length := by
    have : expect a size m = (if a then 1 else 0) + 1 + size + 1 + checkLen m := rfl
    omega
  unfold prsDb
  rw [if_neg (by omega)]
  dsimp only
  generalize (if a = true then 1 else 0) = o at hl ⊢
  split
  · exact ⟨_, rfl, by simp⟩
  split
  · exact ⟨_, rfl, by simp⟩
  split
  · exact ⟨_, rfl, by simp⟩
  split
  · exact ⟨_, rfl, by simp⟩
  unfold chkDb chk
  rw [if_pos (by omega)]
  simp only [bind, Except.bind]
  split
  · refine ⟨_, rfl, ?_⟩
    intro b hb
    injection hb with hb
    subst hb
    rw [slice_length (by omega)]
    omega
  · exact ⟨_, rfl, by simp⟩



/-! ## Decoding answers on every payload that is long enough (R172 to R181) -/

theorem guardElem_ok {b : Bytes} {cur : Nat} {w : Width} {v : Scalar} (h : cur + w.bytes ≤ b.length) :
    guardElem b cur w v = .ok v := by simp [guardElem, h]

theorem decFormat_ok {f : Format} {b : Bytes} {cur : Nat} {w : Width}
    (hf : f ∈ [.char, .bool, .int8, .uint8, .int16, .uint16, .uint32, .uint64])
    (h : cur + w.bytes ≤ b.length) : ∃ v, decFormat f b cur w = .ok v := by
  cases f
  case other => simp at hf
  all_goals exact ⟨_, guardElem_ok h⟩

theorem decBit_ok {p : Config.Params} {f : Format} {b : Bytes} {cur : Nat} {w : Width} {i : Nat}
    {pos : BytePosition}
    (hf : f ∈ [.char, .bool, .int8, .uint8, .int16, .uint16, .uint32, .uint64]) (hi : i ≤ 7)
    (h : cur + w.bytes ≤ b.length) : ∃ v, decBit p f b cur w i pos = .ok v := by
  unfold decBit
  rw [if_pos h]
  have hm : ∃ m, mask[i]? = some m := by
    refine ⟨_, List.getElem?_eq_getElem (by simp [mask]; omega)⟩
  obtain ⟨m, hm⟩ := hm
  rw [hm]
  cases f
  case other => simp at hf
  all_goals exact ⟨_, rfl⟩

theorem decOne_ok {p : Config.Params} {var : VarDescr} {w : Width} {b : Bytes} {cur : Nat} {m : Mode}
    (hd : DescrAccepted p m var) (h : cur + w.bytes ≤ b.length) :
    ∃ v, decOne p var w b cur = .ok v := by
  unfold decOne
  cases e : var.bitIndex with
  | none => exact decFormat_ok hd.format h
  | some i => exact decBit_ok hd.format (hd.bit i e) h

theorem decElems_ok {p : Config.Params} {var : VarDescr} {w : Width} {b : Bytes} {m : Mode}
    (hd : DescrAccepted p m var) : ∀ (n cur : Nat), cur + w.bytes * n ≤ b.length →
      ∃ vs, decElems p var w b n cur = .ok vs
  | 0, _, _ => ⟨_, rfl⟩
  | n + 1, cur, h => by
    rw [Nat.mul_add, Nat.mul_one] at h
    obtain ⟨v, hv⟩ := decOne_ok (p := p) (w := w) (b := b) (cur := cur) hd (by omega)
    obtain ⟨vs, hvs⟩ := decElems_ok (p := p) (w := w) (b := b) hd n (cur + w.bytes) (by omega)
    exact ⟨v :: vs, by simp [decElems, hv, hvs, bind, Except.bind, pure, Except.pure]⟩

theorem deca_ok {p : Config.Params} {var : VarDescr} {w : Width} {b : Bytes} {m : Mode}
    (hd : DescrAccepted p m var) (h : w.bytes * var.elementCount ≤ b.length) :
    ∃ v, deca p var w b = .ok v := by
  unfold deca
  unfold VarDescr.elementCount at h
  by_cases ha : var.isArray = true
  · rw [if_pos ha] at h ⊢
    obtain ⟨vs, hvs⟩ := decElems_ok (p := p) (w := w) (b := b) hd var.length 0 (by omega)
    exact ⟨.array vs, by simp [hvs, bind, Except.bind, pure, Except.pure]⟩
  · rw [if_neg ha] at h ⊢
    obtain ⟨v, hv⟩ := decOne_ok (p := p) (w := w) (b := b) (cur := 0) hd (by omega)
    exact ⟨.scalar v, by simp [hv, bind, Except.bind, pure, Except.pure]⟩

theorem paydAscii_length : ∀ (b r : Bytes), paydAscii b = some r → b.length = 2 * r.length
  | [], r, h => by simp [paydAscii] at h; subst h; rfl
  | [_], r, h => by simp [paydAscii] at h
  | c0 :: c1 :: rest, r, h => by
    unfold paydAscii at h
    cases e : hexd c0 c1 with
    | none => rw [e] at h; simp at h
    | some x =>
      cases e2 : paydAscii rest with
      | none => rw [e, e2] at h; simp at h
      | some xs =>
        rw [e, e2] at h
        simp only [Option.some.injEq] at h
        subst h
        have := paydAscii_length rest xs e2
        simp only [List.length_cons]; omega

theorem payd_raw {w : Width} {n : Nat} {m : Mode} {b r : Bytes}
    (hl : b.length = (blkmath w n m).numBytes) (h : payd b m = some r) : r.length = w.bytes * n := by
  cases m with
  | ascii =>
    have := paydAscii_length b r h
    have e : (blkmath w n .ascii).numBytes = 2 * (w.bytes * n) := rfl
    omega
  | hex => cases h; exact hl

end Sys2Proof.Machine
end

