-- ==== Sys2Proof/Laws/Invariant.lean ====
section
/-! SUPPORT. The invariant inside a step: between the end of a session and the next start, and while a session
ends; `DONE`, `ABORT` and `ARBITRATE` keep it (R270, R271, R334 to R345). -/

namespace Sys2Proof.Machine

/-- The part of the engine invariant that no delivery touches. -/
structure Kept (s t : State) : Prop where
  par : t.par = s.par
  cfg : t.cfg = s.cfg
  inbox : t.inbox = s.inbox

theorem Kept.refl (s : State) : Kept s s := ⟨rfl, rfl, rfl⟩
theorem Kept.trans {s t u : State} (h : Kept s t) (g : Kept t u) : Kept s u :=
  ⟨g.par.trans h.par, g.cfg.trans h.cfg, g.inbox.trans h.inbox⟩

structure Core (s : State) : Prop where
  session : SessionInv s.par s.cfg s.ses
  sched : SchedInv s

/-- The state inside a step between the end of a session and `ARBITRATE`. -/
structure Between (s : State) : Prop where
  ses : ∃ n, s.ses = { resetSession with txOutstanding := n }
  accMax : s.par.accMax ≤ 65535
  configured : ConfigAccepted s.par s.cfg
  run : s.sch.run = .running ∨ s.sch.run = .closing
  cycle : ∀ c, s.sch.cycle = some c →
    c.list = readVars s.cfg ∧ c.results.length = c.list.length ∧ c.cursor ≤ c.list.length
  debounce : s.sch.debounce = .armed → s.sch.link ≠ .reportedFalse
  pending : ∀ pw, s.sch.pendingWrite = some pw → Dispatchable s.par s.cfg pw
  latched : ∀ n ∈ s.sch.invalidLatched, ∃ v ∈ s.cfg.vars, v.name = n ∧ xltVar v = none
  latched_once : s.sch.invalidLatched.Nodup

theorem sessionInv_idle (p : Config.Params) (c : Cfg) (n : Nat) :
    SessionInv p c { resetSession with txOutstanding := n } where
  req_iff := by simp [resetSession]
  idle_reset := by simp [resetSession]
  armed := by simp [resetSession]
  waiting := by simp [resetSession]
  blocks := by simp [resetSession]
  widths := by simp [resetSession]
  active := by simp [resetSession]

theorem Between.idle {s : State} (h : Between s) : s.ses.state = .idle := by
  obtain ⟨n, h⟩ := h.ses; rw [h]; rfl
theorem Between.req {s : State} (h : Between s) : s.ses.req = none := by
  obtain ⟨n, h⟩ := h.ses; rw [h]; rfl

/-- At rest between sessions: nothing queued, or closing. -/
theorem Between.core {s : State} (h : Between s)
    (hr : s.sch.run = .closing ∨
      (s.sch.cycle = none ∧ s.sch.pendingWrite = none ∧ s.sch.readPending = false)) : Core s where
  session := by obtain ⟨n, e⟩ := h.ses; rw [e]; exact sessionInv_idle _ _ _
  sched :=
    { configured := fun _ => h.configured
      rest := fun hrun _ => by
        rcases hr with e | e
        · rw [e] at hrun; cases hrun
        · exact e
      reading := fun r e => by rw [h.req] at e; cases e
      cycle := h.cycle
      readPending := fun e => by
        rcases hr with hc | hc
        · exact .inl hc
        · rw [hc.2.2] at e; cases e
      debounce := h.debounce
      quiet := fun e => by rcases h.run with g | g <;> rw [g] at e <;> simp at e
      pending := h.pending
      latched := h.latched
      latched_once := h.latched_once }

/-- A session start from between sessions. -/
theorem Between.open {s : State} (h : Between s) {st : SState} {dir : Dir} {var : VarDescr} {xa : XAddr}
    {wire : Bytes}
    (hst : (st = .waitReadEnqAck ∧ dir = .read) ∨ (st = .waitWriteEnqAck ∧ dir = .write))
    (hd : DescrAccepted s.par s.cfg.mode var) (hx : xltVar var = some xa)
    (hw : dir = .write →
      wire.length = (blkmath xa.bpe var.elementCount s.cfg.mode).numBytes)
    (hread : dir = .read → ∃ c, s.sch.cycle = some c ∧ c.list[c.cursor]? = some var)
    (hp : s.sch.readPending = true → s.sch.run = .closing ∨ dir = .write) :
    openSession st dir var xa wire s = .ok (sessionOpened st dir var xa wire s) ∧
      Core (sessionOpened st dir var xa wire s) := by
  have hsz := hd.size xa hx
  have hs := sizes_of _ (rfl : blkmath xa.bpe var.elementCount s.cfg.mode = _) hsz.1
    (by have := h.accMax; omega)
  refine ⟨openSession_ok h.idle hsz.1 hsz.2.1 h.configured.station, ?_, ?_⟩
  · exact
    { req_iff := by rcases hst with ⟨rfl, rfl⟩ | ⟨rfl, rfl⟩ <;> simp [sessionOpened]
      idle_reset := by rcases hst with ⟨rfl, rfl⟩ | ⟨rfl, rfl⟩ <;> simp [sessionOpened]
      armed := by simp [sessionOpened]
      waiting := by
        rcases hst with ⟨rfl, rfl⟩ | ⟨rfl, rfl⟩ <;> simp [sessionOpened, timerOf]
      blocks := by simp [sessionOpened]
      widths := by simp only [sessionOpened]; omega
      active := by
        intro r hr
        simp only [sessionOpened, Option.some.injEq] at hr
        subst hr
        exact
        { dir := by rcases hst with ⟨rfl, rfl⟩ | ⟨rfl, rfl⟩ <;> rfl
          descr := hd
          xlt := hx
          count := rfl
          sizes := rfl
          acc := fun _ => (if_pos (show 0 < (blkmath xa.bpe var.elementCount s.cfg.mode).blocksRequired by omega)).symm
          wire := fun e => ⟨hw e, rfl⟩
          started := by simp [sessionOpened]
          expected := by rcases hst with ⟨rfl, rfl⟩ | ⟨rfl, rfl⟩ <;> simp [sessionOpened]
          complete := by rcases hst with ⟨rfl, rfl⟩ | ⟨rfl, rfl⟩ <;> simp [sessionOpened]
          short := by
            rcases hst with ⟨rfl, rfl⟩ | ⟨rfl, rfl⟩ <;> simp [sessionOpened, needBytes] } }
  · exact
    { configured := fun _ => h.configured
      rest := by rcases hst with ⟨rfl, rfl⟩ | ⟨rfl, rfl⟩ <;> simp [sessionOpened]
      reading := by
        intro r hr hdir
        simp only [sessionOpened, Option.some.injEq] at hr
        subst hr
        exact hread hdir
      cycle := h.cycle
      readPending := by
        intro e
        rcases hp e with g | g
        · exact .inl g
        · exact .inr ⟨_, rfl, g⟩
      debounce := h.debounce
      quiet := fun e => by
        rcases h.run with g | g <;> simp [sessionOpened, g] at e
      pending := h.pending
      latched := h.latched
      latched_once := h.latched_once }




theorem readVars_mem {c : Cfg} {v : VarDescr} (h : v ∈ readVars c) : v ∈ c.vars := by
  simp only [readVars, List.mem_filter] at h; exact h.1

theorem drop_eq_cons {α : Type} {l : List α} {n : Nat} {v : α} {vs : List α} (h : l.drop n = v :: vs) :
    l[n]? = some v ∧ l.drop (n + 1) = vs ∧ n < l.length := by
  have hn : n < l.length := by
    by_contra hc
    rw [List.drop_eq_nil_of_le (by omega)] at h; cases h
  rw [List.drop_eq_getElem_cons hn] at h
  injection h with h1 h2
  exact ⟨by rw [List.getElem?_eq_getElem hn, h1], h2, hn⟩

theorem Between.dispatch {s : State} (h : Between s) {pw : PendingWrite} (hp : Dispatchable s.par s.cfg pw) :
    ∃ t, dispatchWrite pw.var pw.value s = .ok t ∧ Core t ∧ Kept s t := by
  obtain ⟨hd, xa, raw, hx, he⟩ := hp
  have ho := h.open (st := .waitWriteEnqAck) (dir := .write) (var := pw.var) (xa := xa)
    (wire := paye raw s.cfg.mode) (.inr ⟨rfl, rfl⟩) hd hx
    (fun _ => paye_numBytes (by rw [enca_length he]; rfl) _) (by simp) (fun _ => .inr rfl)
  refine ⟨_, ?_, ho.2, ⟨rfl, rfl, rfl⟩⟩
  unfold dispatchWrite
  rw [hx]
  simp only [he, unit_ok]
  exact ho.1

theorem nextFrom_core : ∀ (l : List VarDescr) (s : State), Between s → s.sch.run = .running →
    s.sch.pendingWrite = none → s.sch.readPending = false →
    (∃ c, s.sch.cycle = some c ∧ c.list.drop c.cursor = l) →
    ∃ t, nextFrom l s = .ok t ∧ Core t ∧ Kept s t := by
  intro l
  induction l with
  | nil =>
    rintro s h hrun hpw hrp ⟨c, hc, hl⟩
    unfold nextFrom flush
    rw [hc]
    refine ⟨_, rfl, Between.core ?_ (.inr ⟨rfl, hpw, hrp⟩), ⟨rfl, rfl, rfl⟩⟩
    exact { h with cycle := by intro c hc; cases hc }
  | cons v vs ih =>
    rintro s h hrun hpw hrp ⟨c, hc, hl⟩
    obtain ⟨hget, hdrop, hlt⟩ := drop_eq_cons hl
    have hmem : v ∈ readVars s.cfg := by
      rw [← (h.cycle c hc).1]; exact List.mem_of_getElem? hget
    have hadv : ∀ u : State, Between u → u.sch.run = .running → u.sch.pendingWrite = none →
        u.sch.readPending = false → u.sch.cycle = some c → Kept s u →
        ∃ t, nextFrom vs (advanceCursor u) = .ok t ∧ Core t ∧ Kept s t := by
      intro u hu h1 h2 h3 h4 hk
      obtain ⟨t, e, ct, kt⟩ := ih (advanceCursor u)
        { hu with
          cycle := by
            intro c' hc'
            simp only [advanceCursor_cycle, h4, Option.map_some, Option.some.injEq] at hc'
            subst hc'
            have := hu.cycle c h4
            exact ⟨this.1, this.2.1, hlt⟩ }
        h1 h2 h3 ⟨_, by simp [h4]; rfl, hdrop⟩
      exact ⟨t, e, ct, hk.trans ⟨kt.par, kt.cfg, kt.inbox⟩⟩
    unfold nextFrom startReadVar
    by_cases hlat : v.name ∈ s.sch.invalidLatched
    · rw [if_pos hlat]
      exact hadv s h hrun hpw hrp hc (Kept.refl s)
    · rw [if_neg hlat]
      cases hx : xltVar v with
      | none =>
        refine hadv (latchInvalid v s) ?_ hrun hpw hrp hc ⟨rfl, rfl, rfl⟩
        exact { h with
          latched := by
            intro n hn
            simp only [latchInvalid_invalidLatched, List.mem_append, List.mem_singleton] at hn
            rcases hn with hn | rfl
            · exact h.latched n hn
            · exact ⟨v, readVars_mem hmem, rfl, hx⟩
          latched_once := by
            simp only [latchInvalid_invalidLatched]
            rw [List.nodup_append]
            refine ⟨h.latched_once, by simp, ?_⟩
            rintro a ha b hb rfl
            simp only [List.mem_singleton] at hb
            subst hb; exact hlat ha }
      | some xa =>
        have ho := h.open (st := .waitReadEnqAck) (dir := .read) (var := v) (xa := xa) (wire := [])
          (.inl ⟨rfl, rfl⟩) (h.configured.vars v (readVars_mem hmem)) hx (by simp)
          (fun _ => ⟨c, hc, hget⟩) (by simp [hrp])
        refine ⟨_, ?_, ho.2, ⟨rfl, rfl, rfl⟩⟩
        simp only [startRead, ho.1]
        rfl

theorem next_core {s : State} (h : Between s) (hrun : s.sch.run = .running)
    (hpw : s.sch.pendingWrite = none) (hrp : s.sch.readPending = false) {c : ReadCycle}
    (hc : s.sch.cycle = some c) : ∃ t, next s = .ok t ∧ Core t ∧ Kept s t := by
  unfold next
  rw [hc]
  exact nextFrom_core _ s h hrun hpw hrp ⟨c, hc, rfl⟩

theorem startCycle_core {s : State} (h : Between s) (hrun : s.sch.run = .running)
    (hpw : s.sch.pendingWrite = none) (hrp : s.sch.readPending = false) :
    ∃ t, startCycle s = .ok t ∧ Core t ∧ Kept s t := by
  unfold startCycle
  obtain ⟨t, e, ct, kt⟩ := next_core (s := { s with sch := { s.sch with
      cycle := some ⟨readVars s.cfg, List.replicate (readVars s.cfg).length .null, 0⟩ } })
    { h with
      cycle := by
        intro c hc
        simp only [Option.some.injEq] at hc
        subst hc
        exact ⟨rfl, by simp, by simp⟩ } hrun hpw hrp rfl
  exact ⟨t, e, ct, ⟨kt.par, kt.cfg, kt.inbox⟩⟩

theorem arbitrate_core {s : State} (h : Between s) : ∃ t, arbitrate s = .ok t ∧ Core t ∧ Kept s t := by
  unfold arbitrate
  by_cases hc : s.sch.run = .closing
  · rw [if_pos hc]
    exact ⟨s, rfl, h.core (.inl hc), Kept.refl s⟩
  · have hrun : s.sch.run = .running := by rcases h.run with e | e; exacts [e, absurd e hc]
    rw [if_neg hc]
    cases hp : s.sch.pendingWrite with
    | some pw =>
      obtain ⟨t, e, ct, kt⟩ := Between.dispatch
        (s := { s with sch := { s.sch with pendingWrite := none } })
        { h with pending := by intro pw hpw; cases hpw } (h.pending pw hp)
      exact ⟨t, e, ct, ⟨kt.par, kt.cfg, kt.inbox⟩⟩
    | none =>
      cases hcy : s.sch.cycle with
      | some c =>
        obtain ⟨t, e, ct, kt⟩ := next_core (s := { s with sch := { s.sch with readPending := false } })
          { h with } hrun hp rfl hcy
        exact ⟨t, e, ct, ⟨kt.par, kt.cfg, kt.inbox⟩⟩
      | none =>
        by_cases hrp : s.sch.readPending = true
        · simp only [hrp, if_true]
          obtain ⟨t, e, ct, kt⟩ := startCycle_core
            (s := { s with sch := { s.sch with readPending := false } }) { h with } hrun hp rfl
          exact ⟨t, e, ct, ⟨kt.par, kt.cfg, kt.inbox⟩⟩
        · simp only [hrp]
          exact ⟨s, rfl, h.core (.inr ⟨hcy, hp, by simpa using hrp⟩), Kept.refl s⟩



/-- A state inside a step whose session, with request `r`, is about to end. -/
structure Ending (s : State) (r : Request) : Prop where
  req : s.ses.req = some r
  accMax : s.par.accMax ≤ 65535
  configured : ConfigAccepted s.par s.cfg
  run : s.sch.run = .running ∨ s.sch.run = .closing
  reading : r.dir = .read → ∃ c, s.sch.cycle = some c ∧ c.list[c.cursor]? = some r.var
  cycle : ∀ c, s.sch.cycle = some c →
    c.list = readVars s.cfg ∧ c.results.length = c.list.length ∧ c.cursor ≤ c.list.length
  debounce : s.sch.debounce = .armed → s.sch.link ≠ .reportedFalse
  pending : ∀ pw, s.sch.pendingWrite = some pw → Dispatchable s.par s.cfg pw
  latched : ∀ n ∈ s.sch.invalidLatched, ∃ v ∈ s.cfg.vars, v.name = n ∧ xltVar v = none
  latched_once : s.sch.invalidLatched.Nodup

theorem Core.run_of_req {s : State} (h : Core s) {r : Request} (hr : s.ses.req = some r) :
    s.sch.run = .running ∨ s.sch.run = .closing := by
  have hq : ¬ (s.sch.run = .unconfigured ∨ s.sch.run = .closed) := by
    intro hq
    have := (h.session.req_iff.mp (h.sched.quiet hq).1)
    rw [hr] at this; cases this
  cases e : s.sch.run <;> simp_all

theorem Core.ending {s : State} (h : Core s) (ha : s.par.accMax ≤ 65535) {r : Request}
    (hr : s.ses.req = some r) : Ending s r where
  req := hr
  accMax := ha
  configured := h.sched.configured (by rcases h.run_of_req hr with e | e <;> rw [e] <;> simp)
  run := h.run_of_req hr
  reading := h.sched.reading r hr
  cycle := h.sched.cycle
  debounce := h.sched.debounce
  pending := h.sched.pending
  latched := h.sched.latched
  latched_once := h.sched.latched_once

/-- Only the session and the outputs changed. -/
theorem Ending.of {s t : State} {r : Request} (h : Ending s r) (hq : t.ses.req = some r)
    (hs : t.sch = s.sch) (hk : Kept s t) : Ending t r where
  req := hq
  accMax := by rw [hk.par]; exact h.accMax
  configured := by rw [hk.par, hk.cfg]; exact h.configured
  run := by rw [hs]; exact h.run
  reading := by rw [hs]; exact h.reading
  cycle := by rw [hs, hk.cfg]; exact h.cycle
  debounce := by rw [hs]; exact h.debounce
  pending := by rw [hs, hk.par, hk.cfg]; exact h.pending
  latched := by rw [hs, hk.cfg]; exact h.latched
  latched_once := by rw [hs]; exact h.latched_once

/-- After the session is destroyed, and before its result is recorded. -/
theorem Ending.cleared {s : State} {r : Request} (h : Ending s r) : Between (clearSession s) where
  ses := ⟨s.ses.txOutstanding, rfl⟩
  accMax := h.accMax
  configured := h.configured
  run := h.run
  cycle := h.cycle
  debounce := h.debounce
  pending := h.pending
  latched := h.latched
  latched_once := h.latched_once

theorem Between.of {s t : State} (h : Between s) (hs : t.ses = s.ses) (hk : Kept s t)
    (hc : t.sch.cycle = s.sch.cycle) (hp : t.sch.pendingWrite = s.sch.pendingWrite)
    (hr : t.sch.run = s.sch.run) (hl : t.sch.invalidLatched = s.sch.invalidLatched)
    (hd : t.sch.debounce = .armed → t.sch.link ≠ .reportedFalse) : Between t where
  ses := by rw [hs]; exact h.ses
  accMax := by rw [hk.par]; exact h.accMax
  configured := by rw [hk.par, hk.cfg]; exact h.configured
  run := by rw [hr]; exact h.run
  cycle := by rw [hc, hk.cfg]; exact h.cycle
  debounce := hd
  pending := by rw [hp, hk.par, hk.cfg]; exact h.pending
  latched := by rw [hl, hk.cfg]; exact h.latched
  latched_once := by rw [hl]; exact h.latched_once

theorem Between.connSuccess {s : State} (h : Between s) : Between (connSuccess s) :=
  h.of (by simp) ⟨by simp, by simp, by simp⟩ (by simp) (by simp) (by simp) (by simp) (by simp)

theorem Between.clearAlerts {s : State} (h : Between s) (ks : List AlertKey) :
    Between (clearAlerts ks s) :=
  h.of (by simp) ⟨by simp, by simp, by simp⟩ (by simp) (by simp) (by simp) (by simp)
    (by simpa using h.debounce)

theorem connTimeout_debounce {s : State} (h : s.sch.debounce = .armed → s.sch.link ≠ .reportedFalse) :
    (connTimeout s).sch.debounce = .armed → (connTimeout s).sch.link ≠ .reportedFalse := by
  unfold connTimeout; split
  · rename_i hc; intro _; exact hc.1
  · exact h

theorem Between.connFailure {s : State} (h : Between s) (b : Bool) : Between (connFailure b s) :=
  h.of (by simp) ⟨by simp, by simp, by simp⟩ (by simp) (by simp) (by simp) (by simp)
    (by unfold Machine.connFailure; split; exacts [connTimeout_debounce h.debounce, h.debounce])

theorem Between.emit {s : State} (h : Between s) (o : Output) : Between (emit o s) :=
  h.of rfl ⟨rfl, rfl, rfl⟩ rfl rfl rfl rfl h.debounce

/-- Recording a result keeps the between-sessions shape (R337). -/
theorem Between.recordResult {s : State} (h : Between s) {c : ReadCycle} (hc : s.sch.cycle = some c)
    (hl : c.cursor < c.list.length) (v : Value) :
    ∃ t, recordResult v s = .ok t ∧ Between t ∧ Kept s t := by
  have hw := h.cycle c hc
  unfold Machine.recordResult
  rw [hc]
  simp only
  rw [if_pos (by omega)]
  refine ⟨_, rfl, { h with cycle := ?_ }, ⟨rfl, rfl, rfl⟩⟩
  intro c' hc'
  simp only [Option.some.injEq] at hc'
  subst hc'
  exact ⟨hw.1, by simpa using hw.2.1, hl⟩

theorem Ending.endSession {s : State} {r : Request} (h : Ending s r) (o : SessionOutcome)
    (hd : outcomeDir o = r.dir) : ∃ t, endSession o s = .ok t ∧ Core t ∧ Kept s t := by
  unfold Machine.endSession
  rw [h.req]
  simp only [onDone]
  have hcl := h.cleared
  have hk : Kept s (clearSession s) := ⟨rfl, rfl, rfl⟩
  have hrd : r.dir = .read → ∃ c, (clearSession s).sch.cycle = some c ∧ c.cursor < c.list.length := by
    intro e
    obtain ⟨c, hc, hg⟩ := h.reading e
    exact ⟨c, hc, (List.getElem?_eq_some_iff.mp hg).1⟩
  cases o with
  | readOk v =>
    obtain ⟨c, hc, hl⟩ := hrd hd.symm
    obtain ⟨t, e, bt, kt⟩ := (hcl.connSuccess.clearAlerts readClass).recordResult (c := c) (by simpa using hc) hl v
    obtain ⟨u, e', cu, ku⟩ := arbitrate_core bt
    exact ⟨u, by simp only [e]; exact e', cu,
      hk.trans (Kept.trans ⟨by simp, by simp, by simp⟩ (kt.trans ku))⟩
  | readFail b =>
    obtain ⟨c, hc, hl⟩ := hrd hd.symm
    obtain ⟨t, e, bt, kt⟩ := (hcl.connFailure b).recordResult (c := c) (by simpa using hc) hl .null
    obtain ⟨u, e', cu, ku⟩ := arbitrate_core bt
    exact ⟨u, by simp only [e]; exact e', cu,
      hk.trans (Kept.trans ⟨by simp, by simp, by simp⟩ (kt.trans ku))⟩
  | writeOk =>
    obtain ⟨u, e', cu, ku⟩ := arbitrate_core ((hcl.connSuccess.clearAlerts writeClass).emit (.writeDone r.var.name true))
    exact ⟨u, e', cu, hk.trans (Kept.trans ⟨by simp, by simp, by simp⟩ ku)⟩
  | writeFail b =>
    obtain ⟨u, e', cu, ku⟩ := arbitrate_core ((hcl.connFailure b).emit (.writeDone r.var.name false))
    exact ⟨u, e', cu, hk.trans (Kept.trans ⟨by simp, by simp, by simp⟩ ku)⟩

theorem Ending.takeAbort {s : State} {r : Request} (h : Ending s r) (k : AlertKey) (b : Bool) :
    ∃ t, takeAbort k b s = .ok t ∧ Core t ∧ Kept s t := by
  unfold Machine.takeAbort
  rw [h.req]
  have h' : Ending (raiseAlert k r.var.name (send bldEot s)) r :=
    h.of h.req rfl ⟨rfl, rfl, rfl⟩
  obtain ⟨t, e, ct, kt⟩ := h'.endSession (failOutcome r.dir b) (by cases r.dir <;> rfl)
  exact ⟨t, e, ct, ⟨kt.par, kt.cfg, kt.inbox⟩⟩

end Sys2Proof.Machine
end

