-- ==== Sys2Proof/Laws/Phases.lean ====
section
/-! SUPPORT. What each phase rule of the session can do, said once (R291, R292, R295, R296, R311 to R313,
R268). -/

namespace Sys2Proof.Machine

variable {s : State} {r : Request}

theorem phaseReadEnqAck_fail {k : FailKind} (hr : s.ses.req = some r)
    (hv : prsEnqAck s.ses.rx = .ok (.fail k)) :
    phaseReadEnqAck s = takeAbort .enqAckNotReceivedError false s := by
  unfold phaseReadEnqAck; rw [hr, hv]; rfl

theorem phaseReadEnqAck_ok {h : Bytes} (hr : s.ses.req = some r)
    (hv : prsEnqAck s.ses.rx = .ok (.ok ())) (hh : sessionHeader { r with dir := .read } s = .ok h) :
    phaseReadEnqAck s = .ok (enter .waitReadDataBlock .t2
      { send h s with
        ses := { (send h s).ses with
          expectedByteCount := expect true (blockSizeOf s.ses 0) s.cfg.mode } }) := by
  unfold phaseReadEnqAck; rw [hr, hv]; simp only [unit_ok, bind, Except.bind, hh]; rfl

theorem phaseReadBlock_fail {k : FailKind}
    (hv : prsDb s.par s.ses.rx (decide (s.ses.blocksDone = 0)) (isFinalBlock s.ses s.ses.blocksDone)
      (blockSizeOf s.ses s.ses.blocksDone) s.cfg.mode = .ok (.fail k)) :
    phaseReadBlock s = takeAbort (failKey k) false s := by
  unfold phaseReadBlock; dsimp only; rw [hv]; rfl

theorem phaseReadBlock_ok {p : Bytes}
    (hv : prsDb s.par s.ses.rx (decide (s.ses.blocksDone = 0)) (isFinalBlock s.ses s.ses.blocksDone)
      (blockSizeOf s.ses s.ses.blocksDone) s.cfg.mode = .ok (.ok p)) :
    phaseReadBlock s = .ok (acceptBlock p s) := by
  unfold phaseReadBlock; dsimp only; rw [hv]; rfl

/-- An accepted block that is not the last (R292 (a)). -/
theorem acceptBlock_more {p : Bytes} (h : s.ses.blocksDone + 1 < s.ses.blocksRequired) :
    acceptBlock p s =
      { s with
        out := s.out ++ [.tx bldAck]
        ses := { s.ses with
          state := .waitReadDataBlock
          rx := []
          timer := .disarmed
          armOnTxc := some .t2
          txOutstanding := s.ses.txOutstanding + 1
          acc := s.ses.acc ++ p
          blocksDone := s.ses.blocksDone + 1
          expectedByteCount :=
            expect false (blockSizeOf s.ses (s.ses.blocksDone + 1)) s.cfg.mode } } := by
  unfold acceptBlock; exact if_pos h

/-- An accepted last block (R292 (b)). -/
theorem acceptBlock_last {p : Bytes} (h : ¬ s.ses.blocksDone + 1 < s.ses.blocksRequired) :
    acceptBlock p s =
      { s with
        out := s.out ++ [.tx bldAck]
        ses := { s.ses with
          state := .waitReadEot
          rx := []
          timer := .disarmed
          armOnTxc := some .t3
          txOutstanding := s.ses.txOutstanding + 1
          acc := s.ses.acc ++ p
          blocksDone := s.ses.blocksDone + 1 } } := by
  unfold acceptBlock; exact if_neg h

theorem phaseReadEot_fail {k : FailKind} (hr : s.ses.req = some r)
    (hv : prsEot s.ses.rx = .ok (.fail k)) :
    phaseReadEot s = takeAbort .eotNotReceivedError false s := by
  unfold phaseReadEot; rw [hr, hv]; rfl

theorem phaseReadEot_ok (hr : s.ses.req = some r) (hv : prsEot s.ses.rx = .ok (.ok ())) :
    phaseReadEot s = decodeRead r (send bldEot s) := by
  unfold phaseReadEot; rw [hr, hv]; rfl

theorem decodeRead_notHex (h : payd s.ses.acc s.cfg.mode = none) :
    decodeRead r s = endSession (.readFail false) (raiseAlert .payloadFormatError r.var.name s) := by
  unfold decodeRead; rw [h]

theorem decodeRead_ok {raw : Bytes} {v : Value} (h : payd s.ses.acc s.cfg.mode = some raw)
    (hv : deca s.par r.var r.xa.bpe raw = .ok v) : decodeRead r s = endSession (.readOk v) s := by
  unfold decodeRead; rw [h]; simp only [hv, unit_ok]; rfl

theorem phaseWriteEnqAck_fail {k : FailKind} (hr : s.ses.req = some r)
    (hv : prsEnqAck s.ses.rx = .ok (.fail k)) :
    phaseWriteEnqAck s = takeAbort .enqAckNotReceivedError false s := by
  unfold phaseWriteEnqAck; rw [hr, hv]; rfl

theorem phaseWriteEnqAck_ok {h : Bytes} (hr : s.ses.req = some r)
    (hv : prsEnqAck s.ses.rx = .ok (.ok ())) (hh : sessionHeader { r with dir := .write } s = .ok h) :
    phaseWriteEnqAck s = .ok (enter .waitWriteDataBlockAck .t4 (send h s)) := by
  unfold phaseWriteEnqAck; rw [hr, hv]; simp only [unit_ok, bind, Except.bind, hh]; rfl

theorem phaseWriteAck_fail {k : FailKind} (hr : s.ses.req = some r)
    (hv : prsAck s.ses.rx = .ok (.fail k)) :
    phaseWriteAck s = takeAbort .ackNotReceivedError false s := by
  unfold phaseWriteAck; rw [hr, hv]; rfl

theorem phaseWriteAck_block {f : Bytes} (hr : s.ses.req = some r) (hv : prsAck s.ses.rx = .ok (.ok ()))
    (hd : s.ses.blocksDone < s.ses.blocksRequired)
    (hf : bldDb (split r.wire r.numBytes s.ses.blocksRequired s.ses.blocksDone).1
      (split r.wire r.numBytes s.ses.blocksRequired s.ses.blocksDone).2 s.cfg.mode = .ok f) :
    phaseWriteAck s = .ok (enter .waitWriteDataBlockAck .t4
      { send f s with
        ses := { (send f s).ses with blocksDone := s.ses.blocksDone + 1 } }) := by
  unfold phaseWriteAck; rw [hr, hv]
  simp only [unit_ok, bind, Except.bind, hd, if_true, hf]; rfl

theorem phaseWriteAck_eot (hr : s.ses.req = some r) (hv : prsAck s.ses.rx = .ok (.ok ()))
    (hd : ¬ s.ses.blocksDone < s.ses.blocksRequired) :
    phaseWriteAck s = .ok (enter .waitWriteEot .t4 (send bldEot s)) := by
  unfold phaseWriteAck; rw [hr, hv]
  simp only [unit_ok, bind, Except.bind, hd, if_false]; rfl

theorem phaseWriteEot_fail {k : FailKind} (hv : prsAck s.ses.rx = .ok (.fail k)) :
    phaseWriteEot s = takeAbort .ackNotReceivedError false s := by
  unfold phaseWriteEot; rw [hv]; rfl

theorem phaseWriteEot_ok (hv : prsAck s.ses.rx = .ok (.ok ())) :
    phaseWriteEot s = endSession .writeOk s := by
  unfold phaseWriteEot; rw [hv]; rfl

/-! ## Reception (R268) -/

theorem receive_idle (chunk : Bytes) (h : s.ses.state = .idle) : receive chunk s = .ok s := by
  unfold receive; rw [if_pos h]

/-- The state with a chunk appended to the receive buffer. -/
def received (chunk : Bytes) (s : State) : State :=
  { s with ses := { s.ses with rx := s.ses.rx ++ chunk } }

theorem receive_short {chunk : Bytes} (h : s.ses.state ≠ .idle)
    (hl : (s.ses.rx ++ chunk).length < needBytes s.ses) :
    receive chunk s = .ok (received chunk s) := by
  unfold receive; rw [if_neg h]; exact if_pos hl

theorem receive_phase {chunk : Bytes} (h : s.ses.state ≠ .idle)
    (hl : needBytes s.ses ≤ (s.ses.rx ++ chunk).length) :
    receive chunk s = runPhase (received chunk s) := by
  unfold receive; rw [if_neg h]; exact if_neg (Nat.not_lt.mpr hl)

end Sys2Proof.Machine
end

