-- ==== Sys2Proof/Laws/Outputs.lean ====
section
/-! SUPPORT. What the shared operations emit: outputs are only appended, the alert bits and the count of
outstanding frames follow them, and an invalid address is announced once (R38, R42, R266, R336). -/

namespace Sys2Proof.Machine

/-- From `s` to `t` exactly `os` was emitted, and the registers that follow the outputs followed. -/
structure Emits (s : State) (os : List Output) (t : State) : Prop where
  par : t.par = s.par
  cfg : t.cfg = s.cfg
  inbox : t.inbox = s.inbox
  out : t.out = s.out ++ os
  raised : t.raised = os.foldl sinkStep s.raised
  tx : t.ses.txOutstanding = s.ses.txOutstanding + (os.filter isTx).length
  latched : t.sch.invalidLatched = s.sch.invalidLatched ++ os.filterMap invalidAlertName
  once : (os.filterMap invalidAlertName).Nodup
  fresh : ∀ n ∈ os.filterMap invalidAlertName, n ∉ s.sch.invalidLatched
  external : ∀ o ∈ os, isExternalAlert o = false

theorem Emits.refl (s : State) : Emits s [] s := by constructor <;> simp

theorem Emits.trans {s t u : State} {a b : List Output} (h : Emits s a t) (g : Emits t b u) :
    Emits s (a ++ b) u where
  par := g.par.trans h.par
  cfg := g.cfg.trans h.cfg
  inbox := g.inbox.trans h.inbox
  out := by rw [g.out, h.out, List.append_assoc]
  raised := by rw [g.raised, h.raised, List.foldl_append]
  tx := by rw [g.tx, h.tx, List.filter_append, List.length_append, Nat.add_assoc]
  latched := by rw [g.latched, h.latched, List.filterMap_append, List.append_assoc]
  once := by
    rw [List.filterMap_append, List.nodup_append]
    refine ⟨h.once, g.once, ?_⟩
    rintro n hn m hm rfl
    exact g.fresh n hm (by rw [h.latched]; exact List.mem_append_right _ hn)
  fresh := by
    rw [List.filterMap_append]
    intro n hn hs
    rcases List.mem_append.mp hn with hn | hn
    · exact h.fresh n hn hs
    · exact g.fresh n hn (by rw [h.latched]; exact List.mem_append_left _ hs)
  external o ho := (List.mem_append.mp ho).elim (h.external o) (g.external o)

/-- A change of registers that no output follows. -/
theorem Emits.silent {s t : State} (h1 : t.par = s.par) (h2 : t.cfg = s.cfg) (h3 : t.inbox = s.inbox)
    (h4 : t.out = s.out) (h5 : t.raised = s.raised) (h6 : t.ses.txOutstanding = s.ses.txOutstanding)
    (h7 : t.sch.invalidLatched = s.sch.invalidLatched) : Emits s [] t := by
  constructor <;> simp [h1, h2, h3, h4, h5, h6, h7]

/-- A register that no output follows was changed before. -/
theorem Emits.before {s u t : State} {os : List Output} (h : Emits u os t) (h1 : u.par = s.par)
    (h2 : u.cfg = s.cfg) (h3 : u.inbox = s.inbox) (h4 : u.out = s.out) (h5 : u.raised = s.raised)
    (h6 : u.ses.txOutstanding = s.ses.txOutstanding)
    (h7 : u.sch.invalidLatched = s.sch.invalidLatched) : Emits s os t :=
  (Emits.silent h1 h2 h3 h4 h5 h6 h7 : Emits s [] u).trans h

/-- A register that no output follows was changed afterwards. -/
theorem Emits.after {s u t : State} {os : List Output} (h : Emits s os u) (h1 : t.par = u.par)
    (h2 : t.cfg = u.cfg) (h3 : t.inbox = u.inbox) (h4 : t.out = u.out) (h5 : t.raised = u.raised)
    (h6 : t.ses.txOutstanding = u.ses.txOutstanding)
    (h7 : t.sch.invalidLatched = u.sch.invalidLatched) : Emits s os t := by
  have := h.trans (Emits.silent h1 h2 h3 h4 h5 h6 h7)
  rwa [List.append_nil] at this

/-- One output. -/
theorem Emits.one {s t : State} {o : Output} (h1 : t.par = s.par) (h2 : t.cfg = s.cfg)
    (h3 : t.inbox = s.inbox) (h4 : t.out = s.out ++ [o]) (h5 : t.raised = sinkStep s.raised o)
    (h6 : t.ses.txOutstanding = s.ses.txOutstanding + ([o].filter isTx).length)
    (h7 : t.sch.invalidLatched = s.sch.invalidLatched ++ (invalidAlertName o).toList)
    (h8 : ∀ n, invalidAlertName o = some n → n ∉ s.sch.invalidLatched)
    (h9 : isExternalAlert o = false) : Emits s [o] t where
  par := h1
  cfg := h2
  inbox := h3
  out := h4
  raised := h5
  tx := h6
  latched := by rw [h7]; cases e : invalidAlertName o <;> simp [e]
  once := by cases e : invalidAlertName o <;> simp [e]
  fresh := by
    intro n hn
    cases e : invalidAlertName o with
    | none => simp [e] at hn
    | some m =>
      simp only [List.filterMap_cons, e, List.filterMap_nil, List.mem_singleton] at hn
      subst hn
      exact h8 _ e
  external x hx := by rw [List.mem_singleton.mp hx]; exact h9

/-- Outputs that neither the alert sink nor the transport hears. -/
theorem Emits.quiet {s t : State} {os : List Output} (h1 : t.par = s.par) (h2 : t.cfg = s.cfg)
    (h3 : t.inbox = s.inbox) (h4 : t.out = s.out ++ os) (h5 : t.raised = s.raised)
    (h6 : t.ses.txOutstanding = s.ses.txOutstanding)
    (h7 : t.sch.invalidLatched = s.sch.invalidLatched)
    (hos : ∀ o ∈ os, (∃ n v, o = .report n v) ∨ ∃ n b, o = .writeDone n b) : Emits s os t := by
  have key : os.foldl sinkStep s.raised = s.raised ∧ os.filter isTx = [] ∧
      os.filterMap invalidAlertName = [] := by
    clear h4
    induction os with
    | nil => exact ⟨rfl, rfl, rfl⟩
    | cons o os ih =>
      have ⟨k1, k2, k3⟩ := ih fun x hx => hos x (List.mem_cons_of_mem _ hx)
      rcases hos o List.mem_cons_self with ⟨n, v, rfl⟩ | ⟨n, v, rfl⟩ <;>
        exact ⟨k1, by rw [List.filter_cons_of_neg (by simp [isTx])]; exact k2, by rw [List.filterMap_cons_none rfl]; exact k3⟩
  refine ⟨h1, h2, h3, h4, ?_, ?_, ?_, ?_, ?_, ?_⟩
  case refine_6 =>
    intro o ho
    rcases hos o ho with ⟨n, v, rfl⟩ | ⟨n, b, rfl⟩ <;> rfl
  all_goals simp [h5, h6, h7, key.1, key.2.1, key.2.2]

/-! ## Clearing a class of alerts (R373) -/

theorem alertCode_inj {j k : AlertKey} (h : alertCode j = alertCode k) : j = k := by
  cases j <;> cases k <;> first | rfl | cases h

theorem alertCode_lt (k : AlertKey) : alertCode k < 15 := by cases k <;> decide

/-- The bit of another key survives a clear. -/
theorem getLsbD_dropRaised (r : BitVec 15) (j k : AlertKey) :
    (dropRaised r k).getLsbD (alertCode j) = (r.getLsbD (alertCode j) && decide (j ≠ k)) := by
  have hj := alertCode_lt j
  by_cases e : j = k
  · subst e; simp [dropRaised, hj]
  · have : alertCode j ≠ alertCode k := fun h => e (alertCode_inj h)
    simp [dropRaised, hj, e]
    intro _; exact this

/-- A key that is not up has no bit to drop. -/
theorem dropRaised_of_not (r : BitVec 15) (k : AlertKey) (h : isRaised r k = false) :
    dropRaised r k = r := by
  apply BitVec.eq_of_getLsbD_eq
  intro i hi
  simp only [dropRaised, BitVec.getLsbD_and, BitVec.getLsbD_not, BitVec.getLsbD_twoPow]
  by_cases e : alertCode k = i
  · subst e; simpa [isRaised] using h
  · simp [hi, e]

theorem bitsOf_cons (k : AlertKey) (ks : List AlertKey) :
    bitsOf (k :: ks) = BitVec.twoPow 15 (alertCode k) ||| bitsOf ks := by
  have key : ∀ (ks : List AlertKey) (a : BitVec 15),
      ks.foldl (fun b k => b ||| BitVec.twoPow 15 (alertCode k)) a = a ||| bitsOf ks := by
    intro ks
    induction ks with
    | nil => simp [bitsOf]
    | cons j js ih => intro a; rw [bitsOf, List.foldl_cons, List.foldl_cons, ih, ih]; simp [BitVec.or_assoc]
  rw [bitsOf, List.foldl_cons, key]; simp

/-- A class cleared at once: one `AlertClear` for each key that is up, in order. -/
theorem clearAlerts_eq : ∀ (ks : List AlertKey) (s : State), ks.Nodup →
    clearAlerts ks s = { s with
      out := s.out ++ clearsOf ks s.raised
      raised := s.raised &&& ~~~(bitsOf ks) }
  | [], s, _ => by
    have h : s.raised &&& ~~~(bitsOf []) = s.raised := by
      rw [show ~~~(bitsOf []) = BitVec.allOnes 15 by decide, BitVec.and_allOnes]
    rw [h]; simp [clearAlerts, clearsOf]
  | k :: ks, s, h => by
    have hk : clearAlert k s = { s with
        out := s.out ++ (if isRaised s.raised k then [.alertClear k] else [])
        raised := dropRaised s.raised k } := by
      unfold clearAlert
      cases e : isRaised s.raised k
      · simp [dropRaised_of_not _ _ e]
      · rfl
    have hc : clearsOf ks (dropRaised s.raised k) = clearsOf ks s.raised := by
      unfold clearsOf
      congr 1
      apply List.filter_congr
      intro j hj
      have : j ≠ k := by rintro rfl; exact (List.nodup_cons.mp h).1 hj
      rw [getLsbD_dropRaised]; simp [this]
    rw [clearAlerts, clearAlerts_eq ks _ (List.nodup_cons.mp h).2, hk]
    dsimp only
    rw [hc, bitsOf_cons, BitVec.not_or, ← BitVec.and_assoc, List.append_assoc]
    congr 2
    simp only [clearsOf, List.filter_cons, isRaised]
    split <;> simp_all

/-! ## Single operations -/

theorem send_emits (f : Bytes) (s : State) : Emits s [.tx f] (send f s) :=
  Emits.one rfl rfl rfl rfl rfl rfl (List.append_nil _).symm (by simp [invalidAlertName]) rfl

/-- The keys of a session are neither the scheduler's nor the collaborators' (R370). -/
theorem inSession_class {k : AlertKey} (h : k.inSession = true) :
    k ∉ configClass ∧ k ∉ externalClass := by
  cases k <;> first | decide | cases h

/-- An alert that a session raises (R372). -/
theorem raiseAlert_emits {k : AlertKey} (h : k.inSession = true) (n : VarName) (s : State) :
    Emits s [.alertRaise k n] (raiseAlert k n s) := by
  have e : invalidAlertName (.alertRaise k n) = none := if_neg (inSession_class h).1
  exact Emits.one rfl rfl rfl rfl rfl rfl (by rw [e]; exact (List.append_nil _).symm) (by simp [e])
      (decide_eq_false (inSession_class h).2)

theorem invalidKey_mem (mt : MemoryType) : invalidKey mt ∈ configClass := by cases mt <;> decide

theorem latchInvalid_emits {v : VarDescr} {s : State} (h : v.name ∉ s.sch.invalidLatched) :
    Emits s [.alertRaise (invalidKey v.memoryType) v.name] (latchInvalid v s) := by
  have e : invalidAlertName (.alertRaise (invalidKey v.memoryType) v.name) = some v.name :=
    if_pos (invalidKey_mem _)
  exact Emits.one rfl rfl rfl rfl rfl rfl (by rw [e]; rfl)
    (by intro n hn; rw [e] at hn; cases hn; exact h) (by cases v.memoryType <;> rfl)

theorem clearAlert_emits {k : AlertKey} (h : k ∉ externalClass) (s : State) :
    ∃ os, Emits s os (clearAlert k s) := by
  unfold clearAlert
  split
  · refine ⟨[.alertClear k], ?_⟩
    exact Emits.one rfl rfl rfl rfl rfl rfl (List.append_nil _).symm (by simp [invalidAlertName])
      (decide_eq_false h)
  · exact ⟨[], Emits.refl s⟩

theorem clearAlerts_emits : ∀ (ks : List AlertKey) (s : State), (∀ k ∈ ks, k ∉ externalClass) →
    ∃ os, Emits s os (clearAlerts ks s)
  | [], s, _ => ⟨[], Emits.refl s⟩
  | k :: ks, s, h => by
    obtain ⟨a, ha⟩ := clearAlert_emits (h k List.mem_cons_self) s
    obtain ⟨b, hb⟩ := clearAlerts_emits ks (clearAlert k s) fun j hj => h j (List.mem_cons_of_mem _ hj)
    exact ⟨a ++ b, ha.trans hb⟩

theorem openSession_emits {st : SState} {dir : Dir} {var : VarDescr} {xa : XAddr} {wire : Bytes}
    {s t : State} (h : openSession st dir var xa wire s = .ok t) :
    Emits s [.tx (enquiryOf s.cfg.station)] t := by
  obtain ⟨-, -, -, -, rfl⟩ := openSession_cases h
  exact Emits.one rfl rfl rfl rfl rfl rfl (List.append_nil _).symm (by simp [invalidAlertName]) rfl

theorem flush_emits {s t : State} (h : flush s = .ok t) : ∃ os, Emits s os t := by
  unfold flush at h
  split at h
  · cases h
  · cases h
    refine ⟨_, Emits.quiet rfl rfl rfl rfl rfl rfl rfl ?_⟩
    intro o ho
    rw [List.zipWith_eq_zipWith_take_min] at ho
    obtain ⟨i, hi, e⟩ := List.getElem_of_mem ho
    rw [List.getElem_zipWith] at e
    exact .inl ⟨_, _, e.symm⟩

theorem nextFrom_emits : ∀ {l : List VarDescr} {s t : State}, nextFrom l s = .ok t →
    ∃ os, Emits s os t
  | [], _, _, h => flush_emits h
  | v :: vs, s, t, h => by
    unfold nextFrom startReadVar at h
    by_cases hl : v.name ∈ s.sch.invalidLatched
    · rw [if_pos hl] at h
      obtain ⟨os, ho⟩ := nextFrom_emits h
      exact ⟨_, ho.before rfl rfl rfl rfl rfl rfl rfl⟩
    · rw [if_neg hl] at h
      cases hx : xltVar v with
      | none =>
        rw [hx] at h
        obtain ⟨os, ho⟩ := nextFrom_emits h
        exact ⟨_, (latchInvalid_emits hl).trans (ho.before rfl rfl rfl rfl rfl rfl rfl)⟩
      | some xa =>
        rw [hx] at h
        simp only at h
        cases e : startRead v xa s with
        | error x => rw [e] at h; cases h
        | ok u =>
          rw [e] at h
          cases h
          exact ⟨_, openSession_emits e⟩

theorem next_emits {s t : State} (h : next s = .ok t) : ∃ os, Emits s os t := by
  unfold next at h
  split at h
  · cases h
  · exact nextFrom_emits h

theorem startCycle_emits {s t : State} (h : startCycle s = .ok t) : ∃ os, Emits s os t := by
  unfold startCycle at h
  obtain ⟨os, ho⟩ := next_emits h
  exact ⟨_, ho.before rfl rfl rfl rfl rfl rfl rfl⟩

theorem dispatchWrite_emits {var : VarDescr} {value : Value} {s t : State}
    (h : dispatchWrite var value s = .ok t) : ∃ os, Emits s os t := by
  unfold dispatchWrite at h
  split at h
  · cases h
  · obtain ⟨raw, -, h⟩ := bind_ok.mp h
    exact ⟨_, openSession_emits h⟩

theorem arbitrate_emits {s t : State} (h : arbitrate s = .ok t) : ∃ os, Emits s os t := by
  unfold arbitrate at h
  split at h
  · cases h; exact ⟨_, Emits.refl _⟩
  split at h
  · obtain ⟨os, ho⟩ := dispatchWrite_emits h
    exact ⟨_, ho.before rfl rfl rfl rfl rfl rfl rfl⟩
  split at h
  · obtain ⟨os, ho⟩ := next_emits h
    exact ⟨_, ho.before rfl rfl rfl rfl rfl rfl rfl⟩
  split at h
  · obtain ⟨os, ho⟩ := startCycle_emits h
    exact ⟨_, ho.before rfl rfl rfl rfl rfl rfl rfl⟩
  · cases h; exact ⟨_, Emits.refl _⟩

theorem linkReports_mem {c : Cfg} {up : Bool} {o : Output} (h : o ∈ linkReports c up) :
    (∃ n v, o = .report n v) ∨ ∃ n b, o = .writeDone n b := by
  simp only [linkReports, List.mem_map] at h
  obtain ⟨n, -, rfl⟩ := h
  exact .inl ⟨_, _, rfl⟩

theorem connSuccess_emits (s : State) : ∃ os, Emits s os (connSuccess s) := by
  unfold connSuccess
  dsimp only
  split
  · exact ⟨_, Emits.quiet rfl rfl rfl rfl rfl rfl rfl fun o ho => linkReports_mem ho⟩
  · exact ⟨_, Emits.silent rfl rfl rfl rfl rfl rfl rfl⟩

theorem connFailure_emits (b : Bool) (s : State) : Emits s [] (connFailure b s) := by
  unfold connFailure connTimeout
  split
  · split
    · exact Emits.silent rfl rfl rfl rfl rfl rfl rfl
    · exact Emits.refl s
  · exact Emits.refl s

theorem recordResult_emits {v : Value} {s t : State} (h : recordResult v s = .ok t) :
    Emits s [] t := by
  unfold recordResult at h
  split at h
  · cases h
  split at h
  · cases h; exact Emits.silent rfl rfl rfl rfl rfl rfl rfl
  · cases h

theorem writeDone_emits (n : VarName) (b : Bool) (s : State) :
    Emits s [.writeDone n b] (emit (.writeDone n b) s) :=
  Emits.one rfl rfl rfl rfl rfl rfl (List.append_nil _).symm (by simp [invalidAlertName]) rfl

/-- `DONE` emits the connection reports, the clears, the completion and whatever runs next emits. -/
theorem onDone_emits {var : VarDescr} {o : SessionOutcome} {s t : State} (h : onDone var o s = .ok t) :
    ∃ os, Emits s os t := by
  unfold onDone at h
  cases o with
  | readOk v =>
    obtain ⟨u, hu, h⟩ := bind_ok.mp h
    obtain ⟨a, ha⟩ := connSuccess_emits s
    obtain ⟨b, hb⟩ := clearAlerts_emits readClass (connSuccess s) (by decide)
    obtain ⟨c, hc⟩ := arbitrate_emits h
    exact ⟨_, ((ha.trans hb).trans (recordResult_emits hu)).trans hc⟩
  | readFail b =>
    obtain ⟨u, hu, h⟩ := bind_ok.mp h
    obtain ⟨c, hc⟩ := arbitrate_emits h
    exact ⟨_, ((connFailure_emits b s).trans (recordResult_emits hu)).trans hc⟩
  | writeOk =>
    obtain ⟨a, ha⟩ := connSuccess_emits s
    obtain ⟨b, hb⟩ := clearAlerts_emits writeClass (connSuccess s) (by decide)
    obtain ⟨c, hc⟩ := arbitrate_emits h
    exact ⟨_, ((ha.trans hb).trans (writeDone_emits _ _ _)).trans hc⟩
  | writeFail b =>
    obtain ⟨c, hc⟩ := arbitrate_emits h
    exact ⟨_, ((connFailure_emits b s).trans (writeDone_emits _ _ _)).trans hc⟩

theorem endSession_emits {o : SessionOutcome} {s t : State} (h : endSession o s = .ok t) :
    ∃ os, Emits s os t := by
  unfold endSession at h
  split at h
  · cases h
  · obtain ⟨os, ho⟩ := onDone_emits h
    exact ⟨_, ho.before rfl rfl rfl rfl rfl rfl rfl⟩

theorem takeAbort_emits {k : AlertKey} {b : Bool} {s t : State} (hk : k.inSession = true)
    (h : takeAbort k b s = .ok t) : ∃ os, Emits s os t := by
  unfold takeAbort at h
  split at h
  · cases h
  · obtain ⟨os, ho⟩ := endSession_emits h
    exact ⟨_, ((send_emits _ s).trans (raiseAlert_emits hk _ _)).trans ho⟩

/-! ## Phases and reception -/

theorem enter_emits (st : SState) (k : TimerId) (s : State) : Emits s [] (enter st k s) :=
  Emits.silent rfl rfl rfl rfl rfl rfl rfl

theorem acceptBlock_emits (p : Bytes) (s : State) : ∃ os, Emits s os (acceptBlock p s) := by
  refine ⟨[.tx bldAck], ?_⟩
  by_cases h : s.ses.blocksDone + 1 < s.ses.blocksRequired
  · rw [acceptBlock_more h]
    exact Emits.one rfl rfl rfl rfl rfl rfl (List.append_nil _).symm (by simp [invalidAlertName]) rfl
  · rw [acceptBlock_last h]
    exact Emits.one rfl rfl rfl rfl rfl rfl (List.append_nil _).symm (by simp [invalidAlertName]) rfl

theorem failKey_inSession (k : FailKind) : (failKey k).inSession = true := by cases k <;> rfl

/-- Every phase rule of R261 only emits. -/
theorem runPhase_emits {s t : State} (h : runPhase s = .ok t) : ∃ os, Emits s os t := by
  unfold runPhase at h
  split at h
  · cases h; exact ⟨_, Emits.refl s⟩
  · unfold phaseReadEnqAck at h
    split at h
    · cases h
    obtain ⟨v, -, h⟩ := bind_ok.mp h
    cases v with
    | fail k => exact takeAbort_emits (by decide) h
    | ok _ =>
      obtain ⟨f, -, h⟩ := bind_ok.mp h
      cases h
      exact ⟨_, (send_emits f s).after rfl rfl rfl rfl rfl rfl rfl⟩
  · unfold phaseReadBlock at h
    dsimp only at h
    obtain ⟨v, -, h⟩ := bind_ok.mp h
    cases v with
    | fail k => exact takeAbort_emits (failKey_inSession k) h
    | ok p => cases h; exact acceptBlock_emits p s
  · unfold phaseReadEot at h
    split at h
    · cases h
    obtain ⟨v, -, h⟩ := bind_ok.mp h
    cases v with
    | fail k => exact takeAbort_emits (by decide) h
    | ok _ =>
      simp only [decodeRead] at h
      split at h
      · obtain ⟨os, ho⟩ := endSession_emits h
        exact ⟨_, ((send_emits _ s).trans (raiseAlert_emits (by decide) _ _)).trans ho⟩
      · obtain ⟨v, -, h⟩ := bind_ok.mp h
        obtain ⟨os, ho⟩ := endSession_emits h
        exact ⟨_, (send_emits _ s).trans ho⟩
  · unfold phaseWriteEnqAck at h
    split at h
    · cases h
    obtain ⟨v, -, h⟩ := bind_ok.mp h
    cases v with
    | fail k => exact takeAbort_emits (by decide) h
    | ok _ =>
      obtain ⟨f, -, h⟩ := bind_ok.mp h
      cases h
      exact ⟨_, (send_emits f s).trans (enter_emits _ _ _)⟩
  · unfold phaseWriteAck at h
    split at h
    · cases h
    obtain ⟨v, -, h⟩ := bind_ok.mp h
    cases v with
    | fail k => exact takeAbort_emits (by decide) h
    | ok _ =>
      dsimp only at h
      split at h
      · obtain ⟨f, -, h⟩ := bind_ok.mp h
        cases h
        exact ⟨_, (send_emits f s).after rfl rfl rfl rfl rfl rfl rfl⟩
      · cases h
        exact ⟨_, (send_emits _ s).trans (enter_emits _ _ _)⟩
  · unfold phaseWriteEot at h
    obtain ⟨v, -, h⟩ := bind_ok.mp h
    cases v with
    | fail k => exact takeAbort_emits (by decide) h
    | ok _ => exact endSession_emits h

theorem receive_emits {chunk : Bytes} {s t : State} (h : receive chunk s = .ok t) :
    ∃ os, Emits s os t := by
  unfold receive at h
  split at h
  · cases h; exact ⟨_, Emits.refl s⟩
  dsimp only at h
  split at h
  · cases h; exact ⟨_, Emits.silent rfl rfl rfl rfl rfl rfl rfl⟩
  · obtain ⟨os, ho⟩ := runPhase_emits h
    exact ⟨_, ho.before rfl rfl rfl rfl rfl rfl rfl⟩

/-! ## The host's events -/

theorem pollTick_emits {s t : State} (h : pollTick s = .ok t) : ∃ os, Emits s os t := by
  unfold pollTick at h
  split at h
  · exact startCycle_emits h
  split at h
  · cases h
  split at h
  · cases h; exact ⟨_, Emits.silent rfl rfl rfl rfl rfl rfl rfl⟩
  · cases h; exact ⟨_, Emits.refl s⟩

theorem writeInvalid_emits (var : VarDescr) (s : State) : ∃ os, Emits s os (writeInvalid var s) := by
  unfold writeInvalid
  dsimp only
  split
  · exact ⟨_, writeDone_emits _ _ _⟩
  · rename_i h; exact ⟨_, (latchInvalid_emits h).trans (writeDone_emits _ _ _)⟩

theorem writeRequest_emits {name : VarName} {value : Value} {s t : State}
    (h : writeRequest name value s = .ok t) : ∃ os, Emits s os t := by
  unfold writeRequest at h
  split at h
  · cases h
  split at h
  · cases h
  split at h
  · cases h
  split at h
  · cases h
  unfold acceptWrite at h
  split at h
  · cases h; exact writeInvalid_emits _ s
  obtain ⟨raw, -, h⟩ := bind_ok.mp h
  split at h
  · exact dispatchWrite_emits h
  split at h
  · cases h
  · cases h; exact ⟨_, Emits.silent rfl rfl rfl rfl rfl rfl rfl⟩

theorem debounceExpired_emits (s : State) : ∃ os, Emits s os (debounceExpired s) := by
  unfold debounceExpired
  dsimp only
  split
  · exact ⟨_, Emits.quiet rfl rfl rfl rfl rfl rfl rfl fun o ho => linkReports_mem ho⟩
  · exact ⟨_, Emits.silent rfl rfl rfl rfl rfl rfl rfl⟩

theorem timeoutKey_inSession {st : SState} {k : AlertKey} (h : timeoutKey st = some k) :
    k.inSession = true := by
  cases st <;> cases h <;> rfl

end Sys2Proof.Machine
end

