-- ==== Sys2Proof/Laws/PerInstr.lean ====
section
/-! SUPPORT. One lemma per instruction about its form at the input port. -/

namespace Sys2Proof.Laws.OpNumber

/-- An operation stands at the port under its own number, a number of R120's table; a wire frame stands
there as bytes, at least one. -/
def Statement (i : Instr) : Prop :=
  match i.number with
  | some n => n.toNat ∈ opNumbers ∧ ∃ ops, encode i = .op n ops
  | none => ∃ m x b, encode i = .wire m (x :: b)

theorem chk : ∀ a b c, Statement (.chk a b c) := fun _ _ _ => ⟨by decide, _, rfl⟩
theorem xlt : ∀ a b c d, Statement (.xlt a b c d) := fun _ _ _ _ => ⟨by decide, _, rfl⟩
theorem encChar : ∀ a b, Statement (.encChar a b) := fun _ _ => ⟨by decide, _, rfl⟩
theorem encBool : ∀ a b, Statement (.encBool a b) := fun _ _ => ⟨by decide, _, rfl⟩
theorem encInt8 : ∀ a b, Statement (.encInt8 a b) := fun _ _ => ⟨by decide, _, rfl⟩
theorem encUint8 : ∀ a b, Statement (.encUint8 a b) := fun _ _ => ⟨by decide, _, rfl⟩
theorem encInt16 : ∀ a b, Statement (.encInt16 a b) := fun _ _ => ⟨by decide, _, rfl⟩
theorem encUint16 : ∀ a b, Statement (.encUint16 a b) := fun _ _ => ⟨by decide, _, rfl⟩
theorem encUint32 : ∀ a b, Statement (.encUint32 a b) := fun _ _ => ⟨by decide, _, rfl⟩
theorem encUint64 : ∀ a b, Statement (.encUint64 a b) := fun _ _ => ⟨by decide, _, rfl⟩
theorem enca : ∀ a b c d e, Statement (.enca a b c d e) := fun _ _ _ _ _ => ⟨by decide, _, rfl⟩
theorem decChar : ∀ a b c, Statement (.decChar a b c) := fun _ _ _ => ⟨by decide, _, rfl⟩
theorem decBool : ∀ a b c, Statement (.decBool a b c) := fun _ _ _ => ⟨by decide, _, rfl⟩
theorem decInt8 : ∀ a b c, Statement (.decInt8 a b c) := fun _ _ _ => ⟨by decide, _, rfl⟩
theorem decUint8 : ∀ a b c, Statement (.decUint8 a b c) := fun _ _ _ => ⟨by decide, _, rfl⟩
theorem decInt16 : ∀ a b c, Statement (.decInt16 a b c) := fun _ _ _ => ⟨by decide, _, rfl⟩
theorem decUint16 : ∀ a b c, Statement (.decUint16 a b c) := fun _ _ _ => ⟨by decide, _, rfl⟩
theorem decUint32 : ∀ a b c, Statement (.decUint32 a b c) := fun _ _ _ => ⟨by decide, _, rfl⟩
theorem decUint64 : ∀ a b c, Statement (.decUint64 a b c) := fun _ _ _ => ⟨by decide, _, rfl⟩
theorem decBit : ∀ a b c d e f, Statement (.decBit a b c d e f) := fun _ _ _ _ _ _ => ⟨by decide, _, rfl⟩
theorem deca : ∀ a b c, Statement (.deca a b c) := fun _ _ _ => ⟨by decide, _, rfl⟩
theorem hexe : ∀ a, Statement (.hexe a) := fun _ => ⟨by decide, _, rfl⟩
theorem hexd : ∀ a b, Statement (.hexd a b) := fun _ _ => ⟨by decide, _, rfl⟩
theorem paye : ∀ a b, Statement (.paye a b) := fun _ _ => ⟨by decide, _, rfl⟩
theorem payd : ∀ a b, Statement (.payd a b) := fun _ _ => ⟨by decide, _, rfl⟩
theorem bldEnq : ∀ a, Statement (.bldEnq a) := fun _ => ⟨by decide, _, rfl⟩
theorem bldHdr : ∀ a b c d e f, Statement (.bldHdr a b c d e f) := fun _ _ _ _ _ _ => ⟨by decide, _, rfl⟩
theorem bldDb : ∀ a b c, Statement (.bldDb a b c) := fun _ _ _ => ⟨by decide, _, rfl⟩
theorem bldEot : Statement .bldEot := ⟨by decide, _, rfl⟩
theorem bldAck : Statement .bldAck := ⟨by decide, _, rfl⟩
theorem prsEnqAck : ∀ a, Statement (.prsEnqAck a) := fun _ => ⟨by decide, _, rfl⟩
theorem prsAck : ∀ a, Statement (.prsAck a) := fun _ => ⟨by decide, _, rfl⟩
theorem prsDb : ∀ a b c d e, Statement (.prsDb a b c d e) := fun _ _ _ _ _ => ⟨by decide, _, rfl⟩
theorem prsEot : ∀ a, Statement (.prsEot a) := fun _ => ⟨by decide, _, rfl⟩
theorem prsHdr : ∀ a b, Statement (.prsHdr a b) := fun _ _ => ⟨by decide, _, rfl⟩
theorem blkmath : ∀ a b c, Statement (.blkmath a b c) := fun _ _ _ => ⟨by decide, _, rfl⟩
theorem expect : ∀ a b c, Statement (.expect a b c) := fun _ _ _ => ⟨by decide, _, rfl⟩
theorem cfg : ∀ a, Statement (.cfg a) := fun _ => ⟨by decide, _, rfl⟩
theorem poll : Statement .poll := ⟨by decide, _, rfl⟩
theorem wrq : ∀ a b, Statement (.wrq a b) := fun _ _ => ⟨by decide, _, rfl⟩
theorem rxb : ∀ a, Statement (.rxb a) := fun _ => ⟨by decide, _, rfl⟩
theorem txc : Statement .txc := ⟨by decide, _, rfl⟩
theorem tmo : Statement .tmo := ⟨by decide, _, rfl⟩
theorem dbt : Statement .dbt := ⟨by decide, _, rfl⟩
theorem cls : Statement .cls := ⟨by decide, _, rfl⟩
theorem cpt : Statement .cpt := ⟨by decide, _, rfl⟩
theorem srd : ∀ a b, Statement (.srd a b) := fun _ _ => ⟨by decide, _, rfl⟩
theorem swr : ∀ a b c, Statement (.swr a b c) := fun _ _ _ => ⟨by decide, _, rfl⟩
theorem abort : ∀ a b, Statement (.abort a b) := fun _ _ => ⟨by decide, _, rfl⟩
theorem finish : ∀ a, Statement (.finish a) := fun _ => ⟨by decide, _, rfl⟩
theorem frameEnq : ∀ a, Statement (.frameEnq a) := fun _ => ⟨_, _, _, rfl⟩
theorem frameHdrHex : ∀ a b, Statement (.frameHdrHex a b) := fun _ _ => ⟨_, _, _, rfl⟩
theorem frameHdrAscii : ∀ a b c, Statement (.frameHdrAscii a b c) := fun _ _ _ => ⟨_, _, _, rfl⟩
theorem frameDbHex : ∀ a b c, Statement (.frameDbHex a b c) := fun _ _ _ => ⟨_, _, _, rfl⟩
theorem frameDbAscii : ∀ a b c d, Statement (.frameDbAscii a b c d) := fun _ _ _ _ => ⟨_, _, _, rfl⟩
theorem frameEot : Statement .frameEot := ⟨_, _, _, rfl⟩
theorem frameAck : Statement .frameAck := ⟨_, _, _, rfl⟩
theorem frameEnqRsp : ∀ a b, Statement (.frameEnqRsp a b) := fun _ _ => ⟨_, _, _, rfl⟩
theorem frameDbFirst : ∀ a b c, Statement (.frameDbFirst a b c) := fun _ _ _ => ⟨_, _, _, rfl⟩

end Sys2Proof.Laws.OpNumber
end

