-- ==== Sys2Proof/Laws/Reception.lean ====
section
/-! SUPPORT. Reception and the six phase rules keep the invariant (R268, R272, R291 to R296, R311 to R313). -/

namespace Sys2Proof.Machine

theorem Core.of_active {s t : State} (h : Core s) {r : Request} (hr : s.ses.req = some r)
    (hk : Kept s t) (hs : t.sch = s.sch) (hq : t.ses.req = some r)
    (hi : SessionInv s.par s.cfg t.ses) : Core t where
  session := by rw [hk.par, hk.cfg]; exact hi
  sched :=
    { configured := by rw [hs, hk.par, hk.cfg]; exact h.sched.configured
      rest := fun _ e => by have := hi.req_iff.mp e; rw [hq] at this; cases this
      reading := by rw [hs, hq, ← hr]; exact h.sched.reading
      cycle := by rw [hs, hk.cfg]; exact h.sched.cycle
      readPending := by rw [hs, hq, ← hr]; exact h.sched.readPending
      debounce := by rw [hs]; exact h.sched.debounce
      quiet := fun e => by
        rw [hs] at e
        have := h.session.req_iff.mp (h.sched.quiet e).1
        rw [hr] at this; cases this
      pending := by rw [hs, hk.par, hk.cfg]; exact h.sched.pending
      latched := by rw [hs, hk.cfg]; exact h.sched.latched
      latched_once := by rw [hs]; exact h.sched.latched_once }


theorem ActiveInv.numBytes {p : Config.Params} {c : Cfg} {z : Session} {r : Request}
    (h : ActiveInv p c z r) : 1 ≤ r.numBytes ∧ r.numBytes ≤ p.accMax ∧
      (p.hdrCountRule = .requiredAndLast → z.blocksRequired ≤ 255) ∧
      z.blocksRequired = (blockCounts r.numBytes).1 := by
  have hs := h.descr.size r.xa h.xlt
  have e := h.sizes
  rw [h.count] at e
  rw [e] at hs
  refine ⟨hs.1, hs.2.1, hs.2.2, ?_⟩
  simp only [blkmath, Sizes.mk.injEq] at e
  obtain ⟨e1, e2, -⟩ := e
  rw [← e2, e1]

theorem ActiveInv.blockSizes {p : Config.Params} {c : Cfg} {z : Session} {r : Request}
    (h : ActiveInv p c z r) : 1 ≤ z.blocksRequired ∧ 1 ≤ z.lastBlockSize ∧ z.lastBlockSize ≤ 256 ∧
      256 * (z.blocksRequired - 1) + z.lastBlockSize = r.numBytes :=
  blkmath_sizes h.sizes h.numBytes.1

theorem sessionHeader_ok {s : State} {r : Request} (ha : s.par.accMax ≤ 65535)
    (h : ActiveInv s.par s.cfg s.ses r) (d : Dir) :
    ∃ f, sessionHeader { r with dir := d } s = .ok f := by
  have hn := h.numBytes
  obtain ⟨f, hf⟩ := bldHdr_ok (p := s.par) (st := s.cfg.station) (dir := d)
    (mt := r.var.memoryType) (ref := r.xa.ref) (n := r.numBytes) (m := s.cfg.mode) (by omega)
    (by rw [← hn.2.2.2]; exact hn.2.2.1)
  exact ⟨f, by simp [sessionHeader, hf]⟩




/-- Entering a phase with a frame just sent. -/
theorem SessionInv.enter {p : Config.Params} {c : Cfg} {z : Session} {r : Request} {st : SState}
    {k : TimerId} (hst : timerOf st = some k)
    (hw : z.blocksRequired ≤ 256 ∧ z.lastBlockSize ≤ 256 ∧ z.expectedByteCount ≤ 261)
    (hb : z.blocksDone ≤ z.blocksRequired) (hq : z.req = some r) (ht : 1 ≤ z.txOutstanding)
    (ha : ActiveInv p c { z with state := st, rx := [], timer := .disarmed, armOnTxc := some k } r) :
    SessionInv p c { z with state := st, rx := [], timer := .disarmed, armOnTxc := some k } where
  req_iff := by
    constructor
    · rintro rfl; cases hst
    · simp [hq]
  idle_reset := by rintro rfl; cases hst
  armed := by simp
  waiting := by
    intro k' e
    simp only [Option.some.injEq] at e
    subst e
    exact ⟨hst, ht⟩
  blocks := hb
  widths := hw
  active := by
    intro r' e
    simp only [hq, Option.some.injEq] at e
    subst e
    exact ha




/-- A state inside the step of a reception: the bytes are appended, the phase is complete. -/
structure Received (s s' : State) (r : Request) (rx : Bytes) : Prop where
  core : Core s
  accMax : s.par.accMax ≤ 65535
  req : s.ses.req = some r
  eq : s' = { s with ses := { s.ses with rx := rx } }
  need : needBytes s.ses ≤ rx.length

variable {s s' : State} {r : Request} {rx : Bytes}

theorem Received.active (h : Received s s' r rx) : ActiveInv s.par s.cfg s.ses r :=
  h.core.session.active r h.req
theorem Received.ending (h : Received s s' r rx) : Ending s' r := by
  have := h.core.ending h.accMax h.req
  obtain ⟨_, _, _, rfl, _⟩ := h
  exact { this with req := this.req }
theorem Received.kept (h : Received s s' r rx) : Kept s s' := by
  obtain ⟨_, _, _, rfl, _⟩ := h; exact ⟨rfl, rfl, rfl⟩

theorem Received.abort (h : Received s s' r rx) (k : AlertKey) (b : Bool) :
    ∃ t, takeAbort k b s' = .ok t ∧ Core t ∧ Kept s t := by
  obtain ⟨t, e, ct, kt⟩ := h.ending.takeAbort k b
  exact ⟨t, e, ct, h.kept.trans kt⟩

theorem checkLen_le (m : Mode) : 1 ≤ checkLen m ∧ checkLen m ≤ 2 := by cases m <;> simp [checkLen]

theorem expect_le (a : Bool) (n : Nat) (m : Mode) (h : n ≤ 256) : expect a n m ≤ 261 ∧ 1 ≤ expect a n m := by
  have := checkLen_le m
  unfold expect; cases a <;> simp <;> omega

theorem blockSizeOf_le {z : Session} (h : z.lastBlockSize ≤ 256) (i : Nat) : blockSizeOf z i ≤ 256 := by
  unfold blockSizeOf Config.blockSize; split <;> omega

theorem Received.readEnqAck (h : Received s s' r rx) (hst : s.ses.state = .waitReadEnqAck) :
    ∃ t, phaseReadEnqAck s' = .ok t ∧ Core t ∧ Kept s t := by
  have A := h.active
  have hneed := h.need
  rw [needBytes, hst] at hneed
  have B := A.blockSizes
  have hd : r.dir = .read := by have := A.dir; rw [hst] at this; exact (Option.some.inj this).symm
  obtain ⟨v, hv⟩ := prsEnqAck_ok hneed
  obtain ⟨f, hf⟩ := sessionHeader_ok h.accMax A .read
  have habort := h.abort .enqAckNotReceivedError false
  obtain ⟨hc, ha, hreq, rfl, _⟩ := h
  cases v with
  | fail k => rw [phaseReadEnqAck_fail (s := { s with ses := { s.ses with rx := rx } }) (r := r) hreq hv]; exact habort
  | ok _ =>
    have h0 := A.started (.inl hst)
    rw [phaseReadEnqAck_ok (s := { s with ses := { s.ses with rx := rx } }) (r := r) hreq hv hf]
    refine ⟨_, rfl, hc.of_active hreq ⟨rfl, rfl, rfl⟩ rfl hreq ?_, ⟨rfl, rfl, rfl⟩⟩
    have hbs := blockSizeOf_le B.2.2.1 (i := 0)
    have := SessionInv.enter (p := s.par) (c := s.cfg) (r := r) (st := .waitReadDataBlock) (k := .t2)
      (z := { s.ses with
        txOutstanding := s.ses.txOutstanding + 1
        expectedByteCount := expect true (blockSizeOf s.ses 0) s.cfg.mode
        rx := rx }) rfl
      ⟨hc.session.widths.1, hc.session.widths.2.1, (expect_le _ _ _ hbs).1⟩ hc.session.blocks hreq
      (by show 1 ≤ _ + 1; omega)
      { A with
        dir := by rw [hd]; rfl
        acc := A.acc
        started := by simp
        expected := by
          intro _
          simp only [h0]
          exact ⟨by omega, rfl⟩
        complete := by simp
        short := by
          show 0 < expect true (blockSizeOf s.ses 0) s.cfg.mode
          have := (expect_le true _ s.cfg.mode hbs).2
          omega }
    exact this

theorem Received.readBlock (h : Received s s' r rx) (hst : s.ses.state = .waitReadDataBlock) :
    ∃ t, phaseReadBlock s' = .ok t ∧ Core t ∧ Kept s t := by
  have A := h.active
  have hneed := h.need
  rw [needBytes, hst] at hneed
  have B := A.blockSizes
  have hd : r.dir = .read := by have := A.dir; rw [hst] at this; exact (Option.some.inj this).symm
  have hx := A.expected hst
  obtain ⟨v, hv, hlen⟩ := prsDb_ok (p := s.par) (rx := rx) (a := decide (s.ses.blocksDone = 0))
    (f := isFinalBlock s.ses s.ses.blocksDone) (size := blockSizeOf s.ses s.ses.blocksDone)
    (m := s.cfg.mode) (by rw [← hx.2]; exact hneed)
  have habort := fun k => h.abort k false
  obtain ⟨hc, ha, hreq, rfl, _⟩ := h
  cases v with
  | fail k => rw [phaseReadBlock_fail (s := { s with ses := { s.ses with rx := rx } }) hv]; exact habort _
  | ok pl =>
    rw [phaseReadBlock_ok (s := { s with ses := { s.ses with rx := rx } }) hv]
    have hpl := hlen pl rfl
    refine ⟨_, rfl, ?_, ?_⟩
    · have hacc := A.acc hd
      rw [if_pos hx.1] at hacc
      by_cases hlt : s.ses.blocksDone + 1 < s.ses.blocksRequired
      · rw [acceptBlock_more (s := { s with ses := { s.ses with rx := rx } }) hlt]
        have hbs := blockSizeOf_le (z := s.ses) B.2.2.1 (i := s.ses.blocksDone + 1)
        refine hc.of_active hreq ⟨rfl, rfl, rfl⟩ rfl hreq ?_
        have hb : blockSizeOf s.ses s.ses.blocksDone = 256 := by
          unfold blockSizeOf; rw [if_pos hlt]; rfl
        have := SessionInv.enter (p := s.par) (c := s.cfg) (r := r) (st := .waitReadDataBlock) (k := .t2)
          (z := { s.ses with
            acc := s.ses.acc ++ pl
            blocksDone := s.ses.blocksDone + 1
            txOutstanding := s.ses.txOutstanding + 1
            expectedByteCount := expect false (blockSizeOf s.ses (s.ses.blocksDone + 1)) s.cfg.mode
            rx := rx }) rfl
          ⟨hc.session.widths.1, hc.session.widths.2.1, (expect_le _ _ _ hbs).1⟩
          (by show s.ses.blocksDone + 1 ≤ s.ses.blocksRequired; omega) hreq
          (by show 1 ≤ _ + 1; omega)
          { A with
            dir := by rw [hd]; rfl
            acc := by
              intro _
              show (s.ses.acc ++ pl).length = if s.ses.blocksDone + 1 < s.ses.blocksRequired then 256 * (s.ses.blocksDone + 1) else r.numBytes
              rw [if_pos hlt, List.length_append, hacc, hpl, hb]; omega
            wire := by rw [hd]; simp
            started := by simp
            expected := by
              intro _
              refine ⟨hlt, ?_⟩
              show expect false _ _ = expect (decide (s.ses.blocksDone + 1 = 0)) _ _
              rw [decide_eq_false (by omega)]; rfl
            complete := by simp
            short := by
              show 0 < expect false (blockSizeOf s.ses (s.ses.blocksDone + 1)) s.cfg.mode
              have := (expect_le false _ s.cfg.mode hbs).2
              omega }
        exact this
      · rw [acceptBlock_last (s := { s with ses := { s.ses with rx := rx } }) hlt]
        have he : s.ses.blocksDone + 1 = s.ses.blocksRequired := by omega
        refine hc.of_active hreq ⟨rfl, rfl, rfl⟩ rfl hreq ?_
        have hb : blockSizeOf s.ses s.ses.blocksDone = s.ses.lastBlockSize := by
          unfold blockSizeOf; rw [if_neg hlt]
        have := SessionInv.enter (p := s.par) (c := s.cfg) (r := r) (st := .waitReadEot) (k := .t3)
          (z := { s.ses with
            acc := s.ses.acc ++ pl
            blocksDone := s.ses.blocksDone + 1
            txOutstanding := s.ses.txOutstanding + 1
            rx := rx }) rfl
          hc.session.widths
          (by show s.ses.blocksDone + 1 ≤ s.ses.blocksRequired; omega) hreq
          (by show 1 ≤ _ + 1; omega)
          { A with
            dir := by rw [hd]; rfl
            acc := by
              intro _
              show (s.ses.acc ++ pl).length = if s.ses.blocksDone + 1 < s.ses.blocksRequired then 256 * (s.ses.blocksDone + 1) else r.numBytes
              rw [if_neg hlt, List.length_append, hacc, hpl, hb, ← B.2.2.2]; congr 2; omega
            wire := by rw [hd]; simp
            started := by simp
            expected := by simp
            complete := fun _ => he
            short := by show 0 < 1; omega }
        exact this
    · by_cases hlt : s.ses.blocksDone + 1 < s.ses.blocksRequired
      · rw [acceptBlock_more (s := { s with ses := { s.ses with rx := rx } }) hlt]; exact ⟨rfl, rfl, rfl⟩
      · rw [acceptBlock_last (s := { s with ses := { s.ses with rx := rx } }) hlt]; exact ⟨rfl, rfl, rfl⟩

theorem Received.readEot (h : Received s s' r rx) (hst : s.ses.state = .waitReadEot) :
    ∃ t, phaseReadEot s' = .ok t ∧ Core t ∧ Kept s t := by
  have A := h.active
  have hneed := h.need
  rw [needBytes, hst] at hneed
  have hd : r.dir = .read := by have := A.dir; rw [hst] at this; exact (Option.some.inj this).symm
  have hacc := A.acc hd
  rw [A.complete (.inl hst), if_neg (lt_irrefl _)] at hacc
  have hsz : s.ses.acc.length = (blkmath r.xa.bpe r.var.elementCount s.cfg.mode).numBytes := by
    rw [← A.count, A.sizes]; exact hacc
  obtain ⟨v, hv⟩ := prsEot_ok hneed
  have habort := h.abort .eotNotReceivedError false
  have hend := h.ending
  have hk := h.kept
  have hs' : s'.ses.req = some r ∧ s'.ses.rx = rx ∧ s'.ses.acc = s.ses.acc ∧ s'.cfg = s.cfg ∧ s'.par = s.par := by
    obtain ⟨_, _, hq, rfl, _⟩ := h; exact ⟨hq, rfl, rfl, rfl, rfl⟩
  rw [← hs'.2.1] at hv
  cases v with
  | fail k => rw [phaseReadEot_fail hs'.1 hv]; exact habort
  | ok _ =>
    rw [phaseReadEot_ok hs'.1 hv]
    have hend2 : Ending (send bldEot s') r := hend.of hs'.1 rfl ⟨rfl, rfl, rfl⟩
    cases hp : payd s.ses.acc s.cfg.mode with
    | none =>
      rw [decodeRead_notHex (by rw [send_acc, send_cfg, hs'.2.2.1, hs'.2.2.2.1, hp])]
      have h3 : Ending (raiseAlert .payloadFormatError r.var.name (send bldEot s')) r :=
        hend2.of hs'.1 rfl ⟨rfl, rfl, rfl⟩
      obtain ⟨t, e, ct, kt⟩ := h3.endSession (.readFail false) hd.symm
      exact ⟨t, e, ct, hk.trans ⟨kt.par, kt.cfg, kt.inbox⟩⟩
    | some raw =>
      obtain ⟨val, hval⟩ := deca_ok (p := s.par) (w := r.xa.bpe) (b := raw) A.descr
        (by rw [payd_raw hsz hp])
      obtain ⟨t, e, ct, kt⟩ := hend2.endSession (.readOk val) hd.symm
      rw [decodeRead_ok (by rw [send_acc, send_cfg, hs'.2.2.1, hs'.2.2.2.1, hp])
        (by rw [send_par, hs'.2.2.2.2]; exact hval)]
      exact ⟨t, e, ct, hk.trans ⟨kt.par, kt.cfg, kt.inbox⟩⟩

theorem Received.writeEnqAck (h : Received s s' r rx) (hst : s.ses.state = .waitWriteEnqAck) :
    ∃ t, phaseWriteEnqAck s' = .ok t ∧ Core t ∧ Kept s t := by
  have A := h.active
  have hneed := h.need
  rw [needBytes, hst] at hneed
  have hd : r.dir = .write := by have := A.dir; rw [hst] at this; exact (Option.some.inj this).symm
  obtain ⟨v, hv⟩ := prsEnqAck_ok hneed
  obtain ⟨f, hf⟩ := sessionHeader_ok h.accMax A .write
  have habort := h.abort .enqAckNotReceivedError false
  obtain ⟨hc, ha, hreq, rfl, _⟩ := h
  cases v with
  | fail k => rw [phaseWriteEnqAck_fail (s := { s with ses := { s.ses with rx := rx } }) (r := r) hreq hv]; exact habort
  | ok _ =>
    rw [phaseWriteEnqAck_ok (s := { s with ses := { s.ses with rx := rx } }) (r := r) hreq hv hf]
    refine ⟨_, rfl, hc.of_active hreq ⟨rfl, rfl, rfl⟩ rfl hreq ?_, ⟨rfl, rfl, rfl⟩⟩
    have := SessionInv.enter (p := s.par) (c := s.cfg) (r := r) (st := .waitWriteDataBlockAck) (k := .t4)
      (z := { s.ses with
        txOutstanding := s.ses.txOutstanding + 1
        rx := rx }) rfl hc.session.widths hc.session.blocks hreq
      (by show 1 ≤ _ + 1; omega)
      { A with
        dir := by rw [hd]; rfl
        acc := by rw [hd]; simp
        wire := A.wire
        started := by simp
        expected := by simp
        complete := by simp
        short := by show 0 < 1; omega }
    exact this

theorem Received.writeAck (h : Received s s' r rx) (hst : s.ses.state = .waitWriteDataBlockAck) :
    ∃ t, phaseWriteAck s' = .ok t ∧ Core t ∧ Kept s t := by
  have A := h.active
  have B := A.blockSizes
  have hneed := h.need
  rw [needBytes, hst] at hneed
  have hd : r.dir = .write := by have := A.dir; rw [hst] at this; exact (Option.some.inj this).symm
  obtain ⟨v, hv⟩ := prsAck_ok hneed
  have habort := h.abort .ackNotReceivedError false
  obtain ⟨hc, ha, hreq, rfl, _⟩ := h
  cases v with
  | fail k => rw [phaseWriteAck_fail (s := { s with ses := { s.ses with rx := rx } }) (r := r) hreq hv]; exact habort
  | ok _ =>
    by_cases hlt : s.ses.blocksDone < s.ses.blocksRequired
    · have hw := (A.wire hd).1
      have hlen : (split r.wire r.numBytes s.ses.blocksRequired s.ses.blocksDone).1.length =
          min (256 * (s.ses.blocksDone + 1)) r.numBytes - 256 * s.ses.blocksDone := by
        simp only [split, Config.blockSize]
        rw [slice_length (by omega)]
      have hf : ∃ f, bldDb (split r.wire r.numBytes s.ses.blocksRequired s.ses.blocksDone).1
          (split r.wire r.numBytes s.ses.blocksRequired s.ses.blocksDone).2 s.cfg.mode = .ok f := by
        unfold bldDb
        rw [if_neg (by simp only [Config.blockSize]; omega)]
        simp only [chk]
        rw [if_pos (by simp)]
        exact ⟨_, rfl⟩
      obtain ⟨f, hf⟩ := hf
      rw [phaseWriteAck_block (s := { s with ses := { s.ses with rx := rx } }) (r := r) hreq hv hlt hf]
      refine ⟨_, rfl, hc.of_active hreq ⟨rfl, rfl, rfl⟩ rfl hreq ?_, ⟨rfl, rfl, rfl⟩⟩
      have := SessionInv.enter (p := s.par) (c := s.cfg) (r := r) (st := .waitWriteDataBlockAck) (k := .t4)
        (z := { s.ses with
          txOutstanding := s.ses.txOutstanding + 1
          blocksDone := s.ses.blocksDone + 1
          rx := rx }) rfl hc.session.widths (by show s.ses.blocksDone + 1 ≤ s.ses.blocksRequired; omega) hreq
        (by show 1 ≤ _ + 1; omega)
        { A with
          dir := by rw [hd]; rfl
          acc := by rw [hd]; simp
          wire := A.wire
          started := by simp
          expected := by simp
          complete := by simp
          short := by show 0 < 1; omega }
      exact this
    · have hb := hc.session.blocks
      rw [phaseWriteAck_eot (s := { s with ses := { s.ses with rx := rx } }) (r := r) hreq hv hlt]
      refine ⟨_, rfl, hc.of_active hreq ⟨rfl, rfl, rfl⟩ rfl hreq ?_, ⟨rfl, rfl, rfl⟩⟩
      have := SessionInv.enter (p := s.par) (c := s.cfg) (r := r) (st := .waitWriteEot) (k := .t4)
        (z := { s.ses with
          txOutstanding := s.ses.txOutstanding + 1
          rx := rx }) rfl hc.session.widths hc.session.blocks hreq
        (by show 1 ≤ _ + 1; omega)
        { A with
          dir := by rw [hd]; rfl
          acc := by rw [hd]; simp
          wire := A.wire
          started := by simp
          expected := by simp
          complete := fun _ => by show s.ses.blocksDone = s.ses.blocksRequired; omega
          short := by show 0 < 1; omega }
      exact this

theorem Received.writeEot (h : Received s s' r rx) (hst : s.ses.state = .waitWriteEot) :
    ∃ t, phaseWriteEot s' = .ok t ∧ Core t ∧ Kept s t := by
  have A := h.active
  have hneed := h.need
  rw [needBytes, hst] at hneed
  have hd : r.dir = .write := by have := A.dir; rw [hst] at this; exact (Option.some.inj this).symm
  obtain ⟨v, hv⟩ := prsAck_ok hneed
  have habort := h.abort .ackNotReceivedError false
  have hrx : s'.ses.rx = rx := by obtain ⟨_, _, _, rfl, _⟩ := h; rfl
  rw [← hrx] at hv
  cases v with
  | fail k => rw [phaseWriteEot_fail hv]; exact habort
  | ok _ =>
    rw [phaseWriteEot_ok hv]
    obtain ⟨t, e, ct, kt⟩ := h.ending.endSession .writeOk hd.symm
    exact ⟨t, e, ct, h.kept.trans kt⟩

theorem receive_core {s : State} (h : Core s) (ha : s.par.accMax ≤ 65535) (chunk : Bytes) :
    ∃ t, receive chunk s = .ok t ∧ Core t ∧ Kept s t := by
  unfold receive
  by_cases hi : s.ses.state = .idle
  · rw [if_pos hi]; exact ⟨s, rfl, h, Kept.refl s⟩
  · rw [if_neg hi]
    obtain ⟨r, hr⟩ : ∃ r, s.ses.req = some r := by
      cases e : s.ses.req with
      | none => exact absurd (h.session.req_iff.mpr e) hi
      | some r => exact ⟨r, rfl⟩
    have A := h.session.active r hr
    dsimp only
    have hneq : needBytes { s.ses with rx := s.ses.rx ++ chunk } = needBytes s.ses := rfl
    rw [hneq]
    split
    · rename_i hlt
      refine ⟨_, rfl, h.of_active hr ⟨rfl, rfl, rfl⟩ rfl hr ?_, ⟨rfl, rfl, rfl⟩⟩
      exact { h.session with
        idle_reset := fun e => absurd e hi
        active := by
          intro r' e
          have e' : s.ses.req = some r' := e
          exact { h.session.active r' e' with
            expected := (h.session.active r' e').expected
            short := hlt } }
    · rename_i hlt
      have R : Received s { s with ses := { s.ses with rx := s.ses.rx ++ chunk } } r (s.ses.rx ++ chunk) :=
        ⟨h, ha, hr, rfl, by omega⟩
      unfold runPhase
      dsimp only
      cases hst : s.ses.state with
      | idle => exact absurd hst hi
      | waitReadEnqAck => exact R.readEnqAck hst
      | waitReadDataBlock => exact R.readBlock hst
      | waitReadEot => exact R.readEot hst
      | waitWriteEnqAck => exact R.writeEnqAck hst
      | waitWriteDataBlockAck => exact R.writeAck hst
      | waitWriteEot => exact R.writeEot hst

end Sys2Proof.Machine
end

