-- ==== Sys2Proof/Laws/Scheduler.lean ====
section
/-! SUPPORT. The configuration check in terms of R332, and `CFG` and `TXC` keep the invariant (R332, R266). -/

namespace Sys2Proof.Machine

theorem knownFormat_iff (f : Format) : knownFormat f = true ↔
    f ∈ [Format.char, .bool, .int8, .uint8, .int16, .uint16, .uint32, .uint64] := by
  cases f <;> simp [knownFormat]

theorem wfBitIndex_iff (b : Option Nat) : wfBitIndex b = true ↔ ∀ i, b = some i → i ≤ 7 := by
  cases b <;> simp [wfBitIndex]

theorem sizeOk_iff (p : Config.Params) (m : Mode) (v : VarDescr) : sizeOk p m v = true ↔
    ∀ xa, xltVar v = some xa →
      1 ≤ (blkmath xa.bpe v.elementCount m).numBytes ∧
      (blkmath xa.bpe v.elementCount m).numBytes ≤ p.accMax ∧
      (p.hdrCountRule = .requiredAndLast → (blkmath xa.bpe v.elementCount m).blocksRequired ≤ 255) := by
  unfold sizeOk
  cases xltVar v with
  | none => simp
  | some xa => cases p.hdrCountRule <;> simp [and_assoc]

theorem varOk_iff (p : Config.Params) (m : Mode) (v : VarDescr) : varOk p m v = true ↔ DescrAccepted p m v := by
  unfold varOk
  simp only [Bool.and_eq_true, knownFormat_iff, wfBitIndex_iff, sizeOk_iff, decide_eq_true_eq,
    Bool.or_eq_true, Bool.not_eq_true']
  constructor
  · rintro ⟨⟨⟨⟨h1, h2⟩, h3⟩, h4⟩, h5⟩
    exact ⟨h1, h2, h3, fun e => by rcases h4 with h | h; rw [h] at e; cases e; exact h, h5⟩
  · rintro ⟨h1, h2, h3, h4, h5⟩
    refine ⟨⟨⟨⟨h1, h2⟩, h3⟩, ?_⟩, h5⟩
    cases e : v.isArray
    · exact .inl rfl
    · exact .inr (h4 e)

theorem cfgOk_iff (p : Config.Params) (c : Cfg) : cfgOk p c = true ↔ ConfigAccepted p c := by
  unfold cfgOk
  simp only [Bool.and_eq_true, decide_eq_true_eq, List.all_eq_true, varOk_iff]
  constructor
  · rintro ⟨⟨⟨⟨⟨h1, h2⟩, h3⟩, h4⟩, h5⟩, h6⟩; exact ⟨h1, h2, h3, h4, h5, h6⟩
  · rintro ⟨h1, h2, h3, h4, h5, h6⟩; exact ⟨⟨⟨⟨⟨h1, h2⟩, h3⟩, h4⟩, h5⟩, h6⟩

variable {s : State}

theorem completeTx_core (h : Core s) : Core (completeTx s) := by
  have hs := h.session
  have key : ∀ z : Session, SessionInv s.par s.cfg z → z.state = s.ses.state → z.req = s.ses.req →
      z.txOutstanding ≤ s.ses.txOutstanding → Core { s with ses := z } := by
    intro z hz h1 h2 h3
    exact ⟨hz, { h.sched with
      rest := fun a b => h.sched.rest a (h1 ▸ b)
      reading := fun r e => h.sched.reading r (h2 ▸ e)
      readPending := fun e => by have := h.sched.readPending e; rw [← h2] at this; exact this
      quiet := fun e => by
        obtain ⟨q1, q2, q3, q4, q5, q6⟩ := h.sched.quiet e
        exact ⟨h1.trans q1, q2, q3, q4, q5, Nat.le_zero.mp (q6 ▸ h3)⟩ }⟩
  unfold completeTx
  dsimp only
  split
  · rename_i k e1 e2
    refine key _ ?_ rfl rfl (Nat.zero_le _)
    have hw := hs.waiting _ e2
    exact { hs with
      idle_reset := fun e => by rw [show s.ses.state = .idle from e] at hw; cases hw.1
      armed := by
        intro k' e
        simp only [Timer.armed.injEq] at e
        subst e
        exact ⟨rfl, hw.1⟩
      waiting := by simp
      active := fun r e => { hs.active r e with
        expected := (hs.active r e).expected, short := (hs.active r e).short } }
  · rename_i hx
    refine key _ ?_ rfl rfl (Nat.sub_le _ _)
    exact { hs with
      idle_reset := fun e => by
        have := hs.idle_reset e
        show ({ s.ses with txOutstanding := _ } : Session) = _
        rw [this]
      waiting := by
        intro k e
        have hw := hs.waiting k e
        refine ⟨hw.1, ?_⟩
        show 1 ≤ s.ses.txOutstanding - 1
        by_contra hc
        exact hx k (by omega) e
      active := fun r e => { hs.active r e with
        expected := (hs.active r e).expected, short := (hs.active r e).short } }

theorem setRaisedOut_core (h : Core s) (o : List Output) (r : BitVec 15) : Core { s with out := o, raised := r } :=
  ⟨h.session, { h.sched with }⟩

theorem loadCfg_core (h : Core s) (hi : s.ses.state = .idle) (hr : s.sch.run = .running ∨ s.sch.run = .unconfigured)
    {c : Cfg} (hc : ConfigAccepted s.par c) : Core (loadCfg c s) := by
  have e : ∃ o b, loadCfg c s =
      { s with cfg := c, sch := { s.sch with invalidLatched := [], run := .running }, out := o, raised := b } := by
    unfold loadCfg
    dsimp only
    generalize hu : (clearAlerts configClass { s with cfg := c, sch := { s.sch with invalidLatched := [] } }) = u
    have h1 : u.cfg = c := by rw [← hu]; simp
    have h2 : u.ses = s.ses := by rw [← hu]; simp
    have h3 : u.sch = { s.sch with invalidLatched := [] } := by rw [← hu]; simp
    have h4 : u.par = s.par := by rw [← hu]; simp
    have h5 : u.inbox = s.inbox := by rw [← hu]; simp
    have h6 : u.reply = s.reply := by rw [← hu]; simp
    refine ⟨u.out, u.raised, ?_⟩
    rcases u with ⟨a, b, c, d, e, f, g, i⟩
    simp only at h1 h2 h3 h4 h5 h6
    subst h1 h2 h3 h4 h5 h6
    rfl
  obtain ⟨o, b, e⟩ := e
  rw [e]
  have hq := h.session.req_iff.mp hi
  have hrest : s.sch.cycle = none ∧ s.sch.pendingWrite = none ∧ s.sch.readPending = false := by
    rcases hr with hr | hr
    · exact h.sched.rest hr hi
    · obtain ⟨-, q2, q3, q4, -, -⟩ := h.sched.quiet (.inl hr)
      exact ⟨q2, q3, q4⟩
  exact
  ⟨{ h.session with active := fun r e => by rw [show s.ses.req = some r from e] at hq; cases hq },
   { configured := fun _ => hc
     rest := fun _ _ => hrest
     reading := fun r e => by rw [show s.ses.req = some r from e] at hq; cases hq
     cycle := fun c e => by rw [show s.sch.cycle = some c from e] at hrest; cases hrest.1
     readPending := fun e => by rw [show s.sch.readPending = true from e] at hrest; cases hrest.2.2
     debounce := h.sched.debounce
     quiet := by simp
     pending := fun c e => by rw [show s.sch.pendingWrite = some c from e] at hrest; cases hrest.2.1
     latched := by simp
     latched_once := by simp }⟩

theorem Core.between (h : Core s) (ha : s.par.accMax ≤ 65535) (hi : s.ses.state = .idle)
    (hr : s.sch.run = .running ∨ s.sch.run = .closing) : Between s where
  ses := ⟨_, h.session.idle_reset hi⟩
  accMax := ha
  configured := h.sched.configured (by rcases hr with e | e <;> rw [e] <;> simp)
  run := hr
  cycle := h.sched.cycle
  debounce := h.sched.debounce
  pending := h.sched.pending
  latched := h.sched.latched
  latched_once := h.sched.latched_once

end Sys2Proof.Machine
end

