-- ==== Sys2Proof/Laws/SessionEnd.lean ====
section
/-! SUPPORT. The end of a session in the plain terms of `Safety.lean`: what `DONE`, `ABORT` and
`FINISH_CLOSE` leave, and what a run of skipped variables leaves (R270, R271, R335 to R357). -/

namespace Sys2Proof.Machine

theorem failOutcome_eq (d : Dir) (b : Bool) : failOutcome d b = failureOf d b := by cases d <;> rfl

theorem takeAbort_eq {k : AlertKey} {b : Bool} {r : Request} {s : State} (hr : s.ses.req = some r) :
    takeAbort k b s = endSession (failureOf r.dir b) (aborted k r s) := by
  unfold takeAbort; rw [hr]; simp only [failOutcome_eq]; congr 1
  simp [raiseAlert, emit, send, aborted, setRaised, bldEot, Code.eot]

theorem connSuccess_eq (s : State) : connSuccess s = { s with
    out := s.out ++ upReports s
    sch := { s.sch with link := .reportedTrue, debounce := .disarmed } } := by
  unfold connSuccess upReports
  by_cases h : s.sch.link = .reportedTrue
  · simp [h]
  · simp [h]; rfl

theorem connFailure_eq (b : Bool) (s : State) : connFailure b s = { s with
    sch := { s.sch with
      debounce := if b = true ∧ s.sch.link ≠ .reportedFalse then .armed else s.sch.debounce } } := by
  unfold connFailure connTimeout
  cases b
  · rfl
  · simp only [if_true, true_and]
    by_cases h : s.sch.link ≠ .reportedFalse
    · rw [if_pos h]
      by_cases h2 : s.sch.debounce = .disarmed
      · rw [if_pos ⟨h, h2⟩]
      · rw [if_neg (fun e => h2 e.2)]
        have : s.sch.debounce = .armed := by
          cases e : s.sch.debounce
          · exact absurd e h2
          · rfl
        rw [← this]
    · rw [if_neg h, if_neg (fun e => h e.1)]

/-- `DONE` leaves what `afterSession` says, and then arbitrates (R271, R345). -/
theorem endSession_eq {o : SessionOutcome} {r : Request} {s : State} (hr : s.ses.req = some r)
    (hc : outcomeDir o = .read → ∃ c, s.sch.cycle = some c ∧ c.cursor < c.results.length) :
    endSession o s = arbitrate (afterSession r o s) := by
  unfold endSession; rw [hr]; simp only [onDone]
  cases o with
  | readOk v =>
    obtain ⟨c, h1, h2⟩ := hc rfl
    have : recordResult v (clearAlerts readClass (connSuccess (clearSession s))) =
        .ok (afterSession r (.readOk v) s) := by
      rw [clearAlerts_eq _ _ (by decide), connSuccess_eq]
      unfold recordResult
      simp only [clearSession, h1, h2, if_true]
      simp [afterSession, sessionEnded, h1, stored, upReports]
    show (recordResult v _ >>= arbitrate) = _
    rw [this]; rfl
  | readFail b =>
    obtain ⟨c, h1, h2⟩ := hc rfl
    have : recordResult .null (connFailure b (clearSession s)) =
        .ok (afterSession r (.readFail b) s) := by
      rw [connFailure_eq]
      unfold recordResult
      simp only [clearSession, h1, h2, if_true]
      simp [afterSession, sessionEnded, h1, stored]; congr
    show (recordResult .null _ >>= arbitrate) = _
    rw [this]; rfl
  | writeOk =>
    have : emit (.writeDone r.var.name true)
        (clearAlerts writeClass (connSuccess (clearSession s))) = afterSession r .writeOk s := by
      rw [clearAlerts_eq _ _ (by decide), connSuccess_eq]
      simp [afterSession, sessionEnded, clearSession, emit, upReports]; congr
    show arbitrate (emit _ _) = _
    rw [this]
  | writeFail b =>
    have : emit (.writeDone r.var.name false) (connFailure b (clearSession s)) =
        afterSession r (.writeFail b) s := by
      rw [connFailure_eq]; rfl
    show arbitrate (emit _ _) = _
    rw [this]

/-- What the end of a session leaves alone. -/
theorem afterSession_kept (r : Request) (o : SessionOutcome) (s : State) :
    (afterSession r o s).sch.run = s.sch.run ∧
    (afterSession r o s).sch.pendingWrite = s.sch.pendingWrite ∧
    (afterSession r o s).sch.readPending = s.sch.readPending ∧
    (afterSession r o s).sch.invalidLatched = s.sch.invalidLatched ∧
    (s.sch.cycle = none → (afterSession r o s).sch.cycle = none) ∧
    (afterSession r o s).par = s.par ∧ (afterSession r o s).cfg = s.cfg ∧
    (afterSession r o s).ses.state = .idle := by
  cases o <;> refine ⟨rfl, rfl, rfl, rfl, ?_, rfl, rfl, rfl⟩ <;> intro h <;> simp [afterSession, h]

/-- Nothing runs next while closing, or with nothing queued (R342). -/
theorem arbitrate_rest {s : State} (h : s.sch.run = .closing ∨
    s.sch.pendingWrite = none ∧ s.sch.cycle = none ∧ s.sch.readPending = false) :
    arbitrate s = .ok s := by
  unfold arbitrate
  by_cases hc : s.sch.run = .closing
  · rw [if_pos hc]
  · rcases h with h | ⟨h1, h2, h3⟩
    · exact absurd h hc
    · rw [if_neg hc, h1, h2, h3]; rfl

/-- With no write queued, the interrupted cycle goes on from its cursor (R342). -/
theorem arbitrate_resume {s : State} {c : ReadCycle} (hr : s.sch.run ≠ .closing)
    (hp : s.sch.pendingWrite = none) (hc : s.sch.cycle = some c) :
    arbitrate s = nextFrom (c.list.drop c.cursor) { s with sch := { s.sch with readPending := false } } := by
  unfold arbitrate; rw [if_neg hr, hp, hc]
  simp only [next, hc]

/-- A cycle whose cursor is at its end is published (R335, R338). -/
theorem arbitrate_publish {s : State} {c : ReadCycle} (hr : s.sch.run ≠ .closing)
    (hp : s.sch.pendingWrite = none) (hc : s.sch.cycle = some c) (hl : c.cursor = c.list.length) :
    arbitrate s = .ok { s with
      sch := { s.sch with cycle := none, readPending := false }
      out := s.out ++ List.zipWith (fun x y => Output.report x.name y) c.list c.results } := by
  rw [arbitrate_resume hr hp hc, hl, List.drop_length]
  simp only [nextFrom, flush, hc]; rfl

theorem finishClose_eq (s : State) : finishClose s = closeFinished s := by
  unfold finishClose closeFinished
  cases s.sch.pendingWrite <;> simp [emit]

/-- A run of variables that cannot be read is skipped in one go (R335, R336). -/
theorem nextFrom_skip : ∀ (pre rest : List VarDescr) (s : State), (pre.map VarDescr.name).Nodup →
    (∀ u ∈ pre, u.name ∈ s.sch.invalidLatched ∨ xltVar u = none) →
    nextFrom (pre ++ rest) s = nextFrom rest { skipped pre s with
      sch := { (skipped pre s).sch with
        cycle := s.sch.cycle.map fun c => { c with cursor := c.cursor + pre.length } } }
  | [], rest, s, hn, h => by simp [skipped, skipAlerts]
  | v :: pre, rest, s, hn, h => by
    have hn' := List.nodup_cons.mp hn
    have ih := nextFrom_skip pre rest
    have hcy : ((s.sch.cycle.map fun c => { c with cursor := c.cursor + 1 }).map fun c =>
        { c with cursor := c.cursor + pre.length }) =
        s.sch.cycle.map fun c => { c with cursor := c.cursor + (v :: pre).length } := by
      cases s.sch.cycle with
      | none => rfl
      | some c => simp only [Option.map_some, List.length_cons]; rw [Nat.add_assoc, Nat.add_comm 1]
    rw [List.cons_append, nextFrom]
    unfold startReadVar
    by_cases hl : v.name ∈ s.sch.invalidLatched
    · rw [if_pos hl]
      simp only
      rw [ih _ hn'.2 (fun u hu => by simpa [advanceCursor] using h u (by simp [hu]))]
      congr 1
      simp only [skipped, skipAlerts, advanceCursor, hcy]
      rw [List.filter_cons_of_neg (by simpa using hl)]
      rfl
    · rw [if_neg hl]
      have hx : xltVar v = none := by
        rcases h v (by simp) with h | h
        · exact absurd h hl
        · exact h
      rw [hx]
      simp only
      rw [ih _ hn'.2 (by
        intro u hu
        rcases h u (by simp [hu]) with h | h
        · left; simp [latchInvalid, raiseAlert, emit, advanceCursor, h]
        · exact .inr h)]
      congr 1
      have hne : ∀ u ∈ pre, u.name ≠ v.name := by
        intro u hu e; exact hn'.1 (by rw [← e]; exact List.mem_map_of_mem hu)
      have hf : (pre.filter fun u =>
          !decide (u.name ∈ s.sch.invalidLatched) && !decide (u.name = v.name)) =
          pre.filter fun u => !decide (u.name ∈ s.sch.invalidLatched) := by
        apply List.filter_congr; intro u hu; simp [hne u hu]
      have hk : ∀ mt, addressAlert mt = invalidKey mt := by intro mt; cases mt <;> rfl
      simp only [skipped, skipAlerts, advanceCursor, latchInvalid, raiseAlert, emit]
      rw [hcy]
      simp [hl, hk, sinkStep, setRaised, hf]

end Sys2Proof.Machine
end

