-- ==== Sys2Proof/Laws/Units.lean ====
section
/-! SUPPORT. What the checksum unit, the address translator and the hex helpers compute, in the plain
terms of `Safety.lean` (R130, R143, R144, R92, R93, R101, R201, R231). -/

namespace Sys2Proof.Machine

/-! ## Checksum (R130) -/

theorem xorInto_eq : ∀ (b : Bytes) (c : Byte), xorInto c b = c ^^^ xorOf b := by
  have g : ∀ (b : Bytes) (c : Byte), b.foldl (· ^^^ ·) c = c ^^^ b.foldl (· ^^^ ·) 0 := by
    intro b
    induction b with
    | nil => simp
    | cons x xs ih =>
      intro c
      simp only [List.foldl_cons]
      rw [ih (c ^^^ x), ih (0 ^^^ x)]
      simp [BitVec.xor_assoc]
  intro b
  induction b with
  | nil => intro c; simp [xorInto, xorOf]
  | cons x xs ih =>
    intro c
    rw [xorInto, ih, xorOf, xorOf, List.foldl_cons, g xs (0 ^^^ x)]
    simp [BitVec.xor_assoc]

theorem chk_eq (b : Bytes) (lo hi : Nat) : chk b lo hi =
    if lo ≤ hi ∧ hi ≤ b.length then .ok (xorOf (slice b lo hi)) else .error .badRange := by
  unfold chk; rw [xorInto_eq]; simp

theorem xorInto_append (a b : Bytes) : ∀ c, xorInto c (a ++ b) = xorInto (xorInto c a) b := by
  induction a with
  | nil => intro c; rfl
  | cons x xs ih => intro c; exact ih _

theorem xorOf_append (a b : Bytes) : xorOf (a ++ b) = xorOf a ^^^ xorOf b := by
  have := xorInto_append a b 0
  rw [xorInto_eq, xorInto_eq, xorInto_eq] at this
  simpa using this

/-! ## The range table (R141, R143, R144) -/

/-- The doubling rule answers from exactly one row. -/
theorem xltRows_some {a : Nat} {pos : BytePosition} {x : XAddr} : ∀ {rows : List Config.RangeRow},
    xltRows a pos rows = some x → ∃ row ∈ rows, row.base ≤ a ∧ a ≤ row.last ∧ x.bpe = .one ∧
      x.ref = BitVec.ofNat 16 (2 * (a - row.base) + row.offset + if pos = .msb then 1 else 0)
  | [], h => by cases h
  | row :: rows, h => by
    unfold xltRows at h
    split at h
    · rename_i hr
      cases h
      refine ⟨row, List.mem_cons_self, hr.1, hr.2, rfl, ?_⟩
      simp only
      congr 1
      split <;> rfl
    · obtain ⟨r, hm, h⟩ := xltRows_some h
      exact ⟨r, List.mem_cons_of_mem _ hm, h⟩

/-! ## Digits (R92, R93, R201, R231) -/

theorem hexDigit_eq : ∀ n, n < 16 → hexDigit n = digitChar n := by decide

theorem hexVal_digitChar : ∀ n : Fin 16, hexVal (digitChar n) = some n.val := by decide

theorem hexDigits_two (x : Byte) : hexDigits x.toNat 2 = twoDigits x := by
  have h := x.isLt
  simp only [hexDigits, twoDigits, Nat.shiftRight_eq_div_pow]
  rw [hexDigit_eq _ (by omega), hexDigit_eq _ (by omega)]
  have e : x.toNat / 2 ^ (4 * 1) % 16 = x.toNat / 16 := by omega
  have e' : x.toNat / 2 ^ (4 * 0) % 16 = x.toNat % 16 := by omega
  rw [e, e']

theorem hexe_eq (x : Byte) : hexe x = twoDigits x := hexDigits_two x

theorem checkBytes_eq (c : Byte) (m : Mode) : checkBytes c m = checkField c m := by
  cases m
  · exact hexDigits_two c
  · rfl

theorem hexVal_lt (c : Byte) (n : Nat) (h : hexVal c = some n) : n < 16 := by
  unfold hexVal at h
  dsimp only at h
  split at h
  · cases h; omega
  split at h
  · cases h; omega
  split at h
  · cases h; omega
  · cases h

/-- Two digits read back as their byte (R231 undoes R201). -/
theorem hexd_twoDigits : ∀ x : Byte,
    hexd (digitChar (x.toNat / 16)) (digitChar (x.toNat % 16)) = some x := by decide +kernel

theorem paydAscii_payeAscii (raw : Bytes) : paydAscii (payeAscii raw) = some raw := by
  induction raw with
  | nil => rfl
  | cons x xs ih => rw [payeAscii, hexe_eq, twoDigits]; simp [paydAscii, hexd_twoDigits, ih]

/-! ## The primitives of R9 -/

/-- `MemRead` answers exactly inside the buffer, with as many bytes as were asked for. -/
theorem memRead_some {buf v : Bytes} {off n : Nat} (h : memRead buf off n = some v) :
    off + n ≤ buf.length ∧ v = (buf.drop off).take n := by
  unfold memRead at h
  split at h
  · cases h
    exact ⟨by assumption, by simp [slice]⟩
  · cases h

/-- `MemWrite` keeps the length, and every byte outside the range. -/
theorem memWrite_some {buf v w : Bytes} {off n : Nat} (h : memWrite buf off n v = some w) :
    w.length = buf.length ∧ w.take off = buf.take off ∧ w.drop (off + n) = buf.drop (off + n) := by
  unfold memWrite at h
  split at h
  · rename_i hr
    cases h
    obtain ⟨h1, h2⟩ := hr
    refine ⟨by simp; omega, ?_, ?_⟩
    · rw [List.append_assoc, List.take_append_of_le_length (by simp; omega), List.take_take,
        Nat.min_self]
    · rw [List.drop_append_of_le_length (by simp; omega)]
      rw [List.drop_of_length_le (by simp; omega)]; rfl
  · cases h

/-- A read after a write to the same range gives the bytes written. -/
theorem memRead_memWrite {buf v w : Bytes} {off n : Nat} (h : memWrite buf off n v = some w) :
    memRead w off n = some v := by
  unfold memWrite at h
  split at h
  · rename_i hr
    cases h
    obtain ⟨h1, h2⟩ := hr
    unfold memRead
    rw [if_pos (by simp; omega)]
    have hl : (buf.take off).length = off := by simp; omega
    simp only [slice, List.append_assoc]
    rw [List.drop_append, List.drop_of_length_le (by omega), hl, Nat.sub_self, List.drop_zero,
      List.nil_append, Nat.add_sub_cancel_left, List.take_append_of_le_length (by omega),
      List.take_of_length_le (by omega)]
  · cases h

end Sys2Proof.Machine
end

