-- ==== Sys2Proof/Tests/Slice0.lean ====
section
/-! SUPPORT. Tests: the table's words, the well-formedness checks, vectors of `95_test_vectors.md`, and for
every obligation with hypotheses a state and operands that meet them. Expected values are the spec's. -/

namespace Sys2Proof.Tests

open Sys2Proof Sys2Proof.Machine

/-! ## Helpers -/

/-- The next state, if there is one. -/
def after : Host.Outcome State Fault Refusal → Option State
  | .next t => some t
  | .fault _ => none
  | .refused _ => none

/-- Why there is none. -/
def why : Host.Outcome State Fault Refusal → Option Refusal
  | .next _ => none
  | .fault _ => none
  | .refused r => some r

/-- The fault of an outcome. -/
def faultOf : Host.Outcome State Fault Refusal → Option Fault
  | .next _ => none
  | .fault f => some f
  | .refused _ => none

/-- The answer of a unit operation. -/
def ans (i : Instr) : Option Reply := (after (exec i State.reset)).map State.reply

/-- The reason an operation is refused for. -/
def reason (i : Instr) (s : State) : Option Reason :=
  match why (exec i s) with
  | some (.refuse r) => some r
  | _ => none

/-- The outputs of an instruction in a state. -/
def outs (i : Instr) (s : State) : Option (List Output) :=
  (after (exec i s)).map fun t => t.out.drop s.out.length

/-- The session after an instruction. -/
def sesOf (i : Instr) (s : State) : Option Session := (after (exec i s)).map State.ses

/-- The scheduler after an instruction. -/
def schOf (i : Instr) (s : State) : Option Sched := (after (exec i s)).map State.sch

/-- Whether the word, as the first instruction after reset, has a next state. -/
def runs (nbits w : Nat) : Bool := (after (step (State.reset.withFetchWord nbits w))).isSome

/-- Variable `v`: `uint16`, Memory, 0o2000, read (program P1's). -/
def v : VarDescr := ⟨[0x76], .memory, 0o2000, none, .uint16, false, 1, .lsb, .read⟩
/-- Variable `w`: the same, written. -/
def w : VarDescr := ⟨[0x77], .memory, 0o2000, none, .uint16, false, 1, .lsb, .write⟩
/-- A write variable outside the Output ranges. -/
def wo : VarDescr := ⟨[0x6F], .output, 0o40000, none, .uint8, false, 1, .lsb, .write⟩
/-- A read variable outside the Input ranges (program P5's `bad`). -/
def bad : VarDescr := ⟨[0x62], .input, 0o40100, none, .uint8, false, 1, .lsb, .read⟩
/-- A bit-addressed write variable. -/
def wb : VarDescr := ⟨[0x78], .memory, 0, some 3, .bool, false, 1, .lsb, .write⟩
/-- An array of three bit-addressed booleans. -/
def bits : VarDescr := ⟨[0x79], .input, 0o40000, some 3, .bool, true, 3, .lsb, .read⟩

/-- The configuration of the tests: station 1, one indicator. -/
def cfgOf (m : Mode) (vars : List VarDescr) : Cfg :=
  ⟨m, 1, 800, 2000, 800, 2000, 1, 5, vars, [[0x6C]]⟩

/-- The engine Running and Idle with these variables. -/
def idleWith (m : Mode) (vars : List VarDescr) : State :=
  { State.reset with cfg := cfgOf m vars, sch := { resetSched with run := .running } }

/-- Running, Idle, with a read and a write variable, `HEX`. -/
def rest : State := idleWith .hex [v, w]

/-- A session of `rest` in state `st`, timer `k` armed, one block of two bytes. -/
def inPhase (st : SState) (k : TimerId) (r : Request) : State :=
  { rest with ses := ⟨st, 1, 0, 2, 0, [], [], .armed k, none, 0, some r⟩ }

/-- Reading `v`. -/
def reading (st : SState) (k : TimerId) : State :=
  { inPhase st k ⟨v, .read, ⟨0x0401, .two⟩, 1, 2, []⟩ with
    sch := { rest.sch with cycle := some ⟨[v], [.null], 0⟩ } }

/-- Writing 0x1234 to `w`. -/
def writing (st : SState) (k : TimerId) : State := inPhase st k ⟨w, .write, ⟨0x0401, .two⟩, 1, 2, [0x34, 0x12]⟩

/-- Phase `WaitReadEnqAck`. -/
def rEnq : State := reading .waitReadEnqAck .t1
/-- Phase `WaitReadDataBlock`, six bytes expected. -/
def rDb : State :=
  let s := reading .waitReadDataBlock .t2
  { s with ses := { s.ses with expectedByteCount := 6 } }
/-- Phase `WaitReadEot`, the payload received. -/
def rEot : State :=
  let s := reading .waitReadEot .t3
  { s with ses := { s.ses with blocksDone := 1, expectedByteCount := 6, acc := [0x34, 0x12] } }
/-- Phase `WaitWriteEnqAck`. -/
def wEnq : State := writing .waitWriteEnqAck .t1
/-- Phase `WaitWriteDataBlockAck`, nothing sent yet. -/
def wDb : State := writing .waitWriteDataBlockAck .t4
/-- Phase `WaitWriteDataBlockAck`, the block sent. -/
def wSent : State := { wDb with ses := { wDb.ses with blocksDone := 1 } }
/-- Phase `WaitWriteEot`. -/
def wEot : State :=
  let s := writing .waitWriteEot .t4
  { s with ses := { s.ses with blocksDone := 1 } }
/-- The engine Closed. -/
def closedS : State := { rest with sch := { rest.sch with run := .closed } }
/-- A close that waits for a read. -/
def closingS : State := { rEnq with sch := { rEnq.sch with run := .closing, closeWaited := 200 } }
/-- The Enquiry's phase with `n` frames outstanding, its timer still to be armed. -/
def sending (n : Nat) : State :=
  { rEnq with ses := { rEnq.ses with timer := .disarmed, armOnTxc := some .t1, txOutstanding := n } }
/-- A debounce under way. -/
def debS : State := { rest with sch := { rest.sch with debounce := .armed } }

/-! ## The table's words, written out from R120 and R94 to R100 -/

theorem test_words_checksum_translator :
    decodeTableWord 8 0b00000001 = some (.chk [] 0 0) ∧
    decodeTableWord 8 0b00000010 = some (.xlt .memory 0 none .lsb) := by decide

theorem test_words_encode :
    decodeTableWord 8 0b00010000 = some (.encChar (.scalar (.char 0)) .one) ∧
    decodeTableWord 8 0b00010001 = some (.encBool (.scalar (.bool false)) .one) ∧
    decodeTableWord 8 0b00010010 = some (.encInt8 (.scalar (.int 0)) .one) ∧
    decodeTableWord 8 0b00010011 = some (.encUint8 (.scalar (.int 0)) .one) ∧
    decodeTableWord 8 0b00010100 = some (.encInt16 (.scalar (.int 0)) .one) ∧
    decodeTableWord 8 0b00010101 = some (.encUint16 (.scalar (.int 0)) .one) ∧
    decodeTableWord 8 0b00010110 = some (.encUint32 (.scalar (.int 0)) .one) ∧
    decodeTableWord 8 0b00010111 = some (.encUint64 (.scalar (.int 0)) .one) ∧
    decodeTableWord 8 0b00011000 = some (.enca .char (.scalar (.char 0)) .one false 0) := by
  decide

theorem test_words_decode :
    decodeTableWord 8 0b00100000 = some (.decChar [0] 0 .one) ∧
    decodeTableWord 8 0b00100001 = some (.decBool [0] 0 .one) ∧
    decodeTableWord 8 0b00100010 = some (.decInt8 [0] 0 .one) ∧
    decodeTableWord 8 0b00100011 = some (.decUint8 [0] 0 .one) ∧
    decodeTableWord 8 0b00100100 = some (.decInt16 [0] 0 .one) ∧
    decodeTableWord 8 0b00100101 = some (.decUint16 [0] 0 .one) ∧
    decodeTableWord 8 0b00100110 = some (.decUint32 [0] 0 .one) ∧
    decodeTableWord 8 0b00100111 = some (.decUint64 [0] 0 .one) ∧
    decodeTableWord 8 0b00101000 = some (.decBit .char [0] 0 .one 0 .lsb) ∧
    decodeTableWord 8 0b00101001 = some (.deca (zeroVar .read) .one [0]) := by decide

theorem test_words_builder :
    decodeTableWord 8 0b00110000 = some (.hexe 0) ∧
    decodeTableWord 8 0b00110001 = some (.hexd 0 0) ∧
    decodeTableWord 8 0b00110010 = some (.paye [] .ascii) ∧
    decodeTableWord 8 0b00110011 = some (.payd [] .ascii) ∧
    decodeTableWord 8 0b01000000 = some (.bldEnq 0) ∧
    decodeTableWord 8 0b01000001 = some (.bldHdr 0 .read .memory 0 1 .ascii) ∧
    decodeTableWord 8 0b01000010 = some (.bldDb [0] false .ascii) ∧
    decodeTableWord 8 0b01000011 = some .bldEot ∧
    decodeTableWord 8 0b01000100 = some .bldAck := by decide

theorem test_words_parser_sizes :
    decodeTableWord 8 0b01010000 = some (.prsEnqAck [0, 0, 0]) ∧
    decodeTableWord 8 0b01010001 = some (.prsAck [0]) ∧
    decodeTableWord 8 0b01010010 = some (.prsDb [0, 0, 0, 0, 0] false false 1 .ascii) ∧
    decodeTableWord 8 0b01010011 = some (.prsEot [0]) ∧
    decodeTableWord 8 0b01010100 = some (.prsHdr [] .ascii) ∧
    decodeTableWord 8 0b01100000 = some (.blkmath .one 0 .ascii) ∧
    decodeTableWord 8 0b01100001 = some (.expect false 1 .ascii) := by decide

theorem test_words_events :
    decodeTableWord 8 0b10000000 = some (.cfg zeroCfg) ∧
    decodeTableWord 8 0b10000001 = some .poll ∧
    decodeTableWord 8 0b10000010 = some (.wrq [] (.scalar (.bool false))) ∧
    decodeTableWord 8 0b10000011 = some (.rxb [0]) ∧
    decodeTableWord 8 0b10000100 = some .txc ∧
    decodeTableWord 8 0b10000101 = some .tmo ∧
    decodeTableWord 8 0b10000110 = some .dbt ∧
    decodeTableWord 8 0b10000111 = some .cls ∧
    decodeTableWord 8 0b10001000 = some .cpt := by decide

theorem test_words_internal :
    decodeTableWord 8 0b10010000 = some (.srd (zeroVar .read) ⟨0, .one⟩) ∧
    decodeTableWord 8 0b10010001 = some (.swr (zeroVar .write) ⟨0, .one⟩ [0]) ∧
    decodeTableWord 8 0b10010010 = some (.abort .readTimeoutError false) ∧
    decodeTableWord 8 0b10010011 = some (.finish (.readFail false)) := by decide

theorem test_words_frames :
    decodeTableWord 8 0b00000100 = some .frameEot ∧
    decodeTableWord 8 0b00000110 = some .frameAck ∧
    decodeTableWord 24 0b01001110_00100001_00000101 = some (.frameEnq 0x21) ∧
    decodeTableWord 24 0b01001110_00100001_00000110 = some (.frameEnqRsp 0x4E 0x21) ∧
    decodeTableWord 32 0x02_C8_03_CB = some (.frameDbHex [0xC8] 0x03 0xCB) ∧
    decodeTableWord 40 0x02_33_03_30_37 = some (.frameDbAscii [0x33] 0x03 0x30 0x37) ∧
    decodeTableWord 40 0x06_02_7F_03_7C = some (.frameDbFirst [0x7F] 0x03 (.raw 0x7C)) ∧
    decodeTableWord 48 0x06_02_33_03_30_37 = some (.frameDbFirst [0x33] 0x03 (.digits 0x30 0x37)) := by
  decide

/-- The two headers of V-A1. -/
theorem test_words_headers :
    decodeTableWord 136 0x01_30_31_30_31_30_30_30_31_30_30_30_32_30_31_17_02 =
      some (.frameHdrHex ⟨0x30, 0x31, 0x30, 0x31, 0x30, 0x30, 0x30, 0x31, 0x30, 0x30, 0x30, 0x32⟩ 0x02) ∧
    decodeTableWord 144 0x01_30_31_30_31_30_30_30_31_30_30_30_34_30_31_17_30_34 =
      some (.frameHdrAscii ⟨0x30, 0x31, 0x30, 0x31, 0x30, 0x30, 0x30, 0x31, 0x30, 0x30, 0x30, 0x34⟩
        0x30 0x34) := by decide

/-- Numbers outside the table name no operation (R120). -/
theorem test_words_unknown :
    decodeTableWord 8 0x00 = none ∧ decodeTableWord 8 0x03 = none ∧ decodeTableWord 8 0x19 = none ∧
    decodeTableWord 8 0x94 = none ∧ decodeTableWord 8 0xFF = none ∧
    decodeTableWord 24 0x4E2115 = none := by decide

/-- The two terminators of a block, longer payloads, and a block in the other mode's length. -/
theorem test_frames_decode :
    decode (.wire .hex [0x02, 0x34, 0x12, 0x17, 0x31]) = .ok (.frameDbHex [0x34, 0x12] 0x17 0x31) ∧
    decode (.wire .ascii [0x02, 0x33, 0x34, 0x31, 0x32, 0x03, 0x30, 0x37]) =
      .ok (.frameDbAscii [0x33, 0x34, 0x31, 0x32] 0x03 0x30 0x37) ∧
    decode (.wire .hex [0x06, 0x02, 0x34, 0x12, 0x03, 0x25]) =
      .ok (.frameDbFirst [0x34, 0x12] 0x03 (.raw 0x25)) ∧
    decode (.wire .hex [0x06, 0x02, 0x03, 0x25]) = .error .illFormed ∧
    decode (.wire .hex [0x15]) = .error .notAFrame := by decide

/-- A step on the first word after reset: a next state wherever the event is enabled in that state. -/
theorem test_step_runs_words :
    ([0x01, 0x02, 0x10, 0x11, 0x12, 0x13, 0x14, 0x15, 0x16, 0x17, 0x18, 0x20, 0x21, 0x22, 0x23, 0x24,
      0x25, 0x26, 0x27, 0x28, 0x29, 0x30, 0x31, 0x32, 0x33, 0x40, 0x41, 0x42, 0x43, 0x44, 0x50, 0x51,
      0x52, 0x53, 0x54, 0x60, 0x61, 0x80, 0x82, 0x83, 0x90, 0x91, 0x04, 0x06].all (runs 8) = true) ∧
    runs 24 0x4E2105 = true ∧ runs 24 0x4E2106 = true ∧ runs 32 0x02C803CB = true ∧
    runs 40 0x0602C803CB = true ∧ runs 136 0x0130313031303030313030303230311702 = true := by
  decide

/-- The seven events and operations that R41 does not enable right after reset. -/
theorem test_step_not_enabled_after_reset :
    [0x81, 0x84, 0x85, 0x86, 0x87, 0x88, 0x92, 0x93].all
      (fun n => decide (why (step (State.reset.withFetchWord 8 n)) = some .notEnabled)) = true := by
  decide

/-! ## Well-formedness: an ill-formed term for each check -/

theorem test_wf_refuses :
    (Instr.xlt .memory 0x10000 none .lsb).wf = false ∧ (Instr.xlt .input 0 (some 8) .lsb).wf = false ∧
    (Instr.abort .deviceOpenError false).wf = false ∧ (Instr.abort .invalidInputAddressError true).wf = false ∧
    (Instr.decBit .bool [0] 0 .one 8 .lsb).wf = false ∧
    (Instr.deca { bits with bitIndex := some 8 } .one []).wf = false ∧
    (Instr.deca { bits with length := 0 } .one []).wf = false ∧
    (Instr.bldHdr 0xE0 .read .memory 1 2 .hex).wf = false ∧
    (Instr.bldHdr 0xDF .read .memory 1 0 .hex).wf = false ∧
    (Instr.bldHdr 0xDF .read .memory 1 65536 .hex).wf = false ∧
    (Instr.prsDb [] true true 0 .hex).wf = false ∧ (Instr.prsDb [] true true 257 .hex).wf = false ∧
    (Instr.expect true 0 .hex).wf = false ∧ (Instr.expect true 257 .hex).wf = false ∧
    (Instr.rxb []).wf = false ∧ (Instr.srd w ⟨1, .two⟩).wf = false ∧
    (Instr.swr v ⟨1, .two⟩ [0, 0]).wf = false ∧ (Instr.swr w ⟨1, .two⟩ [0]).wf = false ∧
    (Instr.swr { w with bitIndex := some 0 } ⟨1, .two⟩ [0, 0]).wf = false ∧
    (Instr.frameDbHex [] 0x03 0).wf = false ∧
    (Instr.frameDbAscii (List.replicate 257 0x30) 0x03 0x30 0x30).wf = false ∧
    (Instr.frameDbFirst [] 0x03 (.raw 0)).wf = false := by decide +kernel

/-- The decoder refuses it by name. -/
theorem test_decode_refuses_ill_formed :
    decode (.op 0x28 (.decodeBit .bool [0] 0 .one 8 .lsb)) = .error .illFormed ∧
    decode (.op 0x83 (.bytes [])) = .error .illFormed ∧
    decode (.op 0x81 (.bytes [])) = .error .wrongOperands ∧
    decode (.op 0x19 .none) = .error .unknownNumber := by decide

/-! ## Unit operations (Part 2 of the vectors) -/

theorem test_chk :
    ans (.chk [0x02, 0x34, 0x12, 0x03] 1 4) = some (.byte 0x25) ∧
    reason (.chk [0xFF, 0x0F, 0xF0] 0 4) State.reset = some .badRange := by decide

theorem test_xlt_first_and_last :
    ans (.xlt .input 0o41234 none .msb) = some (.address (some ⟨0x1BA, .one⟩)) ∧
    ans (.xlt .output 0o41147 none .msb) = some (.address (some ⟨0x330, .one⟩)) ∧
    ans (.xlt .memory 0xFFFE none .lsb) = some (.address (some ⟨0xFFFF, .two⟩)) := by decide

theorem test_xlt_outside :
    ans (.xlt .input 0o40100 none .lsb) = some (.address none) ∧
    ans (.xlt .output 0o41120 none .msb) = some (.address none) ∧
    ans (.xlt .memory 0xFFFF none .lsb) = some (.address none) := by decide

theorem test_enc_char :
    ans (.encChar (.scalar (.char 0x20AC)) .two) = some (.bytes [0xAC, 0x20]) ∧
    reason (.encChar (.scalar (.char 0x20AC)) .one) State.reset = some .charOutOfRange := by decide

theorem test_enc_bool : ans (.encBool (.scalar (.bool true)) .two) = some (.bytes [0x01, 0x00]) := by
  decide

theorem test_enc_int8 :
    ans (.encInt8 (.scalar (.int (-129))) .one) = some (.bytes [0x7F]) ∧
    ans (.encInt8 (.scalar (.int (-2))) .two) = some (.bytes [0xFE, 0x00]) := by decide

theorem test_enc_int8_duplicate :
    (after (exec (.encInt8 (.scalar (.int (-2))) .two)
      { State.reset with par := { Config.defaultParams with int8HighByte := .copy } })).map State.reply =
      some (.bytes [0xFE, 0xFE]) := by decide

theorem test_enc_uint8 :
    ans (.encUint8 (.scalar (.int (-1))) .one) = some (.bytes [0xFF]) ∧
    ans (.encUint8 (.scalar (.int 256)) .two) = some (.bytes [0x00, 0x00]) := by decide

theorem test_enc_int16 :
    ans (.encInt16 (.scalar (.int (-32769))) .two) = some (.bytes [0xFF, 0x7F]) ∧
    reason (.encInt16 (.scalar (.bool true)) .two) State.reset = some .typeMismatch := by decide

theorem test_enc_uint16 :
    ans (.encUint16 (.scalar (.int 258)) .two) = some (.bytes [0x02, 0x01]) ∧
    ans (.encUint16 (.scalar (.int 65536)) .two) = some (.bytes [0x00, 0x00]) := by decide

theorem test_enc_uint32 :
    ans (.encUint32 (.scalar (.int 70000)) .two) = some (.bytes [0x70, 0x11]) ∧
    ans (.encUint32 (.scalar (.int 0x12345678)) .one) = some (.bytes [0x78]) := by decide

theorem test_enc_uint64 :
    ans (.encUint64 (.scalar (.int 0x0102030405060708)) .two) = some (.bytes [0x08, 0x07]) := by
  decide

theorem test_enca :
    ans (.enca .int16 (.array [.int 1, .int (-1), .int 256]) .two true 3) =
      some (.bytes [0x01, 0x00, 0xFF, 0xFF, 0x00, 0x01]) ∧
    reason (.enca .uint16 (.array [.int 1, .int 2]) .two true 3) State.reset = some .lengthMismatch ∧
    ans (.enca .uint16 (.array []) .two true 0) = some (.bytes []) := by
  decide

theorem test_dec_char : ans (.decChar [0xAC, 0x20] 0 .two) = some (.value (.scalar (.char 0x20AC))) := by
  decide

theorem test_dec_bool :
    ans (.decBool [0x00, 0x01] 0 .two) = some (.value (.scalar (.bool true))) ∧
    ans (.decBool [0x00, 0x00] 0 .two) = some (.value (.scalar (.bool false))) := by decide

theorem test_dec_int8 : ans (.decInt8 [0xFF, 0x12] 0 .two) = some (.value (.scalar (.int (-1)))) := by
  decide

theorem test_dec_uint8 : ans (.decUint8 [0xC8, 0x55] 0 .two) = some (.value (.scalar (.int 200))) := by
  decide

theorem test_dec_int16 :
    ans (.decInt16 [0x00, 0x80] 0 .two) = some (.value (.scalar (.int (-32768)))) ∧
    ans (.decInt16 [0x80] 0 .one) = some (.value (.scalar (.int (-128)))) := by decide

theorem test_dec_uint16 :
    ans (.decUint16 [0x00, 0x80] 0 .two) = some (.value (.scalar (.int 32768))) ∧
    reason (.decUint16 [0x34] 0 .two) State.reset = some .shortPayload := by decide

theorem test_dec_uint32 : ans (.decUint32 [0xFF, 0xFF] 0 .two) = some (.value (.scalar (.int 65535))) := by
  decide

theorem test_dec_uint64 : ans (.decUint64 [0x34] 0 .one) = some (.value (.scalar (.int 52))) := by
  decide

theorem test_dec_bit :
    ans (.decBit .bool [0x00, 0x04] 0 .two 2 .msb) = some (.value (.scalar (.bool true))) ∧
    ans (.decBit .uint16 [0x04, 0x00] 0 .two 2 .msb) = some (.value (.scalar (.int 0))) ∧
    ans (.decBit .char [0x80] 0 .one 7 .lsb) = some (.value (.scalar (.char 0x31))) := by decide

theorem test_deca :
    ans (.deca bits .one [0x08, 0xF7, 0xFF]) =
      some (.value (.array [.bool true, .bool false, .bool true])) ∧
    ans (.deca { v with format := .int16, isArray := true, length := 3 } .two
        [0x01, 0x00, 0xFF, 0xFF, 0x00, 0x01]) =
      some (.value (.array [.int 1, .int (-1), .int 256])) := by decide

theorem test_hexe : ans (.hexe 0x2C) = some (.bytes [0x32, 0x43]) := by decide

theorem test_hexd :
    ans (.hexd 0x32 0x63) = some (.hexByte (some 0x2C)) ∧ ans (.hexd 0x47 0x30) = some (.hexByte none) := by
  decide

theorem test_paye :
    ans (.paye [0x00, 0xAB, 0xFF] .ascii) = some (.bytes [0x30, 0x30, 0x41, 0x42, 0x46, 0x46]) ∧
    ans (.paye [0x34, 0x12] .hex) = some (.bytes [0x34, 0x12]) := by decide

theorem test_payd :
    ans (.payd [0x61, 0x62] .ascii) = some (.rawPayload (some [0xAB])) ∧
    ans (.payd [0x33, 0x34, 0x47, 0x32] .ascii) = some (.rawPayload none) ∧
    ans (.payd [0x33] .ascii) = some (.rawPayload none) := by decide

theorem test_bld_enq :
    ans (.bldEnq 0xDF) = some (.bytes [0x4E, 0xFF, 0x05]) ∧
    reason (.bldEnq 0xE0) State.reset = some .stationOutOfRange := by decide

theorem test_bld_hdr :
    ans (.bldHdr 0x5A .read .input 0x01BA 2 .ascii) = some (.bytes
      [0x01, 0x35, 0x41, 0x30, 0x32, 0x30, 0x31, 0x42, 0x41, 0x30, 0x30, 0x30, 0x32, 0x30, 0x31, 0x17,
       0x37, 0x37]) ∧
    ans (.bldHdr 0xDF .write .output 0x0330 256 .hex) = some (.bytes
      [0x01, 0x44, 0x46, 0x38, 0x33, 0x30, 0x33, 0x33, 0x30, 0x30, 0x31, 0x30, 0x30, 0x30, 0x31, 0x17,
       0x09]) := by decide

/-- V-C: the same header under `required_and_last`. -/
theorem test_bld_hdr_required_and_last :
    (after (exec (.bldHdr 1 .write .memory 0x0401 300 .hex)
      { State.reset with par := { Config.defaultParams with hdrCountRule := .requiredAndLast } })).map
        State.reply = some (.bytes
      [0x01, 0x30, 0x31, 0x38, 0x31, 0x30, 0x34, 0x30, 0x31, 0x30, 0x32, 0x32, 0x43, 0x30, 0x31, 0x17,
       0x7F]) := by decide

theorem test_bld_db :
    ans (.bldDb [0x02, 0x03, 0x17, 0x06] true .hex) =
      some (.bytes [0x02, 0x02, 0x03, 0x17, 0x06, 0x03, 0x13]) ∧
    ans (.bldDb [0x46, 0x46] false .ascii) = some (.bytes [0x02, 0x46, 0x46, 0x17, 0x31, 0x37]) := by
  decide

theorem test_bld_db_size :
    reason (.bldDb [] true .hex) State.reset = some .badBlockSize ∧
    reason (.bldDb (List.replicate 257 0) true .hex) State.reset = some .badBlockSize := by decide +kernel

theorem test_bld_eot_ack : ans .bldEot = some (.bytes [0x04]) ∧ ans .bldAck = some (.bytes [0x06]) := by
  decide

theorem test_prs_enq_ack :
    ans (.prsEnqAck [0x00, 0x00, 0x06]) = some (.verdict (.ok ())) ∧
    ans (.prsEnqAck [0x06, 0x06, 0x05]) = some (.verdict (.fail .enqAckMissing)) := by decide

theorem test_prs_ack :
    ans (.prsAck [0x06]) = some (.verdict (.ok ())) ∧
    ans (.prsAck [0x15]) = some (.verdict (.fail .ackMissing)) := by decide

theorem test_prs_eot :
    ans (.prsEot [0x04]) = some (.verdict (.ok ())) ∧
    ans (.prsEot [0x06]) = some (.verdict (.fail .eotMissing)) := by decide

theorem test_prs_db_accepts :
    ans (.prsDb [0x06, 0x02, 0x33, 0x34, 0x31, 0x32, 0x03, 0x30, 0x37] true true 4 .ascii) =
      some (.block (.ok [0x33, 0x34, 0x31, 0x32])) ∧
    ans (.prsDb [0x06, 0x02, 0x03, 0x03, 0x00] true true 1 .hex) = some (.block (.ok [0x03])) := by
  decide

theorem test_prs_db_rejects :
    ans (.prsDb [0x15, 0x03, 0x34, 0x12, 0x17, 0x00] true true 2 .hex) = some (.block (.fail .ackMissing)) ∧
    ans (.prsDb [0x06, 0x02, 0x80, 0x00, 0x03, 0x83] false true 2 .hex) =
      some (.block (.fail .stxMissing)) ∧
    ans (.prsDb [0x06, 0x02, 0x34, 0x12, 0x03, 0x25] true false 2 .hex) =
      some (.block (.fail .terminatorMissing)) ∧
    ans (.prsDb [0x06, 0x02, 0x35, 0x12, 0x03, 0x25] true true 2 .hex) =
      some (.block (.fail .checksumMismatch)) := by decide

theorem test_prs_hdr :
    ans (.prsHdr [0x01, 0x30, 0x31, 0x38, 0x31, 0x30, 0x34, 0x30, 0x31, 0x30, 0x31, 0x32, 0x43, 0x30, 0x31,
        0x17, 0x7C] .hex) = some (.header (.ok ⟨1, 0x38, 0x31, 0x0401, 1, 0x2C, 1⟩)) ∧
    ans (.prsHdr [0x01, 0x30, 0x31, 0x38, 0x31, 0x30, 0x34, 0x30, 0x31, 0x30, 0x31, 0x32, 0x43, 0x30, 0x31,
        0x17, 0x7D] .hex) = some (.header (.fail .checksumMismatch)) := by decide

theorem test_blkmath :
    ans (.blkmath .two 150 .ascii) = some (.sizes ⟨600, 3, 88⟩) ∧
    ans (.blkmath .one 256 .hex) = some (.sizes ⟨256, 1, 256⟩) := by decide

theorem test_expect :
    ans (.expect true 256 .ascii) = some (.count 261) ∧ ans (.expect false 1 .hex) = some (.count 4) := by
  decide

/-! ## Events (Part 2, 2.10 to 2.12, and Part 3) -/

theorem test_cfg :
    (schOf (.cfg (cfgOf .hex [v, w])) State.reset).map Sched.run = some .running ∧
    reason (.cfg { cfgOf .hex [v] with station := 0xE0 }) rest = some .configInvalid := by decide

/-- Program P5 step 2: the invalid variable is skipped with one alert, the next one is read. -/
theorem test_poll :
    outs .poll (idleWith .hex [bad, v]) =
      some [.alertRaise .invalidInputAddressError [0x62], .tx [0x4E, 0x21, 0x05]] ∧
    (schOf .poll (idleWith .hex [bad, v])).map Sched.cycle =
      some (some ⟨[bad, v], [.null, .null], 1⟩) := by decide

theorem test_wrq_refused :
    reason (.wrq [0x00] (.scalar (.int 1))) rest = some .unknownVariable ∧
    reason (.wrq [0x76] (.scalar (.int 1))) rest = some .notWritable ∧
    reason (.wrq [0x77] (.scalar (.bool true))) rest = some .typeMismatch ∧
    reason (.wrq [0x77] (.scalar (.int 8))) closedS = some .notRunning := by decide

theorem test_wrq_invalid_address :
    outs (.wrq [0x6F] (.scalar (.int 1))) (idleWith .hex [wo]) =
      some [.alertRaise .invalidOutputAddressError [0x6F], .writeDone [0x6F] false] := by decide

theorem test_rxb_header :
    outs (.rxb [0x00, 0x00, 0x06, 0xFF]) rEnq = some [.tx
      [0x01, 0x30, 0x31, 0x30, 0x31, 0x30, 0x34, 0x30, 0x31, 0x30, 0x30, 0x30, 0x32, 0x30, 0x31, 0x17,
       0x06]] ∧
    (sesOf (.rxb [0x00, 0x00, 0x06, 0xFF]) rEnq).map (fun z => (z.state, z.expectedByteCount, z.rx)) =
      some (.waitReadDataBlock, 6, []) := by decide

theorem test_rxb_bad_terminator :
    outs (.rxb [0x06, 0x02, 0x34, 0x12, 0x17, 0x31]) rDb = some
      [.tx [0x04], .alertRaise .terminatorNotReceivedError [0x76], .report [0x76] .null] ∧
    sesOf (.rxb [0x06, 0x02, 0x34, 0x12, 0x17, 0x31]) rDb =
      some { resetSession with txOutstanding := 1 } := by decide

/-- Program P3 steps 11 and 12: only the last completion arms the timer. -/
theorem test_txc :
    (sesOf .txc (sending 2)).map (fun z => (z.timer, z.txOutstanding)) = some (.disarmed, 1) ∧
    (sesOf .txc (sending 1)).map (fun z => (z.timer, z.txOutstanding)) = some (.armed .t1, 0) := by
  decide

theorem test_tmo :
    outs .tmo rEnq = some
      [.tx [0x04], .alertRaise .enqAckNotReceivedError [0x76], .report [0x76] .null] ∧
    (schOf .tmo wSent).map Sched.debounce = some .armed := by decide

theorem test_dbt :
    outs .dbt debS = some [.report [0x6C] (.scalar (.bool false))] ∧
    (schOf .dbt debS).map (fun q => (q.link, q.debounce)) = some (.reportedFalse, .disarmed) := by
  decide

theorem test_cls :
    outs .cls rest = some [.closeDone] ∧ (schOf .cls rEnq).map Sched.run = some .closing := by
  decide

/-- Program P6 step 8. -/
theorem test_cpt :
    outs .cpt { closingS with sch := { closingS.sch with pendingWrite := some ⟨w, .scalar (.int 7)⟩ } } =
      some [.writeDone [0x77] false, .closeDone] := by decide

theorem test_srd :
    outs (.srd v ⟨0x0401, .two⟩) rest = some [.tx [0x4E, 0x21, 0x05]] ∧
    reason (.srd v ⟨0x0401, .two⟩) rEnq = some .busy := by decide

theorem test_swr :
    (sesOf (.swr w ⟨0x0401, .two⟩ [0x34, 0x12]) (idleWith .ascii [w])).bind
      (fun z => z.req.map Request.wire) = some [0x33, 0x34, 0x31, 0x32] ∧
    (sesOf (.swr w ⟨0x0401, .two⟩ [0x34, 0x12]) rest).map Session.state = some .waitWriteEnqAck := by
  decide

theorem test_abort :
    outs (.abort .writeTimeoutError true) wDb =
      some [.tx [0x04], .alertRaise .writeTimeoutError [0x77], .writeDone [0x77] false] ∧
    why (exec (.abort .dbAddError false) wDb) = some .notEnabled := by
  decide

/-- P2 step 17's order: connection report, alert clear, then the flushed value. -/
theorem test_done :
    outs (.finish (.readOk (.scalar (.int 4660)))) { rEot with raised := 0x0008 } =
      some [.report [0x6C] (.scalar (.bool true)), .alertClear .enqAckNotReceivedError,
        .report [0x76] (.scalar (.int 4660))] := by decide

/-- The flush follows a write that was sent at the end of a cycle (D52). -/
theorem test_done_flush_after_write :
    outs (.finish .writeOk) { wEot with sch := { wEot.sch with cycle := some ⟨[v], [.scalar (.int 5)], 1⟩ } } =
      some [.report [0x6C] (.scalar (.bool true)), .writeDone [0x77] true, .report [0x76] (.scalar (.int 5))] := by
  decide

/-! ## Frames as inputs -/

theorem test_frame_enq :
    (sesOf (.frameEnq 0x21) rDb).map Session.rx = some [0x4E, 0x21, 0x05] := by decide

theorem test_frame_hdr :
    sesOf (.frameHdrHex ⟨0, 0, 0, 0, 0, 0, 0, 0, 0, 0, 0, 0⟩ 0) rest = some rest.ses ∧
    outs (.frameHdrAscii ⟨0, 0, 0, 0, 0, 0, 0, 0, 0, 0, 0, 0⟩ 0 0) wEot = some
      [.tx [0x04], .alertRaise .ackNotReceivedError [0x77], .writeDone [0x77] false] := by decide

/-- Program P7 step 8: a later block has no leading ACK. -/
theorem test_frame_db_hex :
    let s := { rDb with ses := { rDb.ses with blocksRequired := 2, blocksDone := 1, expectedByteCount := 5 } }
    (sesOf (.frameDbHex [0x80, 0x00] 0x03 0x83) s).map (fun z => (z.state, z.acc)) =
      some (.waitReadEot, [0x80, 0x00]) := by decide

theorem test_frame_db_ascii :
    let s := { rDb with cfg := cfgOf .ascii [v], ses := { rDb.ses with blocksRequired := 2, blocksDone := 1, expectedByteCount := 6 } }
    (sesOf (.frameDbAscii [0x41, 0x42] 0x03 0x30 0x30) s).map (fun z => (z.state, z.acc)) =
      some (.waitReadEot, [0x41, 0x42]) := by decide

theorem test_frame_db_first :
    outs (.frameDbFirst [0x34, 0x12] 0x03 (.raw 0x25)) rDb = some [.tx [0x06]] ∧
    (sesOf (.frameDbFirst [0x34, 0x12] 0x03 (.raw 0x25)) rDb).map (fun z => (z.state, z.acc, z.rx)) =
      some (.waitReadEot, [0x34, 0x12], []) := by decide

/-- Program P1 step 9. -/
theorem test_frame_eot :
    outs .frameEot rEot = some [.tx [0x04], .report [0x6C] (.scalar (.bool true)),
      .report [0x76] (.scalar (.int 4660))] := by decide

theorem test_frame_ack :
    outs .frameAck wDb = some [.tx [0x02, 0x34, 0x12, 0x03, 0x25]] ∧
    outs .frameAck wEot = some [.report [0x6C] (.scalar (.bool true)), .writeDone [0x77] true] := by
  decide

theorem test_frame_enq_rsp :
    outs (.frameEnqRsp 0x4E 0x21) wEnq = some [.tx
      [0x01, 0x30, 0x31, 0x38, 0x31, 0x30, 0x34, 0x30, 0x31, 0x30, 0x30, 0x30, 0x32, 0x30, 0x31, 0x17,
       0x0E]] := by decide


theorem rest_cfg_accepted : ConfigAccepted rest.par rest.cfg := (cfgOk_iff _ _).mp (by decide)

theorem v_accepted : DescrAccepted rest.par rest.cfg.mode v := (varOk_iff _ _ _).mp (by decide)

theorem w_accepted : DescrAccepted rest.par rest.cfg.mode w := (varOk_iff _ _ _).mp (by decide)

/-- The last phase of a write satisfies the engine's invariant. -/
theorem wEot_inv : EngineInv wEot where
  session :=
    { req_iff := by decide
      idle_reset := by decide
      armed := fun k h => by cases h; decide
      waiting := fun k h => by cases h
      blocks := by decide
      widths := by decide
      active := fun r h => by
        cases h
        exact ⟨by decide, w_accepted, by decide, by decide, by decide, by decide, by decide, by decide,
          by decide, by decide, by decide⟩ }
  sched :=
    { configured := fun _ => rest_cfg_accepted
      rest := by decide
      reading := fun r h g => by cases h; cases g
      cycle := fun c h => by cases h
      readPending := fun h => by cases h
      debounce := by decide
      quiet := by decide
      pending := fun p h => by cases h
      latched := fun n h => by cases h
      latched_once := .nil }
  accMax := by decide
  ports := fun d h => by cases h

theorem closed_inv : EngineInv closedS where
  session :=
    { req_iff := by decide
      idle_reset := by decide
      armed := fun k h => by cases h
      waiting := fun k h => by cases h
      blocks := by decide
      widths := by decide
      active := fun r h => by cases h }
  sched :=
    { configured := fun _ => rest_cfg_accepted
      rest := by decide
      reading := fun r h g => by cases h
      cycle := fun c h => by cases h
      readPending := fun h => by cases h
      debounce := by decide
      quiet := by decide
      pending := fun p h => by cases h
      latched := fun n h => by cases h
      latched_once := .nil }
  accMax := by decide
  ports := fun d h => by cases h

/-! ## Witnesses of the obligations' hypotheses -/

theorem witness_DecodeOfEncodeIsTheInstruction :
    (Instr.swr w ⟨0x0401, .two⟩ [0x34, 0x12]).wf = true ∧ (Instr.frameDbFirst [0x7F] 0x03 (.raw 0x7C)).wf = true ∧
    (Instr.xlt .memory 0xFFFF (some 7) .msb).wf = true ∧ (Instr.bldHdr 0xDF .read .input 1 65535 .hex).wf = true ∧
    (Instr.expect true 256 .ascii).wf = true := by decide

theorem witness_EncodeOfDecodeIsTheDelivery :
    decode (.op 0x31 (.bytePair 0x32 0x43)) = .ok (.hexd 0x32 0x43) ∧
    decode (.wire .ascii [0x06]) = .ok .frameAck ∧ (0x94 : Byte).toNat ∉ opNumbers := by decide

theorem witness_StepRunsTheDecodedInstruction :
    let d : Input := .op 0x81 .none
    let s : State := { rest with inbox := [d, d] }
    decode d = .ok .poll ∧ (after (exec .poll (s.take [d]))).isSome = true ∧
    reason (.wrq [0x00] .null) rest = some .unknownVariable ∧
    why (exec .txc rest) = some .notEnabled ∧
    faultOf (exec .tmo { rEnq with ses := { rEnq.ses with req := none } }) = some .noRequest ∧
    decode (.op 0x81 (.byte 0)) = .error .wrongOperands := by decide

theorem witness_EveryStepKeepsTheEngineInvariant :
    EngineInv wEot ∧ (after (step wEot)).isSome = true := ⟨wEot_inv, by decide⟩

theorem witness_NoStepFaultsUnderTheEngineInvariant : EngineInv wEot := wEot_inv

theorem witness_UnitOperationsWriteNoState :
    (Instr.chk [0x5A] 0 1).isUnit = true ∧ (after (exec (.chk [0x5A] 0 1) rest)).isSome = true := by decide

theorem witness_OnlyCfgWritesTheConfiguration :
    (after (exec .poll rest)).isSome = true ∧ (after (exec (.cfg (cfgOf .ascii [v])) rest)).isSome = true := by
  decide

theorem witness_AlertBitsFollowTheOutputs :
    outs .tmo wDb = some [.tx [0x04], .alertRaise .writeTimeoutError [0x77], .writeDone [0x77] false] := by
  decide

theorem witness_OutstandingFramesAreCounted :
    (after (exec .frameAck wDb)).isSome = true ∧ (after (exec .txc (sending 1))).isSome = true ∧
    (after (exec .cls rest)).isSome = true ∧ (after (exec .cpt closingS)).isSome = true := by decide

theorem witness_InvalidAddressAlertsAreOncePerVariable :
    outs .poll (idleWith .hex [bad]) =
      some [.alertRaise .invalidInputAddressError [0x62], .report [0x62] .null] ∧
    (after (exec (.cfg (cfgOf .hex [bad])) State.reset)).isSome = true := by decide

theorem witness_EveryAcceptedWriteCompletesOnce :
    EngineInv wEot ∧ Instr.frameAck.isPort = true ∧ (after (exec .frameAck wEot)).isSome = true ∧
    (Instr.wrq [0x77] (.scalar (.int 7))).isPort = true ∧
    (after (exec (.wrq [0x77] (.scalar (.int 7))) wEot)).isSome = true := ⟨wEot_inv, by decide⟩

theorem witness_EventsOutsideTheirStatesAreNotEnabled :
    closedS.sch.run ≠ .running ∧ rest.ses.txOutstanding = 0 ∧ rest.ses.timer = .disarmed ∧
    rest.sch.debounce = .disarmed ∧ rest.sch.run ≠ .closing ∧ rEnq.sch.run ≠ .closed ∧
    rEnq.ses.state ≠ .idle ∧ closingS.sch.run ≠ .closed ∧ closingS.sch.run = .closing ∧
    rest.ses.state = .idle ∧ AlertKey.deviceOpenError.inSession = false ∧
    AlertKey.invalidMemoryAddressError.inSession = false := by decide

theorem witness_ClosedIsLeftOnlyByReset :
    EngineInv closedS ∧ closedS.sch.run = .closed ∧ (Instr.frameEnq 0x21).number = none :=
  ⟨closed_inv, by decide⟩

theorem witness_ChecksumLawsHold :
    chk [0x12, 0x34, 0x03] 0 3 = .ok 0x25 ∧ chk [0x5A] 0 1 = .ok 0x5A ∧
    ([0x12, 0x34, 0x03] : Bytes)[2]? = some 0x03 ∧ (0x17 : Byte) ≠ 0x03 ∧
    ([0x12, 0x34, 0x03] : Bytes)[0]? = some 0x12 ∧ chk [0xFF, 0x12, 0x34, 0x03, 0xFF] 1 4 = .ok 0x25 ∧
    (0 < 1 ∧ 4 ≤ 4) := by decide

theorem witness_TranslationIsInjective :
    xlt .memory 0xFFFE none .lsb = some ⟨0xFFFF, .two⟩ ∧ xlt .memory 0xFFFE (some 7) .msb = some ⟨0xFFFF, .two⟩ ∧
    xlt .input 0o41234 none .msb = some ⟨0x1BA, .one⟩ ∧ xlt .output 0o40500 none .lsb = some ⟨0x101, .one⟩ := by
  decide

theorem witness_CharactersAndBooleansEncode :
    (∀ x, Value.null ≠ .scalar (.char x)) ∧ ∀ x, Value.scalar (.int 0) ≠ .scalar (.bool x) := by
  simp

theorem witness_IntegersEncodeTruncated : ∀ x, Value.scalar (.bool true) ≠ .scalar (.int x) := by simp

theorem witness_VariablesEncodeElementByElement :
    List.Forall₂ (fun v b => encFormat Config.defaultParams .int16 (.scalar v) .two = .ok b)
      [.int 1, .int (-1)] [[0x01, 0x00], [0xFF, 0xFF]] ∧
    encFormat Config.defaultParams .int16 (.scalar (.bool true)) .two = .error .typeMismatch ∧
    (∀ vs, Value.array [.int 1] = .array vs → vs.length ≠ 2) :=
  ⟨.cons rfl (.cons rfl .nil), rfl, fun vs h => by cases h; decide⟩

theorem witness_ElementsDecodeByFormat :
    ([0x34, 0x12] : Bytes)[1]? = some 0x12 ∧ ([0x34, 0x12] : Bytes)[0]? = some 0x34 ∧
    ([0x34, 0x12] : Bytes)[0 + 1]? = some 0x12 ∧ ([0x34, 0x12] : Bytes).length < 1 + Width.two.bytes ∧
    ([0x34, 0x12] : Bytes).length < 2 + Width.one.bytes := by decide

theorem witness_BitsDecodeFromTheDesignatedByte :
    7 ≤ 7 ∧ ([0x80] : Bytes)[0]? = some 0x80 ∧ 0 + 1 < ([0x00, 0x04] : Bytes).length ∧
    ([0x00, 0x04] : Bytes)[if rest.par.bitByteRule = .alwaysHigh ∨ BytePosition.msb = .msb then 0 + 1 else 0]? =
      some 0x04 ∧
    ([0x80] : Bytes).length < 0 + Width.two.bytes := by decide

theorem witness_VariablesDecodeElementByElement :
    wb.isArray = false ∧ wb.bitIndex = some 3 ∧ v.isArray = false ∧ v.bitIndex = none ∧
    v.format = .uint16 ∧ bits.isArray = true ∧ ([.bool true, .bool false, .bool true] : List Scalar).length = bits.length ∧
    (∀ j x, ([.bool true, .bool false, .bool true] : List Scalar)[j]? = some x →
      decOne rest.par bits .one [0x08, 0xF7, 0xFF] (Width.one.bytes * j) = .ok x) ∧
    knownFormat bits.format = true ∧ (∀ i, bits.bitIndex = some i → i ≤ 7) ∧
    Width.one.bytes * bits.elementCount ≤ ([0x08, 0xF7, 0xFF] : Bytes).length ∧
    ([0x08, 0xF7] : Bytes).length < Width.one.bytes * bits.elementCount := by
  refine ⟨by decide, by decide, by decide, by decide, by decide, by decide, by decide, ?_, by decide, ?_, by decide,
    by decide⟩
  · rintro (_ | _ | _ | j) x h <;> simp at h <;> subst h <;> decide
  · intro i h; cases h; decide

theorem witness_CodecRoundTripHoldsOnSurvivingValues :
    survives .int16 .two (.int (-32768)) ∧ survives .char .one (.char 0xFF) ∧
    (let var : VarDescr := { v with format := .int16, isArray := true, length := 2 }
     var.isArray = true ∧ var.bitIndex = none ∧
       var.length = ([.int 32767, .int (-32768)] : List Scalar).length) ∧
    decFormat .uint16 [0x34, 0x12] 0 .two = .ok (.int 4660) := by
  refine ⟨?_, ?_, by decide, by decide⟩ <;> simp [survives]

theorem witness_DigitsReadBackAsBytes :
    spells 0x46 15 ∧ spells 0x66 15 ∧ spells 0x30 0 ∧ (∀ n, ¬ spells 0x47 n) ∧
    (∀ c ∈ ([0x61, 0x62] : Bytes), ∃ n, spells c n) ∧ ([0x33] : Bytes).length % 2 = 1 := by
  refine ⟨by unfold spells; decide, by unfold spells; decide, by unfold spells; decide, ?_, ?_, by decide⟩
  · rintro n ⟨h, e⟩
    revert e
    exact (by decide : ∀ n < 16, ¬ ((0x47 : Byte) = digitChar n ∨ 0x47 = digitChar n ||| 0x20)) n h
  · intro c h
    simp only [List.mem_cons, List.not_mem_nil, or_false] at h
    rcases h with rfl | rfl
    · exact ⟨10, by unfold spells; decide⟩
    · exact ⟨11, by unfold spells; decide⟩

theorem witness_HeadersAreBuilt :
    countsFit rest.par.hdrCountRule 65535 ∧ ¬ countsFit rest.par.hdrCountRule 65536 ∧
    countsFit .requiredAndLast 65280 ∧ ¬ countsFit .requiredAndLast 65281 := by
  unfold countsFit; decide

theorem witness_BuiltFramesAreAccepted :
    rest.par.echo = .passes ∧
    (after (exec (.bldDb (List.replicate 256 0) false .hex) rest)).isSome = true ∧
    (after (exec (.bldHdr 0xFF .write .output 0xFFFF 65535 .ascii) rest)).isSome = true := by
  decide +kernel

theorem witness_BlocksSplitThePayload :
    blkmath .one 257 .hex = ⟨257, 2, 1⟩ ∧ (List.replicate 257 (0 : Byte)).length = 257 ∧
    blkmath .two 128 .hex = ⟨256, 1, 256⟩ ∧ (List.replicate 256 (0 : Byte)).length = 256 ∧
    0 + 1 < 2 ∧ 1 + 1 = 2 ∧ 0 + 1 = 1 := by decide +kernel

theorem witness_DataBlocksAreJudgedInByteOrder :
    expect true 2 .hex ≤ ([0x06, 0x02, 0x34, 0x12, 0x03, 0x25] : Bytes).length ∧
    ([0x06, 0x02, 0x34, 0x12, 0x03] : Bytes).length < expect true 2 .hex := by decide

theorem witness_HeadersAreJudged :
    (List.replicate 16 (0 : Byte)).length < 17 ∧ (List.replicate 17 (0 : Byte)).length < 18 := by decide

theorem witness_NoFalseAccept :
    prsDb rest.par [0x06, 0x02, 0x34, 0x12, 0x03, 0x25] true true 2 .hex = .ok (.ok [0x34, 0x12]) ∧
    rest.par.echo = .passes ∧ 5 < expect true 2 .hex ∧
    ([0x06, 0x02, 0x34, 0x12, 0x03, 0x25] : Bytes)[5]? = some 0x25 ∧ (0x24 : Byte) ≠ 0x25 ∧
    prsDb rest.par [0x02, 0x33, 0x03, 0x33, 0x30] false true 1 .ascii = .ok (.ok [0x33]) ∧
    4 < expect false 1 .ascii ∧ hexVal 0x31 ≠ hexVal 0x30 := by decide

theorem witness_RequestSizesAreComputed : 1 ≤ Width.two.bytes * 128 ∧ 256 = Width.two.bytes * 128 := by decide

theorem witness_SessionsStartWithAnEnquiry :
    rest.ses.state = .idle ∧ 1 ≤ (blkmath .two v.elementCount rest.cfg.mode).numBytes ∧
    (blkmath .two v.elementCount rest.cfg.mode).numBytes ≤ rest.par.accMax ∧ rest.cfg.station ≤ 0xDF ∧
    rEnq.ses.state ≠ .idle ∧
    (blkmath .two { v with isArray := true, length := 0 }.elementCount rest.cfg.mode).numBytes = 0 ∧
    rest.par.accMax < (blkmath .two { v with isArray := true, length := 32768 }.elementCount rest.cfg.mode).numBytes := by
  decide

theorem witness_CompletionArmsTheTimer :
    (sending 1).ses.txOutstanding = 0 + 1 ∧ (sending 1).ses.armOnTxc = some .t1 ∧
    (sending 2).ses.txOutstanding = 1 + 1 ∧
    { rest.ses with txOutstanding := 1 }.txOutstanding = 0 + 1 ∧ rest.ses.armOnTxc = none := by decide

theorem witness_IncompleteReceptionOnlyBuffers :
    rest.ses.state = .idle ∧ rEnq.ses.state ≠ .idle ∧ (rEnq.ses.rx ++ [0x4E, 0x21]).length < 3 ∧
    rDb.ses.state = .waitReadDataBlock ∧
    (rDb.ses.rx ++ [0x4E, 0x21, 0x05]).length < rDb.ses.expectedByteCount ∧
    (rEot.ses.rx ++ ([] : Bytes)).length < 1 ∧
    (headerBytes ⟨0, 0, 0, 0, 0, 0, 0, 0, 0, 0, 0, 0⟩ ++ [0, 0]).length < 47 := by decide

theorem witness_EnquiryResponseSendsTheHeader :
    rEnq.ses.state = .waitReadEnqAck ∧ rEnq.ses.rx ++ [0x4E, 0x21, 0x06] = [0x4E, 0x21, 0x06] ∧
    rEnq.ses.req = some ⟨v, .read, ⟨0x0401, .two⟩, 1, 2, []⟩ ∧ (headerCounts rEnq.par.hdrCountRule 2).1 ≤ 255 ∧
    wEnq.ses.state = .waitWriteEnqAck ∧ wEnq.ses.rx ++ [0, 0, 0x06, 0xFF] = [0, 0, 0x06, 0xFF] ∧
    wEnq.ses.req = some ⟨w, .write, ⟨0x0401, .two⟩, 1, 2, [0x34, 0x12]⟩ := by decide

theorem witness_GoodBlocksAreAppendedAndAcknowledged :
    rDb.par.echo = .passes ∧ rDb.ses.state = .waitReadDataBlock ∧ rDb.ses.blocksDone = 0 ∧
    ¬ 0 + 1 < rDb.ses.blocksRequired ∧ ([0x34, 0x12] : Bytes).length = rDb.ses.lastBlockSize ∧
    rDb.ses.expectedByteCount = 1 + 1 + 2 + 1 + 1 ∧
    checkField (xorOf ([0x34, 0x12] ++ [endByte true])) .hex = [0x25] ∧
    rDb.ses.rx ++ firstBlockBytes [0x34, 0x12] 0x03 (.raw 0x25) = [0x06, 0x02, 0x34, 0x12, 0x03, 0x25] ∧
    firstBlockBytes [0x34, 0x12] 0x03 (.raw 0x25) = 0x06 :: blockBytes [0x34, 0x12] 0x03 (.raw 0x25) := by
  decide

/-- The clause of a block that is not the last: a full block of zeros, the second of three. -/
theorem witness_GoodBlocksAreAppendedAndAcknowledged_next :
    let s : State := { rDb with ses := { rDb.ses with blocksRequired := 3, blocksDone := 1, expectedByteCount := 259 } }
    s.ses.state = .waitReadDataBlock ∧ 1 + 1 < s.ses.blocksRequired ∧
    s.ses.expectedByteCount = 0 + 1 + 256 + 1 + 1 ∧
    s.ses.rx ++ blockBytes (List.replicate 256 0) 0x17 (.raw 0x17) =
      [0x02] ++ List.replicate 256 0 ++ [endByte false] ++
        checkField (xorOf (List.replicate 256 0 ++ [endByte false])) .hex := by decide +kernel

theorem witness_EotEndsTheRead :
    rEot.ses.state = .waitReadEot ∧ rEot.ses.req = some ⟨v, .read, ⟨0x0401, .two⟩, 1, 2, []⟩ ∧
    rEot.ses.rx ++ [0x04] = [0x04] ∧ payd rEot.ses.acc rEot.cfg.mode = some [0x34, 0x12] ∧
    deca rEot.par v .two [0x34, 0x12] = .ok (.scalar (.int 4660)) ∧ rEot.sch.run = .running ∧
    rEot.sch.pendingWrite = none ∧ rEot.sch.cycle = some ⟨[v], [.null], 0⟩ ∧
    0 + 1 = [v].length ∧ [Value.null].length = [v].length ∧
    payd [0x33, 0x34, 0x47, 0x32] .ascii = none := by decide

theorem witness_AcksDriveTheWrite :
    wDb.ses.req = some ⟨w, .write, ⟨0x0401, .two⟩, 1, 2, [0x34, 0x12]⟩ ∧ wDb.ses.rx ++ [0x06] = [0x06] ∧
    wDb.ses.state = .waitWriteDataBlockAck ∧ wDb.ses.blocksDone < wDb.ses.blocksRequired ∧
    1 ≤ ((([0x34, 0x12] : Bytes).drop (256 * 0)).take (min (256 * (0 + 1)) 2 - 256 * 0)).length ∧
    ¬ wSent.ses.blocksDone < wSent.ses.blocksRequired ∧ wSent.ses.state = .waitWriteDataBlockAck ∧
    wEot.ses.state = .waitWriteEot := by decide

theorem witness_WrongBytesAbortTheSession :
    rEnq.ses.req = some ⟨v, .read, ⟨0x0401, .two⟩, 1, 2, []⟩ ∧ rEnq.ses.state = .waitReadEnqAck ∧
    rEnq.ses.rx ++ [0x4E, 0x21, 0x15] = [0x4E, 0x21, 0x15] ∧ (0x15 : Byte) ≠ 0x06 ∧
    rDb.ses.state = .waitReadDataBlock ∧
    rDb.ses.expectedByteCount ≤ (rDb.ses.rx ++ [0x06, 0x02, 0x34, 0x13, 0x03, 0x25]).length ∧
    prsDb rDb.par [0x06, 0x02, 0x34, 0x13, 0x03, 0x25] true true 2 .hex = .ok (.fail .checksumMismatch) ∧
    rEot.ses.state = .waitReadEot ∧ (0x06 : Byte) ≠ 0x04 ∧ wDb.ses.state = .waitWriteDataBlockAck ∧
    wEot.ses.state = .waitWriteEot := by decide

theorem witness_AbortsSendEotAndRaise :
    rEnq.ses.state ≠ .idle ∧ rEnq.ses.req = some ⟨v, .read, ⟨0x0401, .two⟩, 1, 2, []⟩ ∧
    rEnq.ses.timer = .armed .t1 ∧ (after (exec .tmo rEnq)).isSome = true ∧
    AlertKey.ackNotReceivedError.inSession = true ∧
    wSent.ses.timer = .armed .t4 ∧ (after (exec (.abort .ackNotReceivedError false) wSent)).isSome = true := by
  decide

theorem witness_AbortedSessionsEndInIdle :
    closingS.ses.state ≠ .idle ∧ closingS.ses.req = some ⟨v, .read, ⟨0x0401, .two⟩, 1, 2, []⟩ ∧
    closingS.sch.cycle = some ⟨[v], [.null], 0⟩ ∧ 0 < [Value.null].length ∧ closingS.sch.run = .closing ∧
    wDb.ses.state ≠ .idle ∧ wDb.sch.pendingWrite = none ∧ wDb.sch.cycle = none ∧
    wDb.sch.readPending = false ∧ wDb.ses.timer = .armed .t4 ∧
    AlertKey.readTimeoutError.inSession = true ∧ AlertKey.payloadFormatError.inSession = true := by decide

theorem witness_DoneRecordsTheOutcome :
    closingS.ses.state ≠ .idle ∧ outcomeDir (.readFail true) = .read ∧ closingS.sch.run = .closing ∧
    wEot.ses.state ≠ .idle ∧ wEot.ses.req = some ⟨w, .write, ⟨0x0401, .two⟩, 1, 2, [0x34, 0x12]⟩ ∧
    outcomeDir .writeOk ≠ .read ∧ wEot.sch.pendingWrite = none ∧ wEot.sch.cycle = none ∧
    wEot.sch.readPending = false ∧
    rEot.sch.run ≠ .closing ∧ rEot.sch.pendingWrite = none ∧ rEot.sch.cycle = some ⟨[v], [.null], 0⟩ ∧
    (stored .null ⟨[v], [.null], 0⟩).cursor = [v].length ∧
    (stored .null ⟨[v], [.null], 0⟩).results.length = [v].length ∧
    (let s : State := { wEot with sch := { wEot.sch with cycle := some ⟨[v], [.null], 1⟩ } }
     s.sch.run ≠ .closing ∧ s.sch.pendingWrite = none ∧ s.sch.cycle = some ⟨[v], [.null], 1⟩ ∧
       1 = [v].length ∧ [Value.null].length = [v].length) := by decide

theorem witness_QueuedWorkRunsInOrder :
    (let s : State := { rEot with sch := { rEot.sch with pendingWrite := some ⟨w, .scalar (.int 7)⟩ } }
     s.ses.state ≠ .idle ∧ s.sch.run ≠ .closing ∧ xltVar w = some ⟨0x0401, .two⟩ ∧
       enca s.par w.format (.scalar (.int 7)) .two w.isArray w.length = .ok [0x07, 0x00]) ∧
    (let s : State := { wEot with sch := { wEot.sch with cycle := some ⟨[bad, v], [.null, .null], 0⟩ } }
     s.ses.state ≠ .idle ∧ s.sch.run ≠ .closing ∧ s.sch.pendingWrite = none ∧
       ([bad, v] : List VarDescr).drop 0 = [bad] ++ v :: [] ∧ xltVar bad = none ∧
       (([bad] ++ [v]).map VarDescr.name).Nodup ∧ v.name ∉ s.sch.invalidLatched ∧
       xltVar v = some ⟨0x0401, .two⟩) ∧
    (let s : State := { wEot with sch := { wEot.sch with
        cycle := some ⟨[v, bad], [.null, .null], 1⟩, invalidLatched := [[0x62]] } }
     s.sch.pendingWrite = none ∧ ([v, bad] : List VarDescr).drop 1 = [bad] ∧
       bad.name ∈ s.sch.invalidLatched ∧ [Value.null, .null].length = [v, bad].length) ∧
    (closingS.sch.run = .closing ∧ closingS.ses.state ≠ .idle ∧ closingS.ses.req.isSome = true ∧
      closingS.sch.cycle = some ⟨[v], [.null], 0⟩) ∧
    (let s : State := { wEot with sch := { wEot.sch with readPending := true } }
     s.sch.pendingWrite = none ∧ s.sch.cycle = none ∧ s.sch.readPending = true ∧ s.sch.run = .running) := by
  decide

theorem witness_AcceptedConfigurationsAreLoaded :
    rest.sch.run = .running ∧ rest.ses.state = .idle ∧ ConfigAccepted rest.par rest.cfg ∧
    ¬ ConfigAccepted rest.par { rest.cfg with station := 0xE0 } ∧ closedS.sch.run = .closed := by
  refine ⟨by decide, by decide, rest_cfg_accepted, ?_, by decide⟩
  rw [← cfgOk_iff]
  decide

theorem witness_PollReadsTheFirstReadableVariable :
    (let s := idleWith .hex [bad, v]
     s.sch.run = .running ∧ s.ses.state = .idle ∧ pollList s.cfg = [bad] ++ v :: [] ∧
       (([bad] ++ [v]).map VarDescr.name).Nodup ∧ xltVar bad = none ∧ v.name ∉ s.sch.invalidLatched) ∧
    xltVar v = some ⟨0x0401, .two⟩ ∧ 1 ≤ (blkmath .two v.elementCount .hex).numBytes ∧
    (blkmath .two v.elementCount .hex).numBytes ≤ rest.par.accMax ∧ rest.cfg.station ≤ 0xDF := by decide

theorem witness_PollOfNothingReadableReportsNulls :
    (let s := idleWith .hex [bad, w]
     s.sch.run = .running ∧ s.ses.state = .idle ∧ pollList s.cfg = [bad] ∧ xltVar bad = none) ∧
    pollList (idleWith .hex [w]).cfg = [] := by decide

theorem witness_PollDuringASessionIsDeferredOrLost :
    wDb.sch.run = .running ∧ wDb.ses.state ≠ .idle ∧ wDb.ses.req.map Request.dir = some .write ∧
    rDb.sch.run = .running ∧ rDb.ses.state ≠ .idle ∧ rDb.ses.req.map Request.dir = some .read := by decide

theorem witness_WriteRequestsAreCheckedInOrder :
    closedS.sch.run ≠ .running ∧ rest.sch.run = .running ∧ (∀ u ∈ rest.cfg.vars, u.name ≠ [0x00]) ∧
    rest.cfg.vars.find? (fun u => u.name = [0x76]) = some v ∧ v.access = .read ∧
    (idleWith .hex [wb]).cfg.vars.find? (fun u => u.name = [0x78]) = some wb ∧ wb.access = .write ∧
    wb.bitIndex.isSome = true ∧ rest.cfg.vars.find? (fun u => u.name = [0x77]) = some w ∧
    xltVar w = some ⟨0x0401, .two⟩ ∧
    enca rest.par w.format .null .two w.isArray w.length = .error .typeMismatch ∧
    enca rest.par w.format (.scalar (.int 7)) .two w.isArray w.length = .ok [0x07, 0x00] ∧
    rEnq.ses.state ≠ .idle ∧
    { rEnq.sch with pendingWrite := some ⟨w, .scalar (.int 7)⟩ }.pendingWrite.isSome = true := by decide

theorem witness_WriteRequestsStartOrQueue :
    rest.sch.run = .running ∧ rest.cfg.vars.find? (fun u => u.name = [0x77]) = some w ∧ w.access = .write ∧
    w.bitIndex = none ∧ xltVar w = some ⟨0x0401, .two⟩ ∧
    enca rest.par w.format (.scalar (.int 7)) .two w.isArray w.length = .ok [0x07, 0x00] ∧
    rest.ses.state = .idle ∧ rest.cfg.station ≤ 0xDF ∧
    1 ≤ (blkmath .two w.elementCount rest.cfg.mode).numBytes ∧
    (blkmath .two w.elementCount rest.cfg.mode).numBytes ≤ rest.par.accMax ∧
    rEnq.ses.state ≠ .idle ∧ rEnq.sch.pendingWrite = none ∧
    (idleWith .hex [wo]).cfg.vars.find? (fun u => u.name = [0x6F]) = some wo ∧ xltVar wo = none := by decide

theorem witness_DebounceReportsTheLinkDown :
    debS.sch.debounce = .armed ∧ debS.sch.link ≠ .reportedFalse ∧
    (let s : State := { debS with sch := { debS.sch with link := .reportedFalse } }
     s.sch.debounce = .armed ∧ s.sch.link = .reportedFalse) := by decide

theorem witness_CloseWaitsThenForces :
    rest.sch.run = .running ∧ rest.ses.state = .idle ∧ rEnq.sch.run = .running ∧ rEnq.ses.state ≠ .idle ∧
    closingS.sch.run = .closing ∧ closingS.ses.state ≠ .idle ∧
    closingS.par.closeMaxWaitMs ≤ closingS.sch.closeWaited + closingS.par.closePollMs ∧
    closingS.ses.req.isSome = true ∧
    (let s : State := { closingS with sch := { closingS.sch with closeWaited := 199 } }
     s.sch.closeWaited + s.par.closePollMs < s.par.closeMaxWaitMs) ∧
    (let s : State := { rest with sch := { rest.sch with run := .closing } }
     s.sch.run = .closing ∧ s.ses.state = .idle) := by decide

end Sys2Proof.Tests
end

/-! PROOFS. The state as a whole (`10_state.md`): what each instruction may answer, what it leaves unchanged
and what it announces (O8, O9, O10, O11, O15). -/

namespace Sys2Proof.Machine

/-! ## The meanings of the instructions, by kind -/

/-- A unit operation answers a function of its operands and the build-time parameters (R20). -/
theorem exec_unit {i : Instr} (h : i.isUnit = true) :
    ∃ e : Config.Params → Except Reason Reply, ∀ s, exec i s = answer (e s.par) s := by
  cases i with
  | encInt8 v w => exact ⟨fun p => (encInt8 p v w).map .bytes, fun _ => rfl⟩
  | encUint8 v w => exact ⟨fun p => (encUint8 p v w).map .bytes, fun _ => rfl⟩
  | enca f v w arr n => exact ⟨fun p => (enca p f v w arr n).map .bytes, fun _ => rfl⟩
  | decBit f b cur w k pos =>
    exact ⟨fun p => (decBit p f b cur w k pos).map fun v => .value (.scalar v), fun _ => rfl⟩
  | deca var w b => exact ⟨fun p => (deca p var w b).map .value, fun _ => rfl⟩
  | bldHdr st d mt ref n m => exact ⟨fun p => (bldHdr p st d mt ref n m).map .bytes, fun _ => rfl⟩
  | prsDb rx a f size m => exact ⟨fun p => (prsDb p rx a f size m).map .block, fun _ => rfl⟩
  | xlt | hexe | hexd | paye | payd | bldEot | bldAck | blkmath | expect =>
    exact ⟨fun _ => .ok _, fun _ => rfl⟩
  | chk | encChar | encBool | encInt16 | encUint16 | encUint32 | encUint64 | decChar | decBool | decInt8
  | decUint8 | decInt16 | decUint16 | decUint32 | decUint64 | bldEnq | bldDb | prsEnqAck | prsAck | prsEot
  | prsHdr => exact ⟨fun _ => _, fun _ => rfl⟩
  | cfg | poll | wrq | rxb | txc | tmo | dbt | cls | cpt | srd | swr | abort | finish | frameEnq
  | frameHdrHex | frameHdrAscii | frameDbHex | frameDbAscii | frameEot | frameAck | frameEnqRsp
  | frameDbFirst => cases h

/-- The instructions by what they do: a unit operation answers (R20), `RXB` and every frame are a reception
(R268; log 12), and each other event and internal operation has a meaning of its own. -/
inductive Meaning : Instr → Prop
  | unit {i : Instr} (e : Config.Params → Except Reason Reply)
      (h : ∀ s, exec i s = answer (e s.par) s) : Meaning i
  | reception {i : Instr} (chunk : Bytes) (h : ∀ s, exec i s = toOutcome (receive chunk s)) : Meaning i
  | cfg (c : Cfg) : Meaning (.cfg c)
  | poll : Meaning .poll
  | wrq (name : VarName) (value : Value) : Meaning (.wrq name value)
  | txc : Meaning .txc
  | tmo : Meaning .tmo
  | dbt : Meaning .dbt
  | cls : Meaning .cls
  | cpt : Meaning .cpt
  | srd (var : VarDescr) (xa : XAddr) : Meaning (.srd var xa)
  | swr (var : VarDescr) (xa : XAddr) (raw : Bytes) : Meaning (.swr var xa raw)
  | abort (key : AlertKey) (timeout : Bool) : Meaning (.abort key timeout)
  | finish (outcome : SessionOutcome) : Meaning (.finish outcome)

theorem meaning (i : Instr) : Meaning i := by
  cases hu : i.isUnit with
  | true =>
    obtain ⟨e, he⟩ := exec_unit hu
    exact .unit e he
  | false =>
    cases i with
    | rxb | frameEnq | frameHdrHex | frameHdrAscii | frameDbHex | frameDbAscii | frameEot | frameAck
    | frameEnqRsp | frameDbFirst => exact .reception _ fun _ => rfl
    | cfg c => exact .cfg c
    | poll => exact .poll
    | wrq name value => exact .wrq name value
    | txc => exact .txc
    | tmo => exact .tmo
    | dbt => exact .dbt
    | cls => exact .cls
    | cpt => exact .cpt
    | srd var xa => exact .srd var xa
    | swr var xa raw => exact .swr var xa raw
    | abort key timeout => exact .abort key timeout
    | finish outcome => exact .finish outcome
    | _ => cases hu

/-! ## No delivery faults (R41, R261, R272, R331) -/

/-- An instruction's outcome that is no fault: a next state, a refusal of R371, or an event that is not
enabled (R41). -/
inductive FaultFree : Host.Outcome State Fault Refusal → Prop
  | next (t : State) : FaultFree (.next t)
  | refuse (r : Reason) : FaultFree (.refused (.refuse r))
  | notEnabled : FaultFree (.refused .notEnabled)

section
variable {s : State}

theorem answer_faultFree (e : Except Reason Reply) (s : State) : FaultFree (answer e s) := by
  cases e with
  | ok r => exact .next _
  | error r => exact .refuse r

theorem toOutcome_faultFree {e : Except Stop State} (h : ∃ t, e = .ok t) : FaultFree (toOutcome e) := by
  obtain ⟨t, rfl⟩ := h
  exact .next t

/-- Outside `Idle` a request is present (R272 item 1). -/
theorem Core.exists_req (h : Core s) (hi : s.ses.state ≠ .idle) : ∃ r, s.ses.req = some r :=
  Option.ne_none_iff_exists'.mp fun e => hi (h.session.req_iff.mpr e)

theorem execCfg_faultFree (c : Cfg) (s : State) : FaultFree (execCfg c s) := by
  unfold execCfg
  split
  · exact .refuse _
  split
  · exact .notEnabled
  split
  · exact .next _
  · exact .refuse _

/-- A tick starts a cycle, is remembered, or is lost (R334). -/
theorem pollTick_ok (h : Core s) (ha : s.par.accMax ≤ 65535) (hr : s.sch.run = .running) :
    ∃ t, pollTick s = .ok t := by
  unfold pollTick
  by_cases hi : s.ses.state = .idle
  · obtain ⟨-, hp, hrp⟩ := h.sched.rest hr hi
    obtain ⟨t, ht, -, -⟩ := startCycle_core (h.between ha hi (.inl hr)) hr hp hrp
    exact ⟨t, by rw [if_pos hi, ht]⟩
  · obtain ⟨r, hq⟩ := h.exists_req hi
    rw [if_neg hi, hq]
    dsimp only
    cases r.dir with
    | read => exact ⟨_, rfl⟩
    | write => exact ⟨_, rfl⟩

theorem execPoll_faultFree (h : Core s) (ha : s.par.accMax ≤ 65535) : FaultFree (execPoll s) := by
  unfold execPoll
  split
  · exact toOutcome_faultFree (pollTick_ok h ha ‹_›)
  · exact .notEnabled

/-- A write whose variable is configured is reported, started, queued, or refused (R340). -/
theorem acceptWrite_faultFree (h : Core s) (ha : s.par.accMax ≤ 65535) (hr : s.sch.run = .running)
    {var : VarDescr} (hv : DescrAccepted s.par s.cfg.mode var) (value : Value) :
    FaultFree (toOutcome (acceptWrite var value s)) := by
  unfold acceptWrite
  cases hx : xltVar var with
  | none => exact .next _
  | some xa =>
    dsimp only
    cases he : enca s.par var.format value xa.bpe var.isArray var.length with
    | error r => exact .refuse r
    | ok raw =>
      show FaultFree (toOutcome (ite _ _ _))
      by_cases hi : s.ses.state = .idle
      · rw [if_pos hi]
        obtain ⟨t, ht, -, -⟩ :=
          (h.between ha hi (.inl hr)).dispatch (pw := ⟨var, value⟩) ⟨hv, xa, raw, hx, he⟩
        exact toOutcome_faultFree ⟨t, ht⟩
      · rw [if_neg hi]
        cases s.sch.pendingWrite with
        | some _ => exact .refuse .busy
        | none => exact .next _

theorem execWrq_faultFree (h : Core s) (ha : s.par.accMax ≤ 65535) (name : VarName) (value : Value) :
    FaultFree (execWrq name value s) := by
  unfold execWrq writeRequest
  by_cases hr : s.sch.run = .running
  · rw [if_neg (not_not.mpr hr)]
    cases hf : findVar s.cfg name with
    | none => exact .refuse .unknownVariable
    | some var =>
      dsimp only
      split
      · exact .refuse .notWritable
      split
      · exact .refuse .bitWriteUnsupported
      · have hc := h.sched.configured (by rw [hr]; decide)
        exact acceptWrite_faultFree h ha hr (hc.vars var (List.mem_of_find?_eq_some hf)) value
  · rw [if_pos hr]
    exact .refuse .notRunning

theorem execTxc_faultFree (s : State) : FaultFree (execTxc s) := by
  unfold execTxc
  split
  · exact .notEnabled
  · exact .next _

/-- A timeout aborts the session that armed the timer (R269, R270). -/
theorem execTmo_faultFree (h : Core s) (ha : s.par.accMax ≤ 65535) : FaultFree (execTmo s) := by
  unfold execTmo
  split
  · rename_i key _ hk
    obtain ⟨r, hq⟩ := h.exists_req fun hi => by rw [hi] at hk; cases hk
    obtain ⟨t, ht, -, -⟩ := (h.ending ha hq).takeAbort key true
    exact toOutcome_faultFree ⟨t, ht⟩
  · exact .notEnabled

theorem execDbt_faultFree (s : State) : FaultFree (execDbt s) := by
  unfold execDbt
  split
  · exact .next _
  · exact .notEnabled

theorem execCls_faultFree (s : State) : FaultFree (execCls s) := by
  unfold execCls
  split
  · split
    · exact .next _
    · exact .next _
  · exact .notEnabled

/-- A close-poll tick ends the close, waits on, or forces the session to its end (R356). -/
theorem closePoll_ok (h : Core s) : ∃ t, closePoll s = .ok t := by
  unfold closePoll
  by_cases hi : s.ses.state = .idle
  · exact ⟨_, if_pos hi⟩
  · obtain ⟨r, hq⟩ := h.exists_req hi
    rw [if_neg hi]
    dsimp only
    split
    · exact ⟨_, by simp only [forceIdle, hq]; rfl⟩
    · exact ⟨_, rfl⟩

theorem execCpt_faultFree (h : Core s) : FaultFree (execCpt s) := by
  unfold execCpt
  split
  · exact toOutcome_faultFree (closePoll_ok h)
  · exact .notEnabled

/-- Under the invariant nothing that arrives at a port faults (R41). -/
theorem exec_faultFree (h : Core s) (ha : s.par.accMax ≤ 65535) {i : Instr} (hp : i.isPort = true) :
    FaultFree (exec i s) := by
  cases meaning i with
  | unit e he => rw [he]; exact answer_faultFree _ s
  | reception chunk he =>
    obtain ⟨t, ht, -, -⟩ := receive_core h ha chunk
    rw [he]
    exact toOutcome_faultFree ⟨t, ht⟩
  | cfg c => exact execCfg_faultFree c s
  | poll => exact execPoll_faultFree h ha
  | wrq name value => exact execWrq_faultFree h ha name value
  | txc => exact execTxc_faultFree s
  | tmo => exact execTmo_faultFree h ha
  | dbt => exact execDbt_faultFree s
  | cls => exact execCls_faultFree s
  | cpt => exact execCpt_faultFree h
  | srd | swr | abort | finish => cases hp

theorem settle_of_faultFree {o : Host.Outcome State Fault Refusal} (h : FaultFree o) (s : State) :
    (∃ t, settle o s = .next t) ∨ settle o s = .refused .notEnabled := by
  cases h with
  | next t => exact .inl ⟨t, rfl⟩
  | refuse r => exact .inl ⟨_, rfl⟩
  | notEnabled => exact .inr rfl

/-- Taking a delivery leaves everything the invariant of session and scheduler reads (R20). -/
theorem Core.take (h : Core s) (ds : List Input) : Core (s.take ds) := ⟨h.session, { h.sched with }⟩

theorem isPort_of_portInput {d : Input} {i : Instr} (hp : portInput d = true) (hd : decode d = .ok i) :
    i.isPort = true := by
  simpa only [portInput, hd] using hp

theorem step_of_empty (hq : s.inbox = []) : step s = .next s := by
  unfold step; rw [hq]

theorem step_of_undecodable {d : Input} {ds : List Input} {e : DecodeError} (hq : s.inbox = d :: ds)
    (hd : decode d = .error e) : step s = .refused (.undecodable e) := by
  unfold step; rw [hq]; simp only [hd]

theorem step_of_decode {d : Input} {ds : List Input} {i : Instr} (hq : s.inbox = d :: ds)
    (hd : decode d = .ok i) : step s = settle (exec i (s.take ds)) (s.take ds) := by
  unfold step; rw [hq]; simp only [hd]

end

/-- Settles O8: every meaning is fault free under the invariant (`exec_faultFree`), and `settle` turns a
refusal of R371 into a next state. -/
theorem noStepFaultsUnderTheEngineInvariant : Obligations.NoStepFaultsUnderTheEngineInvariant := by
  intro s h
  cases hq : s.inbox with
  | nil => exact .inl ⟨s, step_of_empty hq⟩
  | cons d ds =>
    cases hd : decode d with
    | error e => exact .inr (.inr ⟨e, step_of_undecodable hq hd⟩)
    | ok i =>
      have hport : portInput d = true := h.ports d (by rw [hq]; exact List.mem_cons_self)
      have hcore : Core (s.take ds) := Core.take ⟨h.session, h.sched⟩ ds
      have hexec : FaultFree (exec i (s.take ds)) :=
        exec_faultFree hcore h.accMax (isPort_of_portInput hport hd)
      rw [step_of_decode hq hd]
      exact (settle_of_faultFree hexec (s.take ds)).imp_right .inl

/-! ## Unit operations (R20) -/

/-- Settles O9: by `exec_unit` the answer is a function of the operands and the parameters alone. -/
theorem unitOperationsWriteNoState : Obligations.UnitOperationsWriteNoState := by
  intro i s t hi h
  obtain ⟨e, he⟩ := exec_unit hi
  rw [he] at h
  obtain ⟨r, hr, rfl⟩ := answer_next.mp h
  exact ⟨r, rfl, fun u hu => by rw [he]; exact answer_next.mpr ⟨r, hu ▸ hr, rfl⟩⟩

/-! ## What every instruction leaves unchanged and announces (R20, R38, R42) -/

section
variable {s : State}

/-- A unit operation emits nothing: the state it leaves differs in the answer. -/
theorem answer_emits {e : Except Reason Reply} {t : State} (h : answer e s = .next t) : Emits s [] t := by
  obtain ⟨r, -, rfl⟩ := answer_next.mp h
  exact Emits.silent rfl rfl rfl rfl rfl rfl rfl

theorem execPoll_emits {t : State} (h : execPoll s = .next t) : ∃ os, Emits s os t := by
  unfold execPoll at h
  split at h
  · exact pollTick_emits (toOutcome_next.mp h)
  · cases h

theorem execTmo_emits {t : State} (h : execTmo s = .next t) : ∃ os, Emits s os t := by
  unfold execTmo at h
  split at h
  · exact takeAbort_emits (timeoutKey_inSession ‹_›) (toOutcome_next.mp h)
  · cases h

theorem execDbt_emits {t : State} (h : execDbt s = .next t) : ∃ os, Emits s os t := by
  unfold execDbt at h
  split at h
  · cases h; exact debounceExpired_emits s
  · cases h

theorem execAbort_emits {k : AlertKey} {b : Bool} {t : State} (h : execAbort k b s = .next t) :
    ∃ os, Emits s os t := by
  unfold execAbort at h
  split at h
  · cases h
  · rename_i hk
    exact takeAbort_emits (by simpa using (not_or.mp hk).2) (toOutcome_next.mp h)

theorem execFinish_emits {o : SessionOutcome} {t : State} (h : execFinish o s = .next t) :
    ∃ os, Emits s os t := by
  unfold execFinish at h
  split at h
  · cases h
  · exact endSession_emits (toOutcome_next.mp h)

/-- Every instruction but the four that load, forget or uncount: `CFG`, `TXC`, `CLS` and `CPT`. -/
theorem exec_emits {i : Instr} {t : State} (h : exec i s = .next t) (hcfg : ∀ c, i ≠ .cfg c)
    (htxc : i ≠ .txc) (hcls : i ≠ .cls) (hcpt : i ≠ .cpt) : ∃ os, Emits s os t := by
  cases meaning i with
  | unit e he => exact ⟨[], answer_emits (he s ▸ h)⟩
  | reception chunk he => exact receive_emits (toOutcome_next.mp (he s ▸ h))
  | cfg c => exact absurd rfl (hcfg c)
  | poll => exact execPoll_emits h
  | wrq name value => exact writeRequest_emits (toOutcome_next.mp h)
  | txc => exact absurd rfl htxc
  | tmo => exact execTmo_emits h
  | dbt => exact execDbt_emits h
  | cls => exact absurd rfl hcls
  | cpt => exact absurd rfl hcpt
  | srd var xa => exact ⟨_, openSession_emits (toOutcome_next.mp h)⟩
  | swr var xa raw => exact ⟨_, openSession_emits (toOutcome_next.mp h)⟩
  | abort key timeout => exact execAbort_emits h
  | finish outcome => exact execFinish_emits h

/-- From `s` to `t` exactly `os` was emitted and the alert bits followed; configuration, build-time
parameters and waiting deliveries stayed. The part of `Emits` that holds of `TXC`, `CLS` and `CPT` too. -/
structure Announces (s : State) (os : List Output) (t : State) : Prop where
  par : t.par = s.par
  cfg : t.cfg = s.cfg
  inbox : t.inbox = s.inbox
  out : t.out = s.out ++ os
  raised : t.raised = os.foldl sinkStep s.raised
  external : ∀ o ∈ os, isExternalAlert o = false

theorem Emits.announces {os : List Output} {t : State} (h : Emits s os t) : Announces s os t :=
  ⟨h.par, h.cfg, h.inbox, h.out, h.raised, h.external⟩

theorem Announces.trans {t u : State} {a b : List Output} (h : Announces s a t) (g : Announces t b u) :
    Announces s (a ++ b) u where
  par := g.par.trans h.par
  cfg := g.cfg.trans h.cfg
  inbox := g.inbox.trans h.inbox
  out := by rw [g.out, h.out, List.append_assoc]
  raised := by rw [g.raised, h.raised, List.foldl_append]
  external o ho := (List.mem_append.mp ho).elim (h.external o) (g.external o)

/-- A change of the session and the scheduler that nothing announces. -/
theorem Announces.silent (s : State) (ses : Session) (sch : Sched) :
    Announces s [] { s with ses := ses, sch := sch } := by constructor <;> simp

theorem Announces.newOutputs_eq {os : List Output} {t : State} (h : Announces s os t) :
    newOutputs s t = os := by
  rw [newOutputs, h.out, List.drop_left]

/-- The alert sink, told the new outputs, holds the sticky bits (R38). -/
theorem Announces.alertBits {os : List Output} {t : State} (h : Announces s os t) :
    t.out = s.out ++ newOutputs s t ∧ t.raised = (newOutputs s t).foldl sinkStep s.raised ∧
      ∀ o ∈ newOutputs s t, isExternalAlert o = false := by
  rw [h.newOutputs_eq]
  exact ⟨h.out, h.raised, h.external⟩

theorem completeTx_announces (s : State) : Announces s [] (completeTx s) := by
  unfold completeTx
  dsimp only
  split
  · exact .silent s _ s.sch
  · exact .silent s _ s.sch

/-- A close announces the write it drops and its own end, and no alert (R357). -/
theorem finishClose_announces (s : State) : ∃ os, Announces s os (finishClose s) := by
  rw [finishClose_eq]
  refine ⟨_, rfl, rfl, rfl, List.append_assoc .., ?_, ?_⟩
  · cases s.sch.pendingWrite <;> rfl
  · cases s.sch.pendingWrite <;> simp [isExternalAlert]

theorem forceIdle_announces {t : State} (h : forceIdle s = .ok t) : ∃ os, Announces s os t := by
  unfold forceIdle at h
  split at h
  · cases h
  · rename_i r _
    cases h
    have hend : ∀ u, ∃ os, Announces u os (finishClose (clearSession u)) := fun u =>
      have ⟨_, hu⟩ := finishClose_announces (clearSession u)
      ⟨_, (Announces.silent u _ u.sch).trans hu⟩
    split
    · obtain ⟨os, ho⟩ := hend (emit (.writeDone r.var.name false) s)
      exact ⟨_, (writeDone_emits r.var.name false s).announces.trans ho⟩
    · exact hend s

theorem closePoll_announces {t : State} (h : closePoll s = .ok t) : ∃ os, Announces s os t := by
  unfold closePoll at h
  split at h
  · cases h; exact finishClose_announces s
  dsimp only at h
  split at h
  · obtain ⟨os, ho⟩ := forceIdle_announces h
    exact ⟨_, (Announces.silent s s.ses _).trans ho⟩
  · cases h; exact ⟨_, .silent s s.ses _⟩

theorem execTxc_announces {t : State} (h : execTxc s = .next t) : Announces s [] t := by
  unfold execTxc at h
  split at h
  · cases h
  · cases h; exact completeTx_announces s

theorem execCls_announces {t : State} (h : execCls s = .next t) : ∃ os, Announces s os t := by
  unfold execCls at h
  split at h
  · split at h
    · cases h; exact finishClose_announces s
    · cases h; exact ⟨_, .silent s s.ses _⟩
  · cases h

theorem execCpt_announces {t : State} (h : execCpt s = .next t) : ∃ os, Announces s os t := by
  unfold execCpt at h
  split at h
  · exact closePoll_announces (toOutcome_next.mp h)
  · cases h

/-- `CFG` loads its operand, and else only clears the alerts of class Config (R332, R373). -/
theorem execCfg_announces {c : Cfg} {t : State} (h : execCfg c s = .next t) :
    ∃ os, Announces { s with cfg := c } os t := by
  unfold execCfg at h
  split at h
  · cases h
  split at h
  · cases h
  split at h
  · cases h
    obtain ⟨os, ho⟩ := clearAlerts_emits configClass
      { s with cfg := c, sch := { s.sch with invalidLatched := [] } } (by decide)
    exact ⟨_, ((Announces.silent { s with cfg := c } s.ses _).trans ho.announces).trans (.silent _ _ _)⟩
  · cases h

/-- Every instruction but `CFG` announces what it does to the alert bits, and keeps the rest (R20). -/
theorem exec_announces {i : Instr} {t : State} (h : exec i s = .next t) (hcfg : ∀ c, i ≠ .cfg c) :
    ∃ os, Announces s os t := by
  by_cases htxc : i = .txc
  · subst htxc; exact ⟨[], execTxc_announces h⟩
  by_cases hcls : i = .cls
  · subst hcls; exact execCls_announces h
  by_cases hcpt : i = .cpt
  · subst hcpt; exact execCpt_announces h
  obtain ⟨os, ho⟩ := exec_emits h hcfg htxc hcls hcpt
  exact ⟨os, ho.announces⟩

end

/-- Settles O10: what `Announces` keeps, from `s` or, for `CFG`, from `s` with the operand loaded. -/
theorem onlyCfgWritesTheConfiguration : Obligations.OnlyCfgWritesTheConfiguration := by
  intro i s t h
  by_cases hc : ∃ c, i = .cfg c
  · obtain ⟨c, rfl⟩ := hc
    obtain ⟨os, ho⟩ := execCfg_announces h
    exact ⟨ho.par, ho.inbox, fun hn => absurd rfl (hn c), fun _ e => by cases e; exact ho.cfg⟩
  · have hn : ∀ c, i ≠ .cfg c := not_exists.mp hc
    obtain ⟨os, ho⟩ := exec_announces h hn
    exact ⟨ho.par, ho.inbox, fun _ => ho.cfg, fun c e => absurd e (hn c)⟩

/-- Settles O11: `Announces.alertBits`, for `CFG` from the state with the operand loaded, which has the same
outputs and alert bits. -/
theorem alertBitsFollowTheOutputs : Obligations.AlertBitsFollowTheOutputs := by
  intro i s t h
  by_cases hc : ∃ c, i = .cfg c
  · obtain ⟨c, rfl⟩ := hc
    obtain ⟨os, ho⟩ := execCfg_announces h
    exact ho.alertBits
  · obtain ⟨os, ho⟩ := exec_announces h (not_exists.mp hc)
    exact ho.alertBits

/-! ## Which events are enabled (R41) -/

/-- Settles O15: each event's meaning begins with the condition that enables it. -/
theorem eventsOutsideTheirStatesAreNotEnabled : Obligations.EventsOutsideTheirStatesAreNotEnabled := by
  intro s
  refine ⟨fun h => if_neg h, fun h => if_pos h, fun h => ?tmo, fun h => if_neg ?dbt, fun h => if_neg h,
    fun h => if_neg h, fun c hr hs => ?cfg, fun h => ⟨fun k b => if_pos (.inl h), fun o => if_pos h⟩,
    fun k b h => if_pos (.inr h)⟩
  case tmo => simp only [exec, execTmo, h]
  case dbt => rw [h]; decide
  case cfg => simp only [exec, execCfg, if_neg hr, if_pos hs]

end Sys2Proof.Machine

/-! PROOFS. The encoding (`30_encoding.md`): decoder and encoder undo each other, the table's words decode, a
frame is received as its bytes, and the Header is built (O1, O2, O3, O42, O31). -/

namespace Sys2Proof

/-! ## What the decoder accepts (R120, R94 to R100) -/

theorem checked_eq_ok {i j : Instr} : checked i = .ok j ↔ i = j ∧ j.wf = true := by
  unfold checked
  constructor
  · intro h
    split at h
    · rename_i hw
      cases h
      exact ⟨rfl, hw⟩
    · cases h
  · rintro ⟨rfl, hw⟩
    exact if_pos hw

theorem decode_op_eq_ok {n : Byte} {ops : Operands} {i : Instr} :
    decode (.op n ops) = .ok i ↔
      n.toNat ∈ opNumbers ∧ decodeOp n.toNat ops = some i ∧ i.wf = true := by
  unfold decode
  by_cases hn : n.toNat ∈ opNumbers
  · cases h : decodeOp n.toNat ops with
    | none => simp [hn, h]
    | some j => simp [hn, h, checked_eq_ok]
  · simp [hn]

theorem decode_wire_eq_ok {m : Mode} {b : Bytes} {i : Instr} :
    decode (.wire m b) = .ok i ↔ decodeWire m b = some i ∧ i.wf = true := by
  unfold decode
  cases h : decodeWire m b with
  | none => simp [h]
  | some j => simp [h, checked_eq_ok]

theorem decode_unknownNumber {n : Byte} (ops : Operands) (h : n.toNat ∉ opNumbers) :
    decode (.op n ops) = .error .unknownNumber := if_neg h

theorem byte_ofNat_toNat (n : Byte) : BitVec.ofNat 8 n.toNat = n := by
  rw [BitVec.ofNat_toNat, BitVec.setWidth_eq]

theorem mem_of_toNat_mem_opNumbers {n : Byte} (h : n.toNat ∈ opNumbers) :
    n ∈ opNumbers.map (BitVec.ofNat 8) :=
  List.mem_map.mpr ⟨n.toNat, h, byte_ofNat_toNat n⟩

/-! ## Frames on the line (R94 to R100) -/

/-- A data block is cut from its end: the checksum field of the mode, the terminator before it, and the
payload is the rest (R97, R101). -/
theorem decodeBlock_eq_some {m : Mode} {rest p : Bytes} {t : Byte} {k : CheckField} :
    decodeBlock m rest = some (p, t, k) ↔ k.mode = m ∧ rest = p ++ t :: k.bytes := by
  constructor
  · intro h
    unfold decodeBlock at h
    dsimp only at h
    have hcut {c : Nat} {tail : Bytes} (hd : rest.drop c = tail) : rest = rest.take c ++ tail := by
      rw [← hd, List.take_append_drop]
    split at h
    case h_1 hd => cases h; exact ⟨rfl, hcut hd⟩
    case h_2 hd => cases h; exact ⟨rfl, hcut hd⟩
    case h_3 => cases h
  · rintro ⟨rfl, rfl⟩
    cases k <;> simp [decodeBlock, checkLen, CheckField.mode, CheckField.bytes]

theorem encode_of_decodeHeader {m : Mode} {rest : Bytes} {i : Instr} (h : decodeHeader m rest = some i) :
    encode i = .wire m (Code.soh :: rest) := by
  unfold decodeHeader at h
  split at h
  case h_1 =>
    split at h
    · rename_i hfixed
      obtain ⟨rfl, rfl, rfl⟩ := hfixed
      cases h; rfl
    · cases h
  case h_2 =>
    split at h
    · rename_i hfixed
      obtain ⟨rfl, rfl, rfl⟩ := hfixed
      cases h; rfl
    · cases h
  case h_3 => cases h

theorem encode_of_decodeDataBlock {m : Mode} {rest : Bytes} {i : Instr}
    (h : decodeDataBlock m rest = some i) : encode i = .wire m (Code.stx :: rest) := by
  unfold decodeDataBlock at h
  split at h
  case h_1 hb =>
    obtain ⟨rfl, rfl⟩ := decodeBlock_eq_some.mp hb
    cases h; rfl
  case h_2 hb =>
    obtain ⟨rfl, rfl⟩ := decodeBlock_eq_some.mp hb
    cases h; rfl
  case h_3 => cases h

theorem encode_of_decodeFirstBlock {m : Mode} {b : Bytes} {i : Instr}
    (h : decodeFirstBlock m b = some i) : encode i = .wire m (Code.ack :: b) := by
  unfold decodeFirstBlock at h
  split at h
  · split at h
    · rename_i hx
      subst hx
      split at h
      · rename_i hb
        obtain ⟨rfl, rfl⟩ := decodeBlock_eq_some.mp hb
        cases h; rfl
      · cases h
    · cases h
  · cases h

/-- A frame that is read from bytes is written as those bytes. -/
theorem encode_of_decodeWire {m : Mode} {b : Bytes} {i : Instr} (h : decodeWire m b = some i) :
    ∃ m', encode i = .wire m' b := by
  unfold decodeWire at h
  split at h
  case h_1 => cases h
  case h_2 x =>
    split at h
    · subst x; cases h; exact ⟨.hex, rfl⟩
    split at h
    · subst x; cases h; exact ⟨.hex, rfl⟩
    · cases h
  case h_3 x y z =>
    split at h
    · rename_i hxz
      obtain ⟨rfl, rfl⟩ := hxz
      cases h; exact ⟨.hex, rfl⟩
    split at h
    · subst z; cases h; exact ⟨.hex, rfl⟩
    · cases h
  case h_4 x rest _ _ =>
    split at h
    · subst x; exact ⟨m, encode_of_decodeHeader h⟩
    split at h
    · subst x; exact ⟨m, encode_of_decodeDataBlock h⟩
    split at h
    · subst x; exact ⟨m, encode_of_decodeFirstBlock h⟩
    · cases h

/-- Bytes too many for the short frames of R94, R98 and R99 are told apart by their first byte. -/
theorem decodeWire_long (m : Mode) (x : Byte) {rest : Bytes} (h : 3 ≤ rest.length) :
    decodeWire m (x :: rest) =
      if x = Code.soh then decodeHeader m rest
      else if x = Code.stx then decodeDataBlock m rest
      else if x = Code.ack then decodeFirstBlock m rest
      else none := by
  match rest, h with
  | _ :: _ :: _ :: _, _ => rfl

theorem blockTail_length {p : Bytes} (h : wfPayload p = true) (t : Byte) (k : CheckField) :
    3 ≤ (p ++ t :: k.bytes).length := by
  have hp : 1 ≤ p.length := (of_decide_eq_true h).1
  have hk : 1 ≤ k.bytes.length := by cases k <;> simp [CheckField.bytes]
  simp only [List.length_append, List.length_cons]
  omega

theorem decodeWire_blockBytes {p : Bytes} (h : wfPayload p = true) (t : Byte) (k : CheckField) :
    decodeWire k.mode (blockBytes p t k) = decodeDataBlock k.mode (p ++ t :: k.bytes) :=
  decodeWire_long _ _ (blockTail_length h t k)

theorem decodeWire_firstBlockBytes {p : Bytes} (h : wfPayload p = true) (t : Byte) (k : CheckField) :
    decodeWire k.mode (firstBlockBytes p t k) = some (.frameDbFirst p t k) := by
  have hb : decodeBlock k.mode (p ++ t :: k.bytes) = some (p, t, k) := decodeBlock_eq_some.mpr ⟨rfl, rfl⟩
  calc decodeWire k.mode (firstBlockBytes p t k)
      = decodeFirstBlock k.mode (blockBytes p t k) :=
        decodeWire_long _ _ ((blockTail_length h t k).trans (Nat.le_succ _))
    _ = some (.frameDbFirst p t k) := by simp [decodeFirstBlock, blockBytes, hb]

theorem decodeDataBlock_raw (p : Bytes) (t k : Byte) :
    decodeDataBlock .hex (p ++ [t, k]) = some (.frameDbHex p t k) := by
  have hb : decodeBlock .hex (p ++ [t, k]) = some (p, t, .raw k) := decodeBlock_eq_some.mpr ⟨rfl, rfl⟩
  simp only [decodeDataBlock, hb]

theorem decodeDataBlock_digits (p : Bytes) (t k0 k1 : Byte) :
    decodeDataBlock .ascii (p ++ [t, k0, k1]) = some (.frameDbAscii p t k0 k1) := by
  have hb : decodeBlock .ascii (p ++ [t, k0, k1]) = some (p, t, .digits k0 k1) :=
    decodeBlock_eq_some.mpr ⟨rfl, rfl⟩
  simp only [decodeDataBlock, hb]

/-- The third byte ACK tells the response from the Enquiry, whatever the first two are (R94, R99). -/
theorem decodeWire_enqRspBytes (m : Mode) (u0 u1 : Byte) :
    decodeWire m (enqRspBytes u0 u1) = some (.frameEnqRsp u0 u1) :=
  if_neg fun h => absurd h.2 (by decide)

/-! ## Operations by their numbers (R120) -/

/-- One row of a family: either the number is the row's, and the operation has the row's record, or a later
row decides. -/
theorem encode_of_row {n : Byte} {c : Nat} {i j : Instr} {later : Option Instr} {ops : Operands}
    (h : (if n.toNat = c then some j else later) = some i)
    (hrow : encode j = .op (BitVec.ofNat 8 c) ops) (hlater : later = some i → encode i = .op n ops) :
    encode i = .op n ops := by
  split at h
  · subst c
    cases h
    rw [hrow, byte_ofNat_toNat]
  · exact hlater h

theorem encode_of_decodeBare {n : Byte} {i : Instr} (h : decodeBare n.toNat = some i) :
    encode i = .op n .none :=
  encode_of_row h rfl fun h => encode_of_row h rfl fun h => encode_of_row h rfl fun h =>
  encode_of_row h rfl fun h => encode_of_row h rfl fun h => encode_of_row h rfl fun h =>
  encode_of_row h rfl fun h => encode_of_row h rfl nofun

theorem encode_of_decodeEncode {n : Byte} {v : Value} {w : Width} {i : Instr}
    (h : decodeEncode n.toNat v w = some i) : encode i = .op n (.encode v w) :=
  encode_of_row h rfl fun h => encode_of_row h rfl fun h => encode_of_row h rfl fun h =>
  encode_of_row h rfl fun h => encode_of_row h rfl fun h => encode_of_row h rfl fun h =>
  encode_of_row h rfl fun h => encode_of_row h rfl nofun

theorem encode_of_decodeDecode {n : Byte} {b : Bytes} {cur : Nat} {w : Width} {i : Instr}
    (h : decodeDecode n.toNat b cur w = some i) : encode i = .op n (.decode b cur w) :=
  encode_of_row h rfl fun h => encode_of_row h rfl fun h => encode_of_row h rfl fun h =>
  encode_of_row h rfl fun h => encode_of_row h rfl fun h => encode_of_row h rfl fun h =>
  encode_of_row h rfl fun h => encode_of_row h rfl nofun

/-- An operation that is read from a number and a record is written as them. -/
theorem encode_of_decodeOp {n : Byte} {ops : Operands} {i : Instr}
    (h : decodeOp n.toNat ops = some i) : encode i = .op n ops := by
  cases ops with
  | none => exact encode_of_decodeBare h
  | encode v w => exact encode_of_decodeEncode h
  | decode b cur w => exact encode_of_decodeDecode h
  | bytes b =>
    exact encode_of_row h rfl fun h => encode_of_row h rfl fun h => encode_of_row h rfl fun h =>
      encode_of_row h rfl nofun
  | payload b m =>
    exact encode_of_row h rfl fun h => encode_of_row h rfl fun h => encode_of_row h rfl nofun
  | byte x => exact encode_of_row h rfl fun h => encode_of_row h rfl nofun
  | range | address | encodeAll | decodeBit | decodeAll | bytePair | header | block | parseBlock | sizes
  | expected | config | write | startRead | startWrite | abort | outcome =>
    exact encode_of_row h rfl nofun

/-- The number a delivery carries; bytes on the line carry none. -/
def Input.number : Input → Option Byte
  | .op n _ => some n
  | .wire _ _ => none

theorem number_encode (i : Instr) : (encode i).number = i.number := by
  cases i <;> rfl

/-! ## Both directions -/

/-- Settles O1: an operation is read back from its row of R120 by computation; a frame by the lemma of its
shape, where a block's payload of at least one byte keeps it apart from the frames of three bytes. -/
theorem decodeOfEncodeIsTheInstruction : Obligations.DecodeOfEncodeIsTheInstruction := by
  intro i h
  cases i with
  | frameEnq | frameHdrHex | frameHdrAscii | frameEot | frameAck => rfl
  | frameEnqRsp u0 u1 => exact decode_wire_eq_ok.mpr ⟨decodeWire_enqRspBytes .hex u0 u1, h⟩
  | frameDbHex p t k =>
    exact decode_wire_eq_ok.mpr
      ⟨(decodeWire_blockBytes h t (.raw k)).trans (decodeDataBlock_raw p t k), h⟩
  | frameDbAscii p t k0 k1 =>
    exact decode_wire_eq_ok.mpr
      ⟨(decodeWire_blockBytes h t (.digits k0 k1)).trans (decodeDataBlock_digits p t k0 k1), h⟩
  | frameDbFirst p t k => exact decode_wire_eq_ok.mpr ⟨decodeWire_firstBlockBytes h t k, h⟩
  | _ => exact decode_op_eq_ok.mpr ⟨by decide, rfl, h⟩

/-- Settles O2: what is read from a delivery is written as that delivery (`encode_of_decodeOp`,
`encode_of_decodeWire`), and so has its number. -/
theorem encodeOfDecodeIsTheDelivery : Obligations.EncodeOfDecodeIsTheDelivery := by
  refine ⟨fun n ops i h => ?_, fun m b i h => ?_, fun n ops hn => ?_⟩
  · obtain ⟨-, hop, hwf⟩ := decode_op_eq_ok.mp h
    have henc := encode_of_decodeOp hop
    exact ⟨hwf, by rw [← number_encode, henc]; rfl, henc⟩
  · obtain ⟨hwire, hwf⟩ := decode_wire_eq_ok.mp h
    obtain ⟨m', henc⟩ := encode_of_decodeWire hwire
    exact ⟨hwf, by rw [← number_encode, henc]; rfl, m', henc⟩
  · exact decode_unknownNumber ops fun h => hn (mem_of_toNat_mem_opNumbers h)

/-! ## The table's words (R120; logs 10 and 11) -/

/-- A word that stands for a well-formed instruction as the encoder writes it decodes to that instruction. -/
theorem decodeTableWord_of_encode {nbits w : Nat} {i : Instr} (h : tableInput nbits w = encode i)
    (hwf : i.wf = true) : decodeTableWord nbits w = some i := by
  unfold decodeTableWord
  rw [h, decodeOfEncodeIsTheInstruction i hwf]

/-- Settles O3: each word stands for its instruction as the encoder writes it, and 0x03 is no number of R120. -/
theorem wordsOfTheTableDecode : Obligations.WordsOfTheTableDecode := by
  refine ⟨?_, ?_, ?_, ?_, ?_, ?_, ?_, ?_, ?_, ?_, ?_, ?_, ?_, ?_, by decide⟩ <;>
    exact decodeTableWord_of_encode rfl rfl

end Sys2Proof

namespace Sys2Proof.Machine

/-! ## Frames as inputs (log 12) -/

/-- Whatever the encoder writes as bytes on the line is received as a chunk of those bytes (R268). -/
theorem exec_of_encode_wire {i : Instr} {m : Mode} {b : Bytes} (h : encode i = .wire m b) (s : State) :
    exec i s = exec (.rxb b) s := by
  cases i with
  | frameEnq | frameHdrHex | frameHdrAscii | frameDbHex | frameDbAscii | frameEot | frameAck | frameEnqRsp
  | frameDbFirst => cases h; rfl
  | _ => cases h

/-- Settles O42: by `exec_of_encode_wire`, with the bytes of each frame written out. -/
theorem framesAreReceivedAsTheirBytes : Obligations.FramesAreReceivedAsTheirBytes := by
  intro s a u0 u1 t k k0 k1 p h
  have received {i : Instr} {m : Mode} {b : Bytes} (hi : encode i = .wire m b) :
      exec i s = exec (.rxb b) s := exec_of_encode_wire hi s
  refine ⟨received rfl, ?headers, received rfl, received rfl, received rfl, received rfl, received rfl,
    received rfl, received rfl⟩
  case headers =>
    rintro body rfl
    exact ⟨received rfl, received rfl⟩

/-! ## The Header (R95, R96, R204) -/

theorem hexDigits_four (v : BitVec 16) : hexDigits v.toNat 4 =
    [digitChar (v.toNat / 4096), digitChar (v.toNat / 256 % 16), digitChar (v.toNat / 16 % 16),
     digitChar (v.toNat % 16)] := by
  have hv := v.isLt
  have hdigit (n : Nat) : hexDigit (n % 16) = digitChar (n % 16) := hexDigit_eq _ (Nat.mod_lt _ (by decide))
  have htop : v.toNat / 4096 % 16 = v.toNat / 4096 := Nat.mod_eq_of_lt (by omega)
  simp only [hexDigits, hdigit, Nat.shiftRight_eq_div_pow]
  norm_num [htop]

theorem hexf_two {n : Nat} (h : n ≤ 255) : hexf n 2 = .ok (twoDigits (BitVec.ofNat 8 n)) := by
  have hn : (BitVec.ofNat 8 n).toNat = n := by simp; omega
  rw [hexf_ok (by omega), ← hexDigits_two, hn]

theorem hexf_overflow {n : Nat} (h : 255 < n) : hexf n 2 = .error .fieldOverflow :=
  if_neg (by omega)

/-- The builder's count fields are those of R96 under both rules. -/
theorem countFields_eq (p : Config.Params) (n : Nat) : countFields p n = headerCounts p.hdrCountRule n := by
  unfold countFields headerCounts blockCounts Config.blockSize
  cases p.hdrCountRule with
  | fullAndRemainder => rfl
  | requiredAndLast =>
    dsimp only
    split
    · ext <;> dsimp only <;> omega
    · ext <;> dsimp only <;> omega

theorem headerCounts_snd_le (rule : Config.HdrCountRule) (n : Nat) : (headerCounts rule n).2 ≤ 255 := by
  cases rule <;> simp only [headerCounts] <;> omega

theorem cmdChar_eq (dir : Dir) : cmdChar dir = cmdByte dir := by cases dir <;> rfl

theorem dtChar_eq (mt : MemoryType) : dtChar mt = dataTypeByte mt := by cases mt <;> rfl

section
variable {p : Config.Params} (st : Byte) (dir : Dir) (mt : MemoryType) (ref : BitVec 16) {n : Nat}

theorem headerText_length (rule : Config.HdrCountRule) (n : Nat) :
    (headerText rule st dir mt ref n).length = 14 := rfl

theorem headerFrame_length (rule : Config.HdrCountRule) (n : Nat) (mode : Mode) :
    (headerFrame rule st dir mt ref n mode).length = 16 + checkLen mode := by
  cases mode <;> rfl

theorem headerBody_of_countsFit (h : countsFit p.hdrCountRule n) :
    headerBody p st dir mt ref n = .ok ([0x01] ++ headerText p.hdrCountRule st dir mt ref n ++ [0x17]) := by
  have hst : hexf st.toNat 2 = .ok (twoDigits st) := by
    rw [hexf_ok st.isLt, hexDigits_two]
  have href := hexf_ok (v := ref.toNat) (d := 4) ref.isLt
  unfold headerBody
  rw [countFields_eq, hst, href, hexDigits_four, hexf_two h, hexf_two (headerCounts_snd_le _ n), cmdChar_eq,
    dtChar_eq]
  rfl

theorem headerBody_of_not_countsFit (h : ¬ countsFit p.hdrCountRule n) :
    headerBody p st dir mt ref n = .error .fieldOverflow := by
  have hc : hexf (headerCounts p.hdrCountRule n).1 2 = .error .fieldOverflow :=
    hexf_overflow (Nat.lt_of_not_le h)
  unfold headerBody
  rw [countFields_eq, hc, hexf_ok (v := st.toNat) (d := 2) st.isLt,
    hexf_ok (v := ref.toNat) (d := 4) ref.isLt]
  rfl

/-- The header checksum covers the fourteen bytes between SOH and ETB (R131). -/
theorem chkHdr_of_text {text : Bytes} (h : text.length = 14) :
    chkHdr ([0x01] ++ text ++ [0x17]) = .ok (xorOf text) := by
  have hs : slice ([0x01] ++ text ++ [0x17]) 1 15 = text := by
    simp [slice, ← h]
  rw [chkHdr, chk_eq, if_pos (by simp [h]), hs]

theorem bldHdr_of_countsFit (h : countsFit p.hdrCountRule n) (mode : Mode) :
    bldHdr p st dir mt ref n mode = .ok (headerFrame p.hdrCountRule st dir mt ref n mode) := by
  have hchk := chkHdr_of_text (headerText_length st dir mt ref p.hdrCountRule n)
  exact bind_ok.mpr ⟨_, headerBody_of_countsFit st dir mt ref h,
    bind_ok.mpr ⟨_, hchk, by rw [checkBytes_eq]; rfl⟩⟩

theorem bldHdr_of_not_countsFit (h : ¬ countsFit p.hdrCountRule n) (mode : Mode) :
    bldHdr p st dir mt ref n mode = .error .fieldOverflow := by
  unfold bldHdr
  rw [headerBody_of_not_countsFit st dir mt ref h]
  rfl

end

/-- Settles O31: `bldHdr_of_countsFit` with the length of the frame, and `bldHdr_of_not_countsFit`. -/
theorem headersAreBuilt : Obligations.HeadersAreBuilt := by
  intro station dir mt ref n mode s
  have hexec : exec (.bldHdr station dir mt ref n mode) s =
      answer ((bldHdr s.par station dir mt ref n mode).map .bytes) s := rfl
  rw [hexec]
  refine ⟨fun h => ⟨?_, ?_⟩, fun h => ?_⟩
  · rw [bldHdr_of_countsFit station dir mt ref h]; rfl
  · cases mode with
    | hex | ascii => exact headerFrame_length station dir mt ref _ n _
  · rw [bldHdr_of_not_countsFit station dir mt ref h]; rfl

end Sys2Proof.Machine

/-! PROOFS. The checksum unit (`40_checksum.md`, R130, R134; O17, O18). -/

namespace Sys2Proof.Machine

/-! ## The range of a buffer with one byte written -/

theorem getElem?_slice {b : Bytes} {lo hi i : Nat} (hlo : lo ≤ i) (hhi : i < hi) :
    (slice b lo hi)[i - lo]? = b[i]? := by
  rw [slice, List.getElem?_take_of_lt (by omega), List.getElem?_drop, Nat.add_sub_cancel' hlo]

theorem slice_set_of_le {i lo : Nat} (hlo : lo ≤ i) (b : Bytes) (hi : Nat) (x : Byte) :
    slice (b.set i x) lo hi = (slice b lo hi).set (i - lo) x := by
  rw [slice, slice, List.drop_set, if_neg (Nat.not_lt.mpr hlo), List.take_set]

theorem slice_set_outside {i lo hi : Nat} (h : i < lo ∨ hi ≤ i) (b : Bytes) (x : Byte) :
    slice (b.set i x) lo hi = slice b lo hi := by
  by_cases hlo : i < lo
  · rw [slice, slice, List.drop_set, if_pos hlo]
  · have hend : (slice b lo hi).length ≤ i - lo := (List.length_take_le _ _).trans (by omega)
    rw [slice_set_of_le (Nat.not_lt.mp hlo), List.set_eq_of_length_le hend]

theorem slice_all (b : Bytes) : slice b 0 b.length = b := by simp [slice]

/-! ## The exclusive OR of a sequence with one byte written -/

theorem xorOf_singleton (x : Byte) : xorOf [x] = x := by simp [xorOf]

theorem xorOf_cons (x : Byte) (l : Bytes) : xorOf (x :: l) = x ^^^ xorOf l := by
  rw [← List.singleton_append, xorOf_append, xorOf_singleton]

/-- The old byte cancels out of the sum and the new one enters it. -/
theorem xorOf_set {y : Byte} (x : Byte) : ∀ {l : Bytes} {k : Nat}, l[k]? = some y →
    xorOf (l.set k x) = xorOf l ^^^ (y ^^^ x)
  | z :: l, 0, h => by
    obtain rfl : z = y := by simpa using h
    rw [List.set_cons_zero, xorOf_cons, xorOf_cons]
    calc x ^^^ xorOf l = xorOf l ^^^ x := BitVec.xor_comm _ _
      _ = xorOf l ^^^ z ^^^ z ^^^ x := by rw [BitVec.xor_assoc _ z z, BitVec.xor_self, BitVec.xor_zero]
      _ = z ^^^ xorOf l ^^^ (z ^^^ x) := by rw [BitVec.xor_comm z (xorOf l), BitVec.xor_assoc _ z x]
  | z :: l, k + 1, h => by
    rw [List.set_cons_succ, xorOf_cons, xorOf_cons, xorOf_set x (by simpa using h), BitVec.xor_assoc]

/-! ## `CHK` (R130, R134) -/

theorem chk_eq_ok {b : Bytes} {lo hi : Nat} {c : Byte} : chk b lo hi = .ok c ↔
    lo ≤ hi ∧ hi ≤ b.length ∧ xorOf (slice b lo hi) = c := by
  rw [chk_eq]
  split
  next h => simp [h]
  next h => simpa using fun hlo hhi => absurd ⟨hlo, hhi⟩ h

/-- `CHK` of a whole buffer never refuses. -/
theorem chk_all (b : Bytes) : chk b 0 b.length = .ok (xorOf b) :=
  chk_eq_ok.mpr ⟨Nat.zero_le _, Nat.le_refl _, by rw [slice_all]⟩

theorem xorOf_of_chk_all {b : Bytes} {c : Byte} (h : chk b 0 b.length = .ok c) : xorOf b = c :=
  Except.ok.inj ((chk_all b).symm.trans h)

theorem chk_append_all (a b : Bytes) :
    chk (a ++ b) 0 (a.length + b.length) = .ok (xorOf a ^^^ xorOf b) := by
  rw [← List.length_append, chk_all, xorOf_append]

section
variable {b : Bytes} {lo hi i : Nat} {x y c : Byte}

/-- A byte changed inside the range changes the checksum by exactly its difference. -/
theorem chk_set_inside (x : Byte) (hlo : lo ≤ i) (hhi : i < hi) (hy : b[i]? = some y)
    (h : chk b lo hi = .ok c) : chk (b.set i x) lo hi = .ok (c ^^^ (y ^^^ x)) := by
  obtain ⟨hle, hlen, rfl⟩ := chk_eq_ok.mp h
  refine chk_eq_ok.mpr ⟨hle, by rwa [List.length_set], ?_⟩
  rw [slice_set_of_le hlo, xorOf_set x ((getElem?_slice hlo hhi).trans hy)]

theorem chk_set_outside (h : i < lo ∨ hi ≤ i) (b : Bytes) (x : Byte) :
    chk (b.set i x) lo hi = chk b lo hi := by
  rw [chk_eq, chk_eq, slice_set_outside h, List.length_set]

/-- A byte really changed has a difference other than zero, so the checksum shows it. -/
theorem chk_set_ne (hlo : lo ≤ i) (hhi : i < hi) (hy : b[i]? = some y) (h : chk b lo hi = .ok c)
    (hne : x ≠ y) : chk (b.set i x) lo hi ≠ .ok c := by
  intro hsame
  have hdiff : c ^^^ (y ^^^ x) = c := Except.ok.inj ((chk_set_inside x hlo hhi hy h).symm.trans hsame)
  exact hne (BitVec.xor_eq_zero_iff.mp (xor_left_eq_self_iff.mp hdiff)).symm

/-- The same difference at two places of the range cancels: each contributes `d` to the checksum. -/
theorem chk_set_two {j : Nat} (d : Byte) (hlo : lo ≤ i) (hhi : i < hi) (hlo' : lo ≤ j) (hhi' : j < hi)
    (hij : i ≠ j) (hx : b[i]? = some x) (hy : b[j]? = some y) (h : chk b lo hi = .ok c) :
    chk ((b.set i (x ^^^ d)).set j (y ^^^ d)) lo hi = .ok c := by
  have hdiff (z : Byte) : z ^^^ (z ^^^ d) = d := by rw [← BitVec.xor_assoc, BitVec.xor_self, BitVec.zero_xor]
  have hone : chk (b.set i (x ^^^ d)) lo hi = .ok (c ^^^ d) := by
    rw [chk_set_inside _ hlo hhi hx h, hdiff]
  have hy' : (b.set i (x ^^^ d))[j]? = some y := by rw [List.getElem?_set_ne hij, hy]
  rw [chk_set_inside _ hlo' hhi' hy' hone, hdiff, BitVec.xor_assoc, BitVec.xor_self, BitVec.xor_zero]

end

/-- Settles O18: a clause for each law; appending is `chk_append_all` with the checksum itself appended. -/
theorem checksumLawsHold : Obligations.ChecksumLawsHold := by
  refine ⟨fun b c h => ?append_zero, fun a b ca cb ha hb => ?ranges_add,
    fun b lo hi i x y c hlo hhi hy h => ⟨chk_set_inside x hlo hhi hy h, chk_set_ne hlo hhi hy h⟩,
    fun b lo hi i j d x y c hlo hhi hlo' hhi' hij hx hy h => chk_set_two d hlo hhi hlo' hhi' hij hx hy h,
    fun b lo hi i x h => chk_set_outside h b x⟩
  case append_zero =>
    have happ := chk_append_all b [c]
    rwa [xorOf_of_chk_all h, xorOf_singleton, BitVec.xor_self] at happ
  case ranges_add =>
    rw [chk_append_all, xorOf_of_chk_all ha, xorOf_of_chk_all hb]

/-- Settles O17: `CHK` answers `chk` of its operands, and `chk_eq` says when that is a refusal. -/
theorem checksumIsTheXorOfItsRange : Obligations.ChecksumIsTheXorOfItsRange := by
  intro b lo hi s
  have hexec : exec (.chk b lo hi) s = answer ((chk b lo hi).map .byte) s := rfl
  rw [hexec, chk_eq]
  split <;> rfl

end Sys2Proof.Machine

/-! PROOFS. The address translator (`41_address_translator.md`, R140 to R146; O19, O20). -/

namespace Sys2Proof.Machine

/-! ## The doubling rule row by row (R143, R144) -/

theorem xltRows_nil (a : Nat) (pos : BytePosition) : xltRows a pos [] = none := rfl

theorem xltRows_cons (a : Nat) (pos : BytePosition) (row : Config.RangeRow)
    (rows : List Config.RangeRow) : xltRows a pos (row :: rows) =
      if row.base ≤ a ∧ a ≤ row.last then
        some ⟨BitVec.ofNat 16 (2 * (a - row.base) + row.offset + (if pos = .msb then 1 else 0)), .one⟩
      else xltRows a pos rows := by
  cases pos <;> rfl

theorem xlt_memory (a : Nat) (bit : Option Nat) (pos : BytePosition) : xlt .memory a bit pos =
    if a + 1 ≤ 0xFFFF then some ⟨BitVec.ofNat 16 (a + 1), .two⟩ else none := by
  by_cases h : a + 1 ≤ 0xFFFF
  · rw [if_pos h]; exact if_neg (Nat.not_lt.mpr h)
  · rw [if_neg h]; exact if_pos (Nat.not_le.mp h)

theorem xlt_input (a : Nat) (bit : Option Nat) (pos : BytePosition) :
    xlt .input a bit pos = xltRows a pos inputRows := rfl

theorem xlt_output (a : Nat) (bit : Option Nat) (pos : BytePosition) :
    xlt .output a bit pos = xltRows a pos outputRows := rfl

theorem exec_xlt (mt : MemoryType) (a : Nat) (bit : Option Nat) (pos : BytePosition) (s : State) :
    exec (.xlt mt a bit pos) s = .next { s with reply := .address (xlt mt a bit pos) } := rfl

/-- Settles O19: `xlt_memory` for the Memory rule, and `xltRows_cons` once for each row of R141. -/
theorem translationFollowsTheRangeTable : Obligations.TranslationFollowsTheRangeTable := by
  intro a bit pos s
  refine ⟨?memory, ?input, ?output⟩
  case memory => rw [exec_xlt, xlt_memory]
  case input => rw [exec_xlt, xlt_input, inputRows]; simp only [xltRows_cons, xltRows_nil]
  case output => rw [exec_xlt, xlt_output, outputRows]; simp only [xltRows_cons, xltRows_nil]

/-! ## Images of the rows (R141, R145, R146) -/

/-- The last reference address of a row, the MSB of its last word (R141's column `image`). -/
def imageLast (row : Config.RangeRow) : Nat := 2 * (row.last - row.base) + row.offset + 1

/-- What R141 and R145 say of the rows of one memory type: images of sixteen bits, no two of which meet. -/
structure ImagesSeparate (rows : List Config.RangeRow) : Prop where
  fits : ∀ row ∈ rows, imageLast row < 2 ^ 16
  disjoint : ∀ row ∈ rows, ∀ row' ∈ rows,
    row.offset ≤ imageLast row' → row'.offset ≤ imageLast row → row = row'

theorem inputRows_imagesSeparate : ImagesSeparate inputRows := ⟨by decide, by decide⟩

theorem outputRows_imagesSeparate : ImagesSeparate outputRows := ⟨by decide, by decide⟩

/-- What the byte position adds to a reference address (R143). -/
def msbBit (pos : BytePosition) : Nat := if pos = .msb then 1 else 0

theorem msbBit_le_one : ∀ pos, msbBit pos ≤ 1
  | .lsb => Nat.zero_le 1
  | .msb => Nat.le_refl 1

theorem msbBit_injective : Function.Injective msbBit
  | .lsb, .lsb, _ => rfl
  | .msb, .msb, _ => rfl

section
variable {rows : List Config.RangeRow} {a a' : Nat} {p p' : BytePosition} {x : XAddr}

/-- An answer of the doubling rule lies in its row's image, with nothing lost to the sixteen bits (R145). -/
theorem xltRows_image (hsep : ImagesSeparate rows) (h : xltRows a p rows = some x) :
    ∃ row ∈ rows, row.base ≤ a ∧ x.bpe = .one ∧
      x.ref.toNat = 2 * (a - row.base) + row.offset + msbBit p ∧
      row.offset ≤ x.ref.toNat ∧ x.ref.toNat ≤ imageLast row := by
  obtain ⟨row, hmem, hbase, hlast, hbpe, href⟩ := xltRows_some h
  change x.ref = BitVec.ofNat 16 (2 * (a - row.base) + row.offset + msbBit p) at href
  have hsel := msbBit_le_one p
  have hend : 2 * (a - row.base) + row.offset + msbBit p ≤ imageLast row := by
    unfold imageLast; omega
  have hnat : x.ref.toNat = 2 * (a - row.base) + row.offset + msbBit p := by
    rw [href, BitVec.toNat_ofNat, Nat.mod_eq_of_lt (hend.trans_lt (hsep.fits row hmem))]
  exact ⟨row, hmem, hbase, hbpe, hnat, by omega, hnat ▸ hend⟩

/-- Within a row the half of the distance is the word and its parity the byte (R146). -/
theorem doubling_injective {d d' : Nat} (h : 2 * d + msbBit p = 2 * d' + msbBit p') :
    d = d' ∧ p = p' := by
  have hle := msbBit_le_one p
  have hle' := msbBit_le_one p'
  exact ⟨by omega, msbBit_injective (by omega)⟩

/-- The shared address fixes the row, since no two images meet, and the row fixes the word and the byte. -/
theorem xltRows_injective (hsep : ImagesSeparate rows) (h : xltRows a p rows = some x)
    (h' : xltRows a' p' rows = some x) : a = a' ∧ p = p' := by
  obtain ⟨row, hmem, hbase, -, hnat, hlo, hhi⟩ := xltRows_image hsep h
  obtain ⟨row', hmem', hbase', -, hnat', hlo', hhi'⟩ := xltRows_image hsep h'
  obtain rfl : row = row' := hsep.disjoint row hmem row' hmem' (hlo.trans hhi') (hlo'.trans hhi)
  obtain ⟨hd, hp⟩ : a - row.base = a' - row.base ∧ p = p' := doubling_injective (by omega)
  exact ⟨by omega, hp⟩

end

theorem xlt_memory_some {a : Nat} {bit : Option Nat} {p : BytePosition} {x : XAddr}
    (h : xlt .memory a bit p = some x) : x.bpe = .two ∧ x.ref.toNat = a + 1 := by
  rw [xlt_memory] at h
  split at h
  · rename_i ha
    cases h
    exact ⟨rfl, Nat.mod_eq_of_lt (ha.trans_lt (by decide))⟩
  · cases h

/-- Settles O20: for Memory the reference address is the successor; for Input and Output `xltRows_injective`,
and `xltRows_image` at each row of R141 names the images. -/
theorem translationIsInjective : Obligations.TranslationIsInjective := by
  refine ⟨fun a a' b b' p p' x h h' => ?memory, fun a a' b b' p p' x h h' => ?input,
    fun a a' b b' p p' x h h' => ?output⟩
  case memory =>
    obtain ⟨hbpe, href⟩ := xlt_memory_some h
    obtain ⟨-, href'⟩ := xlt_memory_some h'
    exact ⟨by omega, hbpe, by omega⟩
  case input =>
    obtain ⟨ha, hp⟩ := xltRows_injective inputRows_imagesSeparate h h'
    obtain ⟨row, hmem, -, hbpe, -, himage⟩ := xltRows_image inputRows_imagesSeparate h
    refine ⟨ha, hp, hbpe, ?_⟩
    simp only [inputRows, List.mem_cons, List.not_mem_nil, or_false] at hmem
    obtain rfl | rfl | rfl := hmem
    · exact .inl himage
    · exact .inr (.inl himage)
    · exact .inr (.inr himage)
  case output =>
    obtain ⟨ha, hp⟩ := xltRows_injective outputRows_imagesSeparate h h'
    obtain ⟨row, hmem, -, hbpe, -, hlo, hhi⟩ := xltRows_image outputRows_imagesSeparate h
    have hspan : ∀ r ∈ outputRows, 0x101 ≤ r.offset ∧ imageLast r ≤ 0x330 := by decide
    obtain ⟨hfirst, hlast⟩ := hspan row hmem
    exact ⟨ha, hp, hbpe, hfirst.trans hlo, hhi.trans hlast⟩

end Sys2Proof.Machine

/-! PROOFS. The value codec (`42_value_codec.md`, R161 to R182; O21 to O27). -/

namespace Sys2Proof.Machine

/-! ## Numbers and the element layout (R9, R162) -/

theorem width_bytes_pos : ∀ w : Width, 0 < w.bytes
  | .one => Nat.one_pos
  | .two => Nat.two_pos

theorem zext_eq_toNat (k : Nat) (n : Int) : zext k n = (BitVec.ofInt k n).toNat :=
  (BitVec.toNat_ofInt n).symm

theorem sext_eq_toInt {k : Nat} (hk : 0 < k) (v : Nat) : sext k v = (BitVec.ofNat k v).toInt := by
  obtain ⟨j, rfl⟩ := Nat.exists_eq_add_of_lt hk
  have hhalf : 2 ^ (0 + j + 1) = 2 * 2 ^ (0 + j + 1 - 1) := by rw [Nat.add_sub_cancel, pow_succ']
  rw [sext, BitVec.toInt_eq_toNat_cond, BitVec.toNat_ofNat]
  exact if_congr (by omega) rfl rfl

theorem sext_toNat {k : Nat} (hk : 0 < k) (x : BitVec k) : sext k x.toNat = x.toInt := by
  rw [sext_eq_toInt hk, BitVec.ofNat_toNat, BitVec.setWidth_eq]

theorem sext_zext {k : Nat} (hk : 0 < k) (n : Int) : sext k (zext k n) = (BitVec.ofInt k n).toInt := by
  rw [zext_eq_toNat, sext_toNat hk]

theorem byte_of_zext (n : Int) : BitVec.ofNat 8 (zext 8 n) = BitVec.ofInt 8 n := by
  rw [zext_eq_toNat, byte_ofNat_toNat]

theorem byteAt_of_getElem? {b : Bytes} {i : Nat} {x : Byte} (h : b[i]? = some x) : byteAt b i = x := by
  rw [byteAt, List.getD_eq_getElem?_getD, h, Option.getD_some]

theorem unle_lt (b : Bytes) (cur : Nat) (w : Width) : unle b cur w < 2 ^ (8 * w.bytes) := by
  have hlow := (byteAt b cur).isLt
  have hhigh := (byteAt b (cur + 1)).isLt
  cases w with
  | one => exact hlow
  | two => simp only [unle, Width.bytes]; omega

/-- `UNLE` after `LE` (R162). -/
theorem unle_le {n : Nat} {w : Width} (h : n < 2 ^ (8 * w.bytes)) : unle (le n w) 0 w = n := by
  cases w with
  | one => exact Nat.mod_eq_of_lt h
  | two =>
    simp only [Width.bytes] at h
    simp only [le, unle, byteAt, List.getD_cons_zero, List.getD_cons_succ, BitVec.toNat_ofNat]
    omega

/-- `LE` after `UNLE` (R162). -/
theorem le_unle {b : Bytes} {w : Width} (h : b.length = w.bytes) : le (unle b 0 w) w = b := by
  cases w with
  | one =>
    obtain ⟨x, rfl⟩ := List.length_eq_one_iff.mp h
    exact congrArg (fun z => [z]) (byte_ofNat_toNat x)
  | two =>
    obtain ⟨x, y, rfl⟩ := List.length_eq_two.mp h
    have hx := x.isLt
    have hlow : (x.toNat + 256 * y.toNat) % 256 = x.toNat := by omega
    have hhigh : (x.toNat + 256 * y.toNat) / 256 = y.toNat := by omega
    change [BitVec.ofNat 8 ((x.toNat + 256 * y.toNat) % 256), BitVec.ofNat 8 ((x.toNat + 256 * y.toNat) / 256)] =
      [x, y]
    rw [hlow, hhigh, byte_ofNat_toNat, byte_ofNat_toNat]

/-! ## The encode operations (R163 to R171) -/

theorem encChar_char (c : Nat) (w : Width) : encChar (.scalar (.char c)) w =
    if c < 2 ^ (8 * w.bytes) then .ok (le c w) else .error .charOutOfRange := by
  by_cases h : c < 2 ^ (8 * w.bytes)
  · rw [if_pos h]
    cases w with
    | one | two => exact if_neg (Nat.not_lt.mpr (Nat.le_of_lt_succ h))
  · rw [if_neg h]
    cases w with
    | one | two => exact if_pos (Nat.not_lt.mp h)

theorem encChar_mismatch {v : Value} (h : ∀ c, v ≠ .scalar (.char c)) (w : Width) :
    encChar v w = .error .typeMismatch := by
  unfold encChar
  split
  · exact absurd rfl (h _)
  · exact absurd rfl (h _)
  · rfl

theorem encBool_mismatch {v : Value} (h : ∀ t, v ≠ .scalar (.bool t)) (w : Width) :
    encBool v w = .error .typeMismatch := by
  unfold encBool
  split
  · exact absurd rfl (h _)
  · rfl

/-- What the six integer operations have in common: a rule for the bytes of an integer, and the refusal of any
other value (R161, R165 to R170). -/
def encodeInt (rule : Int → Bytes) (v : Value) : Except Reason Bytes :=
  match v with
  | .scalar (.int n) => .ok (rule n)
  | _ => .error .typeMismatch

theorem encodeInt_mismatch {v : Value} (h : ∀ n, v ≠ .scalar (.int n)) (rule : Int → Bytes) :
    encodeInt rule v = .error .typeMismatch := by
  unfold encodeInt
  split
  · exact absurd rfl (h _)
  · rfl

theorem encByte_one (p : Config.Params) (n : Int) : encByte p n .one = [BitVec.ofInt 8 n] := by
  rw [encByte, byte_of_zext]

theorem encByte_two (p : Config.Params) (n : Int) : encByte p n .two =
    [BitVec.ofInt 8 n, if p.int8HighByte = .zero then 0x00 else BitVec.ofInt 8 n] := by
  rw [encByte, byte_of_zext]
  cases p.int8HighByte <;> rfl

theorem encWide_one (n : Int) : encWide n .one = [BitVec.ofInt 8 n] :=
  congrArg (fun z => [z]) (byte_of_zext n)

theorem encWide_two (n : Int) : encWide n .two = [BitVec.ofInt 8 n, BitVec.ofInt 8 (n / 256)] := by
  have hlow : BitVec.ofNat 8 (zext 16 n % 256) = BitVec.ofInt 8 n := by
    apply BitVec.eq_of_toNat_eq
    rw [BitVec.toNat_ofNat, BitVec.toNat_ofInt, zext]
    omega
  have hhigh : BitVec.ofNat 8 (zext 16 n / 256) = BitVec.ofInt 8 (n / 256) := by
    apply BitVec.eq_of_toNat_eq
    rw [BitVec.toNat_ofNat, BitVec.toNat_ofInt, zext]
    omega
  rw [← hlow, ← hhigh]
  rfl

/-- Settles O21: each clause is the operation's own equation or its refusal of another value. -/
theorem charactersAndBooleansEncode : Obligations.CharactersAndBooleansEncode := by
  intro c b s
  refine ⟨?charOne, ?charTwo, ?boolOne, ?boolTwo, fun v w h => ?charMismatch, fun v w h => ?boolMismatch⟩
  case charOne =>
    have hexec : exec (.encChar (.scalar (.char c)) .one) s =
        answerBytes (if c > 0xFF then .error .charOutOfRange else .ok [BitVec.ofNat 8 c]) s := rfl
    rw [hexec]
    split <;> rfl
  case charTwo =>
    have hexec : exec (.encChar (.scalar (.char c)) .two) s =
        answerBytes (if c > 0xFFFF then .error .charOutOfRange else .ok (le c .two)) s := rfl
    rw [hexec]
    split <;> rfl
  case boolOne => cases b <;> rfl
  case boolTwo => cases b <;> rfl
  case charMismatch => exact congrArg (answerBytes · s) (encChar_mismatch h w)
  case boolMismatch => exact congrArg (answerBytes · s) (encBool_mismatch h w)

/-- Settles O22: the 8-bit operations answer `encByte` and the wide ones `encWide`, and all six are `encodeInt`
of their rule. -/
theorem integersEncodeTruncated : Obligations.IntegersEncodeTruncated := by
  intro n s
  refine ⟨fun op hop => ?bytes, fun op hop => ?wide, fun op hop v w hv => ?mismatch⟩
  case bytes =>
    rw [← encByte_one s.par, ← encByte_two]
    simp only [List.mem_cons, List.not_mem_nil, or_false] at hop
    obtain rfl | rfl := hop <;> exact ⟨rfl, rfl⟩
  case wide =>
    rw [← encWide_one, ← encWide_two]
    simp only [List.mem_cons, List.not_mem_nil, or_false] at hop
    obtain rfl | rfl | rfl | rfl := hop <;> exact ⟨rfl, rfl⟩
  case mismatch =>
    have hrule : ∃ rule, exec (op v w) s = answerBytes (encodeInt rule v) s := by
      simp only [List.mem_cons, List.not_mem_nil, or_false] at hop
      obtain rfl | rfl | rfl | rfl | rfl | rfl := hop
      · exact ⟨(encByte s.par · w), rfl⟩
      · exact ⟨(encByte s.par · w), rfl⟩
      · exact ⟨(encWide · w), rfl⟩
      · exact ⟨(encWide · w), rfl⟩
      · exact ⟨(encWide · w), rfl⟩
      · exact ⟨(encWide · w), rfl⟩
    obtain ⟨rule, hrule⟩ := hrule
    rw [hrule, encodeInt_mismatch hv]
    rfl

section
variable {p : Config.Params} {f : Format} {w : Width}

theorem encElems_cons {v : Scalar} {vs : List Scalar} {b bs : Bytes}
    (hv : encFormat p f (.scalar v) w = .ok b) (hvs : encElems p f w vs = .ok bs) :
    encElems p f w (v :: vs) = .ok (b ++ bs) :=
  bind_ok.mpr ⟨b, hv, bind_ok.mpr ⟨bs, hvs, rfl⟩⟩

theorem encElems_of_forall₂ {vs : List Scalar} {bs : List Bytes}
    (h : List.Forall₂ (fun v b => encFormat p f (.scalar v) w = .ok b) vs bs) :
    encElems p f w vs = .ok bs.flatten := by
  induction h with
  | nil => rfl
  | cons hv _ ih => exact encElems_cons hv ih

/-- The first element that is refused refuses the array. -/
theorem encElems_refused {vs us : List Scalar} {v : Scalar} {r : Reason}
    (hvs : ∀ u ∈ vs, ∃ b, encFormat p f (.scalar u) w = .ok b)
    (hv : encFormat p f (.scalar v) w = .error r) : encElems p f w (vs ++ v :: us) = .error r := by
  induction vs with
  | nil => rw [List.nil_append, encElems, hv]; rfl
  | cons u vs ih =>
    obtain ⟨⟨b, hb⟩, hvs⟩ := List.forall_mem_cons.mp hvs
    rw [List.cons_append, encElems, hb, ih hvs]
    rfl

theorem enca_array (p : Config.Params) (f : Format) (w : Width) (vs : List Scalar) :
    enca p f (.array vs) w true vs.length = encElems p f w vs := by
  rw [enca, if_pos rfl]
  exact if_pos rfl

theorem enca_lengthMismatch {v : Value} {n : Nat} (h : ∀ vs, v = .array vs → vs.length ≠ n) :
    enca p f v w true n = .error .lengthMismatch := by
  cases v with
  | array vs =>
    rw [enca, if_pos rfl]
    exact if_neg (h vs rfl)
  | scalar | null => rfl

end

/-- Settles O23: `encElems_of_forall₂` and `encElems_refused` by the elements, `enca_lengthMismatch` otherwise. -/
theorem variablesEncodeElementByElement : Obligations.VariablesEncodeElementByElement := by
  intro w n s
  have hexec (f : Format) (v : Value) (arr : Bool) (n : Nat) :
      exec (.enca f v w arr n) s = answerBytes (enca s.par f v w arr n) s := rfl
  refine ⟨fun v q hq => ?scalar, fun f vs bs h => ?elements, fun f vs v us r hvs hv => ?refused,
    fun f v h => ?length, fun tag v => rfl⟩
  case scalar =>
    simp only [List.mem_cons, List.not_mem_nil, or_false] at hq
    obtain rfl | rfl | rfl | rfl | rfl | rfl | rfl | rfl := hq <;> rfl
  case elements => rw [hexec, enca_array, encElems_of_forall₂ h]; rfl
  case refused => rw [hexec, enca_array, encElems_refused hvs hv]; rfl
  case length => rw [hexec, enca_lengthMismatch h]; rfl

/-! ## The decode operations (R172 to R181) -/

theorem guardElem_short {b : Bytes} {cur : Nat} {w : Width} (h : b.length < cur + w.bytes) (v : Scalar) :
    guardElem b cur w v = .error .shortPayload := if_neg (Nat.not_le.mpr h)

section
variable {b : Bytes} {cur : Nat} {w : Width} {i : Instr} {s : State} {u v : Scalar}

theorem exec_of_guardElem (hexec : exec i s = answerScalar (guardElem b cur w u) s)
    (hlen : cur + w.bytes ≤ b.length) (hu : u = v) :
    exec i s = .next { s with reply := .value (.scalar v) } := by
  rw [hexec, guardElem_ok hlen, hu]
  rfl

theorem exec_of_guardElem_short (hexec : exec i s = answerScalar (guardElem b cur w u) s)
    (hlen : b.length < cur + w.bytes) : exec i s = .refused (.refuse .shortPayload) := by
  rw [hexec, guardElem_short hlen]
  rfl

end

theorem byte_ne_zero (x : Byte) : (x.toNat != 0) = (x != 0) := by
  rw [Bool.eq_iff_iff, bne_iff_ne, bne_iff_ne, BitVec.toNat_ne]
  rfl

theorem bytes_ne_zero (x y : Byte) : (x.toNat + 256 * y.toNat != 0) = (x != 0 || y != 0) := by
  rw [← byte_ne_zero, ← byte_ne_zero, Bool.eq_iff_iff]
  simp only [bne_iff_ne, Bool.or_eq_true]
  omega

theorem toNat_byte_append (y x : Byte) : (y ++ x).toNat = x.toNat + 256 * y.toNat := by
  rw [BitVec.toNat_append, ← Nat.shiftLeft_add_eq_or_of_lt x.isLt, Nat.shiftLeft_eq]
  omega

/-- Settles O24: every operation is `guardElem` of the value R172 to R179 give it. -/
theorem elementsDecodeByFormat : Obligations.ElementsDecodeByFormat := by
  intro b cur s
  refine ⟨fun x hx => ?one, fun x y hx hy => ?two, fun w hw op hop => ?short⟩
  case one =>
    obtain ⟨hlen, -⟩ := List.getElem?_eq_some_iff.mp hx
    have hbyte := byteAt_of_getElem? hx
    have hnat : unle b cur .one = x.toNat := congrArg BitVec.toNat hbyte
    have hsigned : sext 8 x.toNat = x.toInt := sext_toNat (by decide) x
    refine ⟨exec_of_guardElem rfl hlen (by rw [hnat]),
      exec_of_guardElem rfl hlen (by rw [hnat, byte_ne_zero]),
      exec_of_guardElem rfl hlen (by rw [hbyte, hsigned]),
      exec_of_guardElem rfl hlen (by rw [hnat]; exact congrArg _ hsigned), fun op hop => ?_⟩
    have hunsigned : Scalar.int (unle b cur .one) = .int x.toNat := by rw [hnat]
    simp only [List.mem_cons, List.not_mem_nil, or_false] at hop
    obtain rfl | rfl | rfl | rfl := hop <;> exact exec_of_guardElem rfl hlen hunsigned
  case two =>
    obtain ⟨hlen, -⟩ := List.getElem?_eq_some_iff.mp hy
    have hbyte := byteAt_of_getElem? hx
    have hnat : unle b cur .two = x.toNat + 256 * y.toNat := by
      rw [unle, hbyte, byteAt_of_getElem? hy]
    have hsigned : sext 16 (unle b cur .two) = (y ++ x).toInt := by
      rw [hnat, ← toNat_byte_append, sext_toNat (by decide)]
    refine ⟨exec_of_guardElem rfl hlen (by rw [hnat]),
      exec_of_guardElem rfl hlen (by rw [hnat, bytes_ne_zero]),
      exec_of_guardElem rfl hlen (by rw [hbyte, sext_toNat (by decide)]),
      exec_of_guardElem rfl hlen (by rw [hbyte]),
      exec_of_guardElem rfl hlen (congrArg _ hsigned), fun op hop => ?_⟩
    have hunsigned : Scalar.int (unle b cur .two) = .int (x.toNat + 256 * y.toNat) := by
      rw [hnat]; rfl
    simp only [List.mem_cons, List.not_mem_nil, or_false] at hop
    obtain rfl | rfl | rfl := hop <;> exact exec_of_guardElem rfl hlen hunsigned
  case short =>
    simp only [List.mem_cons, List.not_mem_nil, or_false] at hop
    obtain rfl | rfl | rfl | rfl | rfl | rfl | rfl | rfl := hop <;> exact exec_of_guardElem_short rfl hw

/-! ## Bits (R39, R180) -/

theorem mask_getElem? : ∀ {i : Nat}, i ≤ 7 → mask[i]? = some (BitVec.twoPow 8 i) := by decide

theorem byte_and_twoPow_ne_zero {i : Nat} (h : i ≤ 7) (z : Byte) :
    ((z &&& BitVec.twoPow 8 i) != 0) = z.getLsbD i := by
  have hpow : BitVec.twoPow 8 i ≠ 0 := (by decide : ∀ i ≤ 7, BitVec.twoPow 8 i ≠ 0) i h
  rw [BitVec.and_twoPow]
  cases z.getLsbD i with
  | true => exact bne_iff_ne.mpr hpow
  | false => rfl

section
variable {p : Config.Params} {f : Format} {b : Bytes} {cur : Nat} {w : Width} {i : Nat} {pos : BytePosition}

theorem decBit_of_length (hi : i ≤ 7) (h : cur + w.bytes ≤ b.length) :
    decBit p f b cur w i pos = bitScalar f ((bitByte p b cur w pos).getLsbD i) := by
  unfold decBit
  rw [if_pos h, mask_getElem? hi, ← byte_and_twoPow_ne_zero hi]

theorem decBit_short (h : b.length < cur + w.bytes) : decBit p f b cur w i pos = .error .shortPayload :=
  if_neg (Nat.not_le.mpr h)

end

theorem bitByte_two (p : Config.Params) (b : Bytes) (cur : Nat) (pos : BytePosition) :
    bitByte p b cur .two pos =
      byteAt b (if p.bitByteRule = .alwaysHigh ∨ pos = .msb then cur + 1 else cur) := by
  unfold bitByte
  cases p.bitByteRule with
  | byBytePosition => cases pos <;> rfl
  | alwaysHigh => rfl

/-- Settles O25: `decBit_of_length` at the byte the width and `BIT_BYTE_RULE` designate, `decBit_short`
otherwise. -/
theorem bitsDecodeFromTheDesignatedByte : Obligations.BitsDecodeFromTheDesignatedByte := by
  intro b cur i pos s hi
  have hexec (f : Format) (w : Width) :
      exec (.decBit f b cur w i pos) s = answerScalar (decBit s.par f b cur w i pos) s := rfl
  refine ⟨fun w z hz => ?bit, fun f w hw => ?short⟩
  case bit =>
    have hbyte : cur + w.bytes ≤ b.length ∧ bitByte s.par b cur w pos = z := by
      obtain ⟨rfl, hz⟩ | ⟨rfl, hlen, hz⟩ := hz
      · obtain ⟨hlen, -⟩ := List.getElem?_eq_some_iff.mp hz
        exact ⟨hlen, byteAt_of_getElem? hz⟩
      · exact ⟨hlen, (bitByte_two ..).trans (byteAt_of_getElem? hz)⟩
    obtain ⟨hlen, hbyte⟩ := hbyte
    have hbit (f : Format) :
        exec (.decBit f b cur w i pos) s = answerScalar (bitScalar f (z.getLsbD i)) s := by
      rw [hexec, decBit_of_length hi hlen, hbyte]
    refine ⟨hbit .bool, hbit .char, fun f hf => ?_, fun tag => hbit (.other tag)⟩
    rw [hbit]
    simp only [List.mem_cons, List.not_mem_nil, or_false] at hf
    obtain rfl | rfl | rfl | rfl | rfl | rfl := hf <;> rfl
  case short => rw [hexec, decBit_short hw]; rfl

/-! ## Variables (R181) -/

theorem mem_formats_of_known {f : Format} (h : knownFormat f = true) :
    f ∈ [.char, .bool, .int8, .uint8, .int16, .uint16, .uint32, .uint64] := by
  cases f with
  | other => cases h
  | _ => decide

theorem decFormat_short {f : Format} {b : Bytes} {cur : Nat} {w : Width} (hf : knownFormat f = true)
    (h : b.length < cur + w.bytes) : decFormat f b cur w = .error .shortPayload := by
  cases f with
  | other => cases hf
  | _ => exact guardElem_short h _

section
variable {p : Config.Params} {var : VarDescr} {w : Width} {b : Bytes}

theorem decElems_cons {n cur : Nat} {x : Scalar} {xs : List Scalar} (hx : decOne p var w b cur = .ok x)
    (hxs : decElems p var w b n (cur + w.bytes) = .ok xs) :
    decElems p var w b (n + 1) cur = .ok (x :: xs) :=
  bind_ok.mpr ⟨x, hx, bind_ok.mpr ⟨xs, hxs, rfl⟩⟩

/-- The elements stand at successive multiples of the width. -/
theorem decElems_of_forall {xs : List Scalar} : ∀ {cur : Nat},
    (∀ j x, xs[j]? = some x → decOne p var w b (cur + w.bytes * j) = .ok x) →
    decElems p var w b xs.length cur = .ok xs := by
  induction xs with
  | nil => exact fun _ => rfl
  | cons x xs ih =>
    intro cur h
    refine decElems_cons (h 0 x rfl) (ih fun j y hy => ?_)
    rw [Nat.add_assoc, Nat.add_comm w.bytes, ← Nat.mul_succ]
    exact h (j + 1) y hy

theorem deca_array (h : var.isArray = true) {xs : List Scalar}
    (hxs : decElems p var w b var.length 0 = .ok xs) : deca p var w b = .ok (.array xs) := by
  rw [deca, if_pos h, hxs]
  rfl

theorem deca_scalar (h : var.isArray = false) :
    deca p var w b = (decOne p var w b 0).map .scalar := by
  rw [deca, if_neg (by rw [h]; decide)]
  cases decOne p var w b 0 <;> rfl

/-! Of a variable the configuration accepts, an element decodes exactly when its bytes are there. -/
variable (p) (hf : knownFormat var.format = true) (hbit : ∀ i, var.bitIndex = some i → i ≤ 7)

include hf hbit in
theorem decOne_of_length {cur : Nat} (h : cur + w.bytes ≤ b.length) :
    ∃ x, decOne p var w b cur = .ok x := by
  unfold decOne
  cases hi : var.bitIndex with
  | none => exact decFormat_ok (mem_formats_of_known hf) h
  | some i => exact decBit_ok (mem_formats_of_known hf) (hbit i hi) h

include hf in
theorem decOne_short {cur : Nat} (h : b.length < cur + w.bytes) :
    decOne p var w b cur = .error .shortPayload := by
  unfold decOne
  cases var.bitIndex with
  | none => exact decFormat_short hf h
  | some i => exact decBit_short h

include hf hbit in
theorem decElems_of_length : ∀ {n cur : Nat}, cur + w.bytes * n ≤ b.length →
    ∃ xs, decElems p var w b n cur = .ok xs
  | 0, _, _ => ⟨[], rfl⟩
  | n + 1, cur, h => by
    rw [Nat.mul_succ] at h
    have hone : cur + w.bytes ≤ b.length := by omega
    have hrest : cur + w.bytes + w.bytes * n ≤ b.length := by omega
    obtain ⟨x, hx⟩ := decOne_of_length p hf hbit hone
    obtain ⟨xs, hxs⟩ := decElems_of_length hrest
    exact ⟨x :: xs, decElems_cons hx hxs⟩

include hf hbit in
/-- The first element that is not all there refuses the array. -/
theorem decElems_short : ∀ {n cur : Nat}, cur ≤ b.length → b.length < cur + w.bytes * n →
    decElems p var w b n cur = .error .shortPayload
  | 0, cur, hcur, h => absurd hcur (Nat.not_le.mpr h)
  | n + 1, cur, hcur, h => by
    rw [Nat.mul_succ] at h
    rw [decElems]
    by_cases hone : cur + w.bytes ≤ b.length
    · obtain ⟨x, hx⟩ := decOne_of_length p hf hbit hone
      rw [hx, decElems_short hone (by omega)]
      rfl
    · rw [decOne_short p hf (Nat.not_le.mp hone)]
      rfl

include hf hbit in
theorem deca_of_length (h : w.bytes * var.elementCount ≤ b.length) :
    ∃ x, deca p var w b = .ok x := by
  unfold VarDescr.elementCount at h
  cases harr : var.isArray with
  | true =>
    rw [if_pos harr, ← Nat.zero_add (w.bytes * _)] at h
    obtain ⟨xs, hxs⟩ := decElems_of_length p hf hbit h
    exact ⟨.array xs, deca_array harr hxs⟩
  | false =>
    rw [if_neg (by rw [harr]; decide), Nat.mul_one, ← Nat.zero_add w.bytes] at h
    obtain ⟨x, hx⟩ := decOne_of_length p hf hbit h
    exact ⟨.scalar x, by rw [deca_scalar harr, hx]; rfl⟩

include hf hbit in
theorem deca_short (h : b.length < w.bytes * var.elementCount) :
    deca p var w b = .error .shortPayload := by
  unfold VarDescr.elementCount at h
  cases harr : var.isArray with
  | true =>
    rw [if_pos harr] at h
    rw [deca, if_pos harr, decElems_short p hf hbit (Nat.zero_le _) (by omega)]
    rfl
  | false =>
    rw [if_neg (by rw [harr]; decide)] at h
    rw [deca_scalar harr, decOne_short p hf (by omega)]
    rfl

end

/-- Settles O26: a scalar by `deca_scalar`, an array by `decElems_of_forall`, and the lengths by `deca_of_length`
and `deca_short`. -/
theorem variablesDecodeElementByElement : Obligations.VariablesDecodeElementByElement := by
  intro v w b s
  have hexec : exec (.deca v w b) s = answer ((deca s.par v w b).map .value) s := rfl
  have hscalar (harr : v.isArray = false) :
      exec (.deca v w b) s = answerScalar (decOne s.par v w b 0) s := by
    rw [hexec, deca_scalar harr]
    cases decOne s.par v w b 0 <;> rfl
  refine ⟨fun harr i hi => ?bit, fun harr hnone q hq hfmt => ?element, fun harr xs hlen hxs => ?array,
    fun hf hbit => ⟨fun h => ?long, fun h => ?short⟩⟩
  case bit =>
    rw [hscalar harr, decOne, hi]
    rfl
  case element =>
    rw [hscalar harr, decOne, hnone, hfmt]
    simp only [List.mem_cons, List.not_mem_nil, or_false] at hq
    obtain rfl | rfl | rfl | rfl | rfl | rfl | rfl | rfl := hq <;> rfl
  case array =>
    have helems : decElems s.par v w b v.length 0 = .ok xs := by
      rw [← hlen]
      exact decElems_of_forall fun j x hx => by rw [Nat.zero_add]; exact hxs j x hx
    rw [hexec, deca_array harr helems]
    rfl
  case long =>
    obtain ⟨x, hx⟩ := deca_of_length s.par hf hbit h
    exact ⟨x, by rw [hexec, hx]; rfl⟩
  case short =>
    rw [hexec, deca_short s.par hf hbit h]
    rfl

/-! ## The round trip of one element (R182) -/

/-- A format and a value of the kind it encodes (R163 to R170). -/
inductive Encodes : Format → Scalar → Prop
  | char (c : Nat) : Encodes .char (.char c)
  | bool (t : Bool) : Encodes .bool (.bool t)
  | int8 (n : Int) : Encodes .int8 (.int n)
  | uint8 (n : Int) : Encodes .uint8 (.int n)
  | int16 (n : Int) : Encodes .int16 (.int n)
  | uint16 (n : Int) : Encodes .uint16 (.int n)
  | uint32 (n : Int) : Encodes .uint32 (.int n)
  | uint64 (n : Int) : Encodes .uint64 (.int n)

/-- Decoding the encoded value gives it back. -/
def RoundTrips (p : Config.Params) (f : Format) (w : Width) (v : Scalar) : Prop :=
  ∃ b, encFormat p f (.scalar v) w = .ok b ∧ decFormat f b 0 w = .ok v

theorem byteAt_encByte (p : Config.Params) (n : Int) (w : Width) :
    byteAt (encByte p n w) 0 = BitVec.ofInt 8 n := by
  cases w with
  | one | two => exact byte_of_zext n

theorem unle_encWide (n : Int) (w : Width) : unle (encWide n w) 0 w = zext (8 * w.bytes) n :=
  unle_le (zext_eq_toNat .. ▸ (BitVec.ofInt (8 * w.bytes) n).isLt)

theorem encWide_of_ofInt {n : Int} {w : Width} {b : Bytes} (hb : b.length = w.bytes)
    (h : BitVec.ofInt (8 * w.bytes) n = BitVec.ofNat (8 * w.bytes) (unle b 0 w)) : encWide n w = b := by
  rw [encWide, zext_eq_toNat, h, BitVec.toNat_ofNat, Nat.mod_eq_of_lt (unle_lt b 0 w), le_unle hb]

/-- The integers that fit the surviving bits of a signed format. -/
theorem toInt_ofInt_eq_iff {k : Nat} (hk : 0 < k) {n : Int} :
    (BitVec.ofInt k n).toInt = n ↔ -2 ^ (k - 1) ≤ n ∧ n < 2 ^ (k - 1) := by
  constructor
  · intro h
    rw [← h]
    exact ⟨BitVec.le_toInt _, BitVec.toInt_lt⟩
  · rintro ⟨hlo, hhi⟩
    exact BitVec.toInt_ofInt_eq_self hk hlo hhi

/-- The integers that fit the surviving bits of an unsigned format. -/
theorem zext_eq_self_iff {k : Nat} {n : Int} : (zext k n : Int) = n ↔ 0 ≤ n ∧ n < 2 ^ k := by
  have hpos : (0 : Int) < (2 ^ k : Nat) := by exact_mod_cast Nat.two_pow_pos k
  have hcast : (zext k n : Int) = n % (2 ^ k : Nat) := Int.toNat_of_nonneg (Int.emod_nonneg n hpos.ne')
  rw [hcast]
  push_cast at hpos ⊢
  exact ⟨fun h => h ▸ ⟨Int.emod_nonneg n hpos.ne', Int.emod_lt_of_pos n hpos⟩,
    fun ⟨hlo, hhi⟩ => Int.emod_eq_of_lt hlo hhi⟩

/-! The domain table of R182, by the number of surviving bits. -/

theorem survives_char {w : Width} {c : Nat} : survives .char w (.char c) ↔ c < 2 ^ (8 * w.bytes) := by
  cases w with
  | one | two => exact Nat.lt_succ_iff.symm

theorem survives_int16 {w : Width} {n : Int} : survives .int16 w (.int n) ↔
    -2 ^ (8 * w.bytes - 1) ≤ n ∧ n < 2 ^ (8 * w.bytes - 1) := by
  cases w with
  | one | two => simp only [survives, Width.bytes]; omega

theorem survives_uint16 {w : Width} {n : Int} : survives .uint16 w (.int n) ↔
    0 ≤ n ∧ n < 2 ^ (8 * w.bytes) := by
  cases w with
  | one | two => simp only [survives, Width.bytes]; omega

theorem survives_int8 {w : Width} {n : Int} : survives .int8 w (.int n) ↔ -2 ^ 7 ≤ n ∧ n < 2 ^ 7 := by
  simp only [survives]; omega

theorem survives_uint8 {w : Width} {n : Int} : survives .uint8 w (.int n) ↔ 0 ≤ n ∧ n < 2 ^ 8 := by
  simp only [survives]; omega

theorem survives_uint32 {w : Width} {n : Int} :
    survives .uint32 w (.int n) ↔ survives .uint16 w (.int n) := by
  cases w <;> rfl

theorem survives_uint64 {w : Width} {n : Int} :
    survives .uint64 w (.int n) ↔ survives .uint16 w (.int n) := by
  cases w <;> rfl

section
variable {p : Config.Params} {f : Format} {w : Width} {v : Scalar}

theorem encodes_of_survives (h : survives f w v) : Encodes f v := by
  unfold survives at h
  split at h
  case h_14 => exact h.elim
  all_goals constructor

theorem encodes_of_encFormat {b : Bytes} (h : encFormat p f (.scalar v) w = .ok b) : Encodes f v := by
  cases f with
  | char =>
    cases v with
    | char c => exact .char c
    | bool | int => cases h
  | bool =>
    cases v with
    | bool t => exact .bool t
    | char | int => cases h
  | other => cases h
  | int8 | uint8 | int16 | uint16 | uint32 | uint64 =>
    cases v with
    | int n => constructor
    | bool | char => cases h

/-- A value round-trips when what its bytes decode to is the value. -/
theorem roundTrips_iff {b : Bytes} {u : Scalar} (henc : encFormat p f (.scalar v) w = .ok b)
    (hdec : decFormat f b 0 w = guardElem b 0 w u) : RoundTrips p f w v ↔ u = v := by
  have hlen : 0 + w.bytes ≤ b.length := by rw [encFormat_length henc, Nat.zero_add]
  rw [guardElem_ok hlen] at hdec
  constructor
  · rintro ⟨b', henc', hdec'⟩
    obtain rfl : b = b' := Except.ok.inj (henc.symm.trans henc')
    exact Except.ok.inj (hdec.symm.trans hdec')
  · rintro rfl
    exact ⟨b, henc, hdec⟩

theorem char_roundTrips (p : Config.Params) (c : Nat) (w : Width) :
    RoundTrips p .char w (.char c) ↔ c < 2 ^ (8 * w.bytes) := by
  have henc : encFormat p .char (.scalar (.char c)) w = _ := encChar_char c w
  by_cases hc : c < 2 ^ (8 * w.bytes)
  · rw [if_pos hc] at henc
    rw [roundTrips_iff henc rfl, unle_le hc]
    exact iff_of_true rfl hc
  · rw [if_neg hc] at henc
    refine iff_of_false ?_ hc
    rintro ⟨b, hb, -⟩
    cases henc.symm.trans hb

theorem bool_roundTrips (p : Config.Params) (t : Bool) (w : Width) : RoundTrips p .bool w (.bool t) := by
  refine (roundTrips_iff rfl rfl).mpr ?_
  have hbit : (if t then 1 else 0) < 2 ^ (8 * w.bytes) := by
    have hbits : 8 * w.bytes ≠ 0 := Nat.mul_ne_zero (by decide) (width_bytes_pos w).ne'
    cases t with
    | false => exact Nat.two_pow_pos _
    | true => exact Nat.one_lt_two_pow hbits
  rw [unle_le hbit]
  cases t <;> rfl

/-- The unsigned wide formats share one decode rule (R177 to R179). -/
theorem unsigned_roundTrips {n : Int} (henc : encFormat p f (.scalar (.int n)) w = .ok (encWide n w))
    (hdec : ∀ b, decFormat f b 0 w = guardElem b 0 w (.int (unle b 0 w))) :
    RoundTrips p f w (.int n) ↔ survives .uint16 w (.int n) := by
  rw [roundTrips_iff henc (hdec _), unle_encWide, Scalar.int.injEq, zext_eq_self_iff, survives_uint16]

/-- R182 for one element: a case for each format with a value of its kind. -/
theorem survives_iff_roundTrips : survives f w v ↔ RoundTrips p f w v := by
  have hkind (h : Encodes f v) : survives f w v ↔ RoundTrips p f w v := by
    cases h with
    | char c => rw [char_roundTrips, survives_char]
    | bool t => exact iff_of_true (by cases w <;> trivial) (bool_roundTrips p t w)
    | int8 n =>
      rw [roundTrips_iff rfl rfl, byteAt_encByte, sext_toNat (by decide), Scalar.int.injEq,
        toInt_ofInt_eq_iff (by decide), survives_int8]
    | uint8 n =>
      rw [roundTrips_iff rfl rfl, byteAt_encByte, ← zext_eq_toNat, Scalar.int.injEq, zext_eq_self_iff,
        survives_uint8]
    | int16 n =>
      have hbits : 0 < 8 * w.bytes := Nat.mul_pos (by decide) (width_bytes_pos w)
      rw [roundTrips_iff rfl rfl, unle_encWide, sext_zext hbits, Scalar.int.injEq, toInt_ofInt_eq_iff hbits,
        survives_int16]
    | uint16 n => exact (unsigned_roundTrips rfl fun _ => rfl).symm
    | uint32 n => exact survives_uint32.trans (unsigned_roundTrips rfl fun _ => rfl).symm
    | uint64 n => exact survives_uint64.trans (unsigned_roundTrips rfl fun _ => rfl).symm
  constructor
  · exact fun h => (hkind (encodes_of_survives h)).mp h
  · rintro ⟨b, hb, hv⟩
    exact (hkind (encodes_of_encFormat hb)).mpr ⟨b, hb, hv⟩

end

/-! ## The round trip of an array (R182) -/

theorem byteAt_append_right (pre b : Bytes) (i : Nat) : byteAt (pre ++ b) (pre.length + i) = byteAt b i := by
  rw [byteAt, List.getD_append_right _ _ _ _ (Nat.le_add_right ..), Nat.add_sub_cancel_left, byteAt]

theorem byteAt_append_left {b : Bytes} {i : Nat} (h : i < b.length) (post : Bytes) :
    byteAt (b ++ post) i = byteAt b i := List.getD_append _ _ _ _ h

/-- A decode operation looks only at the bytes of its element. -/
theorem decFormat_inside {b : Bytes} {w : Width} (hb : b.length = w.bytes) (f : Format) (pre post : Bytes) :
    decFormat f (pre ++ (b ++ post)) pre.length w = decFormat f b 0 w := by
  have hbyte {i : Nat} (hi : i < w.bytes) : byteAt (pre ++ (b ++ post)) (pre.length + i) = byteAt b i := by
    rw [byteAt_append_right, byteAt_append_left (hb ▸ hi)]
  have hfirst := hbyte (width_bytes_pos w)
  have hnat : unle (pre ++ (b ++ post)) pre.length w = unle b 0 w := by
    cases w with
    | one => exact congrArg BitVec.toNat hfirst
    | two => exact congrArg₂ (fun x y : Byte => x.toNat + 256 * y.toNat) hfirst (hbyte (by decide))
  have hguard (v : Scalar) : guardElem (pre ++ (b ++ post)) pre.length w v = guardElem b 0 w v := by
    rw [guardElem_ok (by simp [hb]), guardElem_ok (by rw [hb, Nat.zero_add])]
  rw [Nat.add_zero] at hfirst
  cases f with
  | other => rfl
  | char | bool | int16 | uint16 | uint32 | uint64 =>
    simp only [decFormat, decChar, decBool, decInt16, decUint16, decUint32, decUint64, hnat, hguard]
  | int8 | uint8 => simp only [decFormat, decInt8, decUint8, hfirst, hguard]

section
variable {p : Config.Params} {var : VarDescr} {w : Width}

/-- `pre` holds the elements already read. -/
theorem decElems_encElems (hbit : var.bitIndex = none) {vs : List Scalar}
    (h : ∀ v ∈ vs, RoundTrips p var.format w v) : ∃ b, encElems p var.format w vs = .ok b ∧
      ∀ pre, decElems p var w (pre ++ b) vs.length pre.length = .ok vs := by
  induction vs with
  | nil => exact ⟨[], rfl, fun _ => rfl⟩
  | cons v vs ih =>
    obtain ⟨⟨b, hb, hv⟩, hvs⟩ := List.forall_mem_cons.mp h
    obtain ⟨bs, hbs, hrest⟩ := ih hvs
    have hlen := encFormat_length hb
    refine ⟨b ++ bs, encElems_cons hb hbs, fun pre => decElems_cons ?_ ?_⟩
    · rw [decOne, hbit]
      exact (decFormat_inside hlen _ pre bs).trans hv
    · have := hrest (pre ++ b)
      rwa [List.append_assoc, List.length_append, hlen] at this

theorem deca_enca (harr : var.isArray = true) (hbit : var.bitIndex = none) {vs : List Scalar}
    (hlen : var.length = vs.length) (h : ∀ v ∈ vs, RoundTrips p var.format w v) :
    ∃ b, enca p var.format (.array vs) w true vs.length = .ok b ∧ deca p var w b = .ok (.array vs) := by
  obtain ⟨b, hb, hdec⟩ := decElems_encElems hbit h
  exact ⟨b, (enca_array ..).trans hb, deca_array harr (hlen ▸ hdec [])⟩

end

/-- The converse of R182, for the formats that keep every bit of the element. -/
theorem encFormat_decFormat (p : Config.Params) {w : Width} {b : Bytes} {v : Scalar} {f : Format}
    (hf : f ∈ ([.char, .int16, .uint16, .uint32, .uint64] : List Format)) (hb : b.length = w.bytes)
    (h : decFormat f b 0 w = .ok v) : encFormat p f (.scalar v) w = .ok b := by
  have hdecoded {u : Scalar} (hu : decFormat f b 0 w = guardElem b 0 w u) : u = v := by
    rw [hu, guardElem_ok (by rw [hb, Nat.zero_add])] at h
    exact Except.ok.inj h
  have hunsigned : encWide (unle b 0 w) w = b := encWide_of_ofInt hb (BitVec.ofInt_natCast _ _)
  simp only [List.mem_cons, List.not_mem_nil, or_false] at hf
  obtain rfl | rfl | rfl | rfl | rfl := hf
  case inl =>
    obtain rfl := hdecoded rfl
    exact (encChar_char _ w).trans (by rw [if_pos (unle_lt b 0 w), le_unle hb])
  case inr.inl =>
    obtain rfl := hdecoded rfl
    have hbits : 0 < 8 * w.bytes := Nat.mul_pos (by decide) (width_bytes_pos w)
    exact congrArg Except.ok (encWide_of_ofInt hb (by rw [sext_eq_toInt hbits, BitVec.ofInt_toInt]))
  all_goals
    obtain rfl := hdecoded rfl
    exact congrArg Except.ok hunsigned

/-- Settles O27: `survives_iff_roundTrips` for an element, `deca_enca` for an array and `encFormat_decFormat` for
the converse. -/
theorem codecRoundTripHoldsOnSurvivingValues : Obligations.CodecRoundTripHoldsOnSurvivingValues :=
  ⟨fun _ _ _ _ => survives_iff_roundTrips,
    fun _ _ _ _ harr hbit hlen h => deca_enca harr hbit hlen fun v hv => survives_iff_roundTrips.mp (h v hv),
    fun p _ _ _ _ hf hb h => encFormat_decFormat p hf hb h⟩

end Sys2Proof.Machine

/-! PROOFS. The frame builder (`43_frame_builder.md`, R201 to R209; O28, O30, O32 to O34). -/

namespace Sys2Proof.Machine

/-! ## Payloads and short frames (R201 to R203, R206, R207) -/

theorem payeAscii_eq_flatMap : ∀ raw : Bytes, payeAscii raw = raw.flatMap twoDigits
  | [] => rfl
  | x :: xs => by rw [payeAscii, hexe_eq, payeAscii_eq_flatMap xs, List.flatMap_cons]

/-- Settles O28: `hexe_eq` for a byte and `payeAscii_eq_flatMap` for a payload. -/
theorem payloadsRenderAsDigits : Obligations.PayloadsRenderAsDigits := by
  intro x raw s
  have hhexe : exec (.hexe x) s = .next { s with reply := .bytes (hexe x) } := rfl
  have hpaye (mode : Mode) : exec (.paye raw mode) s = .next { s with reply := .bytes (paye raw mode) } := rfl
  refine ⟨?_, hpaye .hex, ?_⟩
  · rw [hhexe, hexe_eq]
  · rw [hpaye, paye, payeAscii_eq_flatMap]

/-- Settles O30: only `BLD.ENQ` has two outcomes, by its station. -/
theorem shortFramesAreBuilt : Obligations.ShortFramesAreBuilt := by
  intro station s
  refine ⟨?enquiry, rfl, rfl⟩
  have hexec : exec (.bldEnq station) s = answer ((bldEnq station).map .bytes) s := rfl
  rw [hexec]
  split
  next h => rw [bldEnq_ok h]; rfl
  next h => exact congrArg (fun e => answer (Except.map Reply.bytes e) s) (if_neg h)

/-! ## A frame cut into lead, text and tail -/

section
variable {b lead text tail : Bytes} {lo hi : Nat}

theorem byteAt_mid {x : Byte} (hb : b = lead ++ x :: tail) (hlo : lo = lead.length) : byteAt b lo = x := by
  subst hb hlo
  exact byteAt_append_right lead (x :: tail) 0

theorem slice_mid (hb : b = lead ++ text ++ tail) (hlo : lo = lead.length) (hhi : hi = lo + text.length) :
    slice b lo hi = text := by
  subst hb hhi hlo
  rw [slice, List.append_assoc, List.drop_left, Nat.add_sub_cancel_left, List.take_left]

theorem chk_mid (hb : b = lead ++ text ++ tail) (hlo : lo = lead.length) (hhi : hi = lo + text.length) :
    chk b lo hi = .ok (xorOf text) := by
  refine chk_eq_ok.mpr ⟨by omega, ?_, by rw [slice_mid hb hlo hhi]⟩
  rw [hb, List.length_append, List.length_append]
  omega

end

theorem checkField_length (c : Byte) (mode : Mode) : (checkField c mode).length = checkLen mode := by
  cases mode <;> rfl

/-- The checksum field a frame ends with carries its checksum (R101). -/
theorem checkHolds_checkField (text : Bytes) (c : Byte) (mode : Mode) :
    checkHolds (text ++ checkField c mode) text.length c mode = true := by
  cases mode with
  | hex =>
    have hbyte : byteAt (text ++ [c]) text.length = c := byteAt_mid rfl rfl
    exact beq_iff_eq.mpr hbyte
  | ascii =>
    have hhigh : byteAt (text ++ twoDigits c) text.length = digitChar (c.toNat / 16) :=
      byteAt_mid rfl rfl
    have hlow : byteAt (text ++ twoDigits c) (text.length + 1) = digitChar (c.toNat % 16) :=
      byteAt_append_right text (twoDigits c) 1
    rw [checkHolds, checkField, hhigh, hlow, hexd_twoDigits]
    exact beq_self_eq_true _

/-! ## Data blocks (R205) -/

/-- The block checksum covers the payload and its terminator (R132). -/
theorem bldDb_of_size {chunk : Bytes} (h : ¬ (chunk.length < 1 ∨ chunk.length > 256)) (isFinal : Bool)
    (mode : Mode) : bldDb chunk isFinal mode = .ok (blockFrame chunk isFinal mode) := by
  have hchk : chk ([Code.stx] ++ chunk ++ [terminator isFinal]) 1 (chunk.length + 2) =
      .ok (xorOf (chunk ++ [endByte isFinal])) :=
    chk_mid (lead := [Code.stx]) (tail := []) (by rw [List.append_nil, ← List.append_assoc]; rfl) rfl
      (by rw [List.length_append]; simp only [List.length_singleton]; omega)
  rw [bldDb, Config.blockSize, if_neg h]
  exact bind_ok.mpr ⟨_, hchk, by rw [checkBytes_eq]; rfl⟩

/-- Settles O32: the two sides have the same cases, and `bldDb_of_size` gives the frame. -/
theorem dataBlocksAreBuilt : Obligations.DataBlocksAreBuilt := by
  intro chunk isFinal mode s
  have hexec : exec (.bldDb chunk isFinal mode) s = answer ((bldDb chunk isFinal mode).map .bytes) s := rfl
  rw [hexec]
  split
  next h => rw [bldDb, Config.blockSize, if_pos h]; rfl
  next h => rw [bldDb_of_size h]; rfl

theorem blockFrame_of_bldDb {chunk f : Bytes} {isFinal : Bool} {mode : Mode}
    (h : bldDb chunk isFinal mode = .ok f) : f = blockFrame chunk isFinal mode := by
  by_cases hsize : chunk.length < 1 ∨ chunk.length > 256
  · rw [bldDb, Config.blockSize, if_pos hsize] at h
    cases h
  · rw [bldDb_of_size hsize] at h
    exact (Except.ok.inj h).symm

/-- A block that passes every check of R234 is answered with what stands between STX and terminator. -/
theorem prsDb_of_checks {p : Config.Params} {rx : Bytes} {isFirst isFinal : Bool} {size o : Nat} {mode : Mode}
    {c : Byte} (ho : o = if isFirst then 1 else 0) (hlen : expect isFirst size mode ≤ rx.length)
    (hack : isFirst = true → byteAt rx 0 = Code.ack) (hstx : byteAt rx o = Code.stx)
    (hecho : echoOk p rx isFirst isFinal size mode = true)
    (hterm : byteAt rx (o + 1 + size) = terminator isFinal) (hchk : chkDb rx o (o + 1 + size) = .ok c)
    (hcheck : checkHolds rx (o + 1 + size + 1) c mode = true) :
    prsDb p rx isFirst isFinal size mode = .ok (.ok (slice rx (o + 1) (o + 1 + size))) := by
  have hlead : ¬ (isFirst = true ∧ byteAt rx 0 ≠ Code.ack) := fun h => h.2 (hack h.1)
  rw [prsDb, if_neg (Nat.not_lt.mpr hlen)]
  simp only [← ho]
  rw [if_neg hlead, if_neg (not_not.mpr hstx), if_neg (not_not.mpr hecho), if_neg (not_not.mpr hterm), hchk]
  exact if_pos hcheck

/-- What stands before a block's frame: the ACK of the Enquiry's answer or nothing (R99, R234). -/
def blockLead (isFirst : Bool) : Bytes := if isFirst then [0x06] else []

/-- A built block passes the checks, and what stands between STX and terminator is its chunk. -/
theorem prsDb_blockFrame {p : Config.Params} (hecho : p.echo = .passes) (chunk : Bytes) (isFirst isFinal : Bool)
    (mode : Mode) :
    prsDb p (blockLead isFirst ++ blockFrame chunk isFinal mode) isFirst isFinal chunk.length mode =
      .ok (.ok chunk) := by
  obtain ⟨c, hc⟩ : ∃ c, c = xorOf (chunk ++ [endByte isFinal]) := ⟨_, rfl⟩
  obtain ⟨lead, hlead⟩ : ∃ lead, lead = blockLead isFirst ++ [0x02] := ⟨_, rfl⟩
  obtain ⟨o, ho⟩ : ∃ o, o = (blockLead isFirst).length := ⟨_, rfl⟩
  obtain ⟨rx, hrx⟩ : ∃ rx, rx = blockLead isFirst ++ blockFrame chunk isFinal mode := ⟨_, rfl⟩
  have hfirst : o = if isFirst then 1 else 0 := by cases isFirst <;> exact ho
  have hstart : o + 1 = lead.length := by rw [hlead, ho, List.length_append, List.length_singleton]
  have hbytes : rx = lead ++ chunk ++ [endByte isFinal] ++ checkField c mode := by
    simp only [hrx, hlead, hc, blockFrame, List.append_assoc]
  have hlen : expect isFirst chunk.length mode ≤ rx.length := by
    simp only [expect, hbytes, List.length_append, List.length_singleton, checkField_length, ← hfirst, hstart]
    omega
  have hchk : chkDb rx o (o + 1 + chunk.length) = .ok c := by
    rw [hc]
    exact chk_mid (by rw [hbytes, List.append_assoc lead]) hstart (by rw [List.length_append]; rfl)
  have hcheck : checkHolds rx (o + 1 + chunk.length + 1) c mode = true := by
    have hpos : o + 1 + chunk.length + 1 = (lead ++ chunk ++ [endByte isFinal]).length := by
      rw [hstart, List.length_append, List.length_append]; rfl
    rw [hpos, hbytes]
    exact checkHolds_checkField _ c mode
  have hslice : slice rx (o + 1) (o + 1 + chunk.length) = chunk :=
    slice_mid (by rw [hbytes, List.append_assoc (lead ++ chunk)]) hstart rfl
  rw [← hrx]
  refine (prsDb_of_checks hfirst hlen ?ack ?stx ?echo ?terminator hchk hcheck).trans (by rw [hslice])
  case ack =>
    rintro rfl
    rw [hrx]; rfl
  case stx => exact byteAt_mid hrx ho
  case echo => rw [echoOk, hecho]
  case terminator =>
    exact byteAt_mid (hbytes.trans (List.append_assoc ..)) (by rw [hstart, List.length_append])

/-! ## Headers (R204, R236) -/

theorem unhexFrom_digitChar {n : Nat} (h : n < 16) (acc : Nat) (f : Bytes) :
    unhexFrom acc (digitChar n :: f) = unhexFrom (16 * acc + n) f := by
  have hval : hexVal (digitChar n) = some n := hexVal_digitChar ⟨n, h⟩
  rw [unhexFrom, hval]

theorem unhex_twoDigits (x : Byte) : unhex (twoDigits x) = some x.toNat := by
  have hx := x.isLt
  rw [unhex, twoDigits, unhexFrom_digitChar (by omega), unhexFrom_digitChar (by omega), unhexFrom]
  congr 1
  omega

theorem unhex_twoDigits_ofNat {n : Nat} (h : n ≤ 255) : unhex (twoDigits (BitVec.ofNat 8 n)) = some n := by
  rw [unhex_twoDigits, BitVec.toNat_ofNat, Nat.mod_eq_of_lt (by omega)]

theorem unhex_fourDigits (v : BitVec 16) : unhex (hexDigits v.toNat 4) = some v.toNat := by
  have hv := v.isLt
  rw [hexDigits_four, unhex, unhexFrom_digitChar (by omega), unhexFrom_digitChar (by omega),
    unhexFrom_digitChar (by omega), unhexFrom_digitChar (by omega), unhexFrom]
  congr 1
  omega

section
variable {rule : Config.HdrCountRule} (st : Byte) (dir : Dir) (mt : MemoryType) (ref : BitVec 16) {n : Nat}

/-- The digits of each field of a built Header read back as the field (R95). -/
theorem headerFields_headerFrame (h : countsFit rule n) (mode : Mode) :
    headerFields (headerFrame rule st dir mt ref n mode) =
      .ok ⟨st.toNat, cmdByte dir, dataTypeByte mt, ref.toNat, (headerCounts rule n).1,
        (headerCounts rule n).2, 1⟩ := by
  obtain ⟨f, hf⟩ : ∃ f, f = headerFrame rule st dir mt ref n mode := ⟨_, rfl⟩
  have hst : unhex (slice f 1 3) = some st.toNat := by
    rw [hf, ← unhex_twoDigits]; rfl
  have href : unhex (slice f 5 9) = some ref.toNat := by
    rw [hf, ← unhex_fourDigits, hexDigits_four]; rfl
  have hblocks : unhex (slice f 9 11) = some (headerCounts rule n).1 := by
    rw [hf, ← unhex_twoDigits_ofNat h]; rfl
  have hlast : unhex (slice f 11 13) = some (headerCounts rule n).2 := by
    rw [hf, ← unhex_twoDigits_ofNat (headerCounts_snd_le rule n)]; rfl
  have hmaster : unhex (slice f 13 15) = some 1 := by rw [hf]; rfl
  rw [← hf, headerFields, hst, href, hblocks, hlast, hmaster, hf]
  rfl

/-- A built Header passes each check of R236 in turn, so its answer is what its digits say. -/
theorem prsHdr_headerFrame (rule : Config.HdrCountRule) (n : Nat) (mode : Mode) :
    prsHdr (headerFrame rule st dir mt ref n mode) mode =
      .ok (headerFields (headerFrame rule st dir mt ref n mode)) := by
  obtain ⟨f, hf⟩ : ∃ f, f = headerFrame rule st dir mt ref n mode := ⟨_, rfl⟩
  obtain ⟨text, htext⟩ : ∃ text, text = headerText rule st dir mt ref n := ⟨_, rfl⟩
  have hlen : ¬ f.length < 16 + checkLen mode := by
    rw [hf, headerFrame_length]
    omega
  have hsoh : byteAt f 0 = Code.soh := by rw [hf]; rfl
  have hetb : byteAt f 15 = Code.etb := by rw [hf]; rfl
  have hchk : chkHdr f = .ok (xorOf text) :=
    chk_mid (lead := [0x01]) (by rw [hf, htext, headerFrame, List.append_assoc]) rfl (by rw [htext]; rfl)
  have hcheck : checkHolds f 16 (xorOf text) mode = true := by
    rw [hf, htext]
    exact checkHolds_checkField ([0x01] ++ headerText rule st dir mt ref n ++ [0x17]) _ mode
  rw [← hf, prsHdr, if_neg hlen, if_neg (not_not.mpr hsoh), if_neg (not_not.mpr hetb), hchk]
  exact if_pos hcheck

theorem countsFit_and_headerFrame_of_bldHdr {p : Config.Params} {mode : Mode} {f : Bytes}
    (h : bldHdr p st dir mt ref n mode = .ok f) :
    countsFit p.hdrCountRule n ∧ f = headerFrame p.hdrCountRule st dir mt ref n mode := by
  by_cases hfit : countsFit p.hdrCountRule n
  · rw [bldHdr_of_countsFit st dir mt ref hfit] at h
    exact ⟨hfit, (Except.ok.inj h).symm⟩
  · rw [bldHdr_of_not_countsFit st dir mt ref hfit] at h
    cases h

end

/-- An operation that answered the bytes `b` computed them. -/
theorem ok_of_answer_bytes {e : Except Reason Bytes} {s : State} {b : Bytes}
    (h : answer (e.map .bytes) s = .next { s with reply := .bytes b }) : e = .ok b := by
  cases e with
  | error r => cases h
  | ok a =>
    have hstate := Host.Outcome.next.inj h
    exact congrArg Except.ok (Reply.bytes.inj (congrArg State.reply hstate))

/-- Settles O33: a built block is `blockFrame`, which `prsDb_blockFrame` accepts with and without an ACK before
it; a built Header is `headerFrame`, accepted by `prsHdr_headerFrame` with the fields of
`headerFields_headerFrame`. -/
theorem builtFramesAreAccepted : Obligations.BuiltFramesAreAccepted := by
  refine ⟨fun chunk isFinal mode f s hecho h => ?_, fun station dir mt ref n mode f s h => ?_⟩
  · obtain rfl := blockFrame_of_bldDb (ok_of_answer_bytes h)
    have haccepts (isFirst : Bool) :
        exec (.prsDb (blockLead isFirst ++ blockFrame chunk isFinal mode) isFirst isFinal chunk.length mode) s =
          .next { s with reply := .block (.ok chunk) } :=
      congrArg (fun e => answer (Except.map Reply.block e) s) (prsDb_blockFrame hecho chunk isFirst isFinal mode)
    exact ⟨haccepts false, haccepts true⟩
  · obtain ⟨hfit, rfl⟩ := countsFit_and_headerFrame_of_bldHdr station dir mt ref (ok_of_answer_bytes h)
    have haccepts := prsHdr_headerFrame station dir mt ref s.par.hdrCountRule n mode
    rw [headerFields_headerFrame station dir mt ref hfit] at haccepts
    exact congrArg (fun e => answer (Except.map Reply.header e) s) haccepts

/-! ## Blocks of a payload (R208, R263) -/

/-- A block's end is cut at the payload's end, which the slice does by itself. -/
theorem split_fst (wire : Bytes) (blocks i : Nat) :
    (split wire wire.length blocks i).1 = (wire.drop (256 * i)).take 256 := by
  rw [split, slice, Config.blockSize, List.take_eq_take_iff, List.length_drop]
  omega

/-- The first `k` blocks are the first `256 * k` bytes. -/
theorem flatten_blocks (wire : Bytes) : ∀ k : Nat,
    ((List.range k).map fun i => (wire.drop (256 * i)).take 256).flatten = wire.take (256 * k)
  | 0 => rfl
  | k + 1 => by
    rw [List.range_succ, List.map_append, List.flatten_append, flatten_blocks wire k, Nat.mul_succ,
      List.take_add]
    simp only [List.map_cons, List.map_nil, List.flatten_cons, List.flatten_nil, List.append_nil]

/-- Settles O34: `split_fst` cuts each block, `blkmath_sizes` counts them, `flatten_blocks` joins them. -/
theorem blocksSplitThePayload : Obligations.BlocksSplitThePayload := by
  rintro wire bpe count mode ⟨numBytes, blocks, last⟩ hz hlen hpos
  obtain ⟨hblocks, hlast, hlast_le, hsum⟩ := blkmath_sizes hz hpos
  obtain rfl : wire.length = numBytes := hlen
  have hsize (i : Nat) : (split wire wire.length blocks i).1.length = min 256 (wire.length - 256 * i) := by
    rw [split_fst, List.length_take, List.length_drop]
  refine ⟨fun i hi => ⟨?_, decide_eq_false hi.ne⟩, fun i hi => ⟨?_, decide_eq_true hi⟩, ?_⟩
  · rw [hsize]
    dsimp only at hi
    omega
  · rw [hsize]
    dsimp only at hi ⊢
    omega
  · simp only [split_fst]
    rw [flatten_blocks, List.take_of_length_le (by omega)]

end Sys2Proof.Machine

/-! PROOFS. The frame parser (`44_frame_parser.md`, R230 to R239; O29, O35 to O38). -/

namespace Sys2Proof.Machine

/-! ## Digits (R231, R237) -/

/-- The spellings of a digit are the characters that read as it (R92, R231). -/
theorem spells_iff_hexVal {c : Byte} {n : Nat} : spells c n ↔ hexVal c = some n := by
  have hupper : ∀ n < 16, hexVal (digitChar n) = some n := by decide
  have hlower : ∀ n < 16, hexVal (digitChar n ||| 0x20) = some n := by decide
  have hread : ∀ c : Byte, ∀ n ∈ hexVal c, c = digitChar n ∨ c = digitChar n ||| 0x20 := by decide +kernel
  refine ⟨?_, fun h => ⟨hexVal_lt c n h, hread c n h⟩⟩
  rintro ⟨hn, rfl | rfl⟩
  · exact hupper n hn
  · exact hlower n hn

theorem hexVal_eq_none {c : Byte} (h : ∀ n, ¬ spells c n) : hexVal c = none :=
  Option.eq_none_iff_forall_ne_some.mpr fun n hn => h n (spells_iff_hexVal.mpr hn)

theorem hexd_eq_some {c0 c1 x : Byte} : hexd c0 c1 = some x ↔
    ∃ h l, hexVal c0 = some h ∧ hexVal c1 = some l ∧ BitVec.ofNat 8 (16 * h + l) = x := by
  unfold hexd
  split
  next h l h0 h1 => simp [h0, h1]
  next hnone =>
    refine iff_of_false (by simp) ?_
    rintro ⟨h, l, h0, h1, -⟩
    exact hnone h l h0 h1

theorem hexd_eq_none {c0 c1 : Byte} (h : hexVal c0 = none ∨ hexVal c1 = none) : hexd c0 c1 = none := by
  refine Option.eq_none_iff_forall_ne_some.mpr fun x hx => ?_
  obtain ⟨m, l, h0, h1, -⟩ := hexd_eq_some.mp hx
  simp [h0, h1] at h

/-- A byte fixes the values of its two digits. -/
theorem hexVal_eq_of_hexd {a b c d x : Byte} (h : hexd a b = some x) (h' : hexd c d = some x) :
    hexVal a = hexVal c ∧ hexVal b = hexVal d := by
  obtain ⟨m, l, ha, hb, rfl⟩ := hexd_eq_some.mp h
  obtain ⟨m', l', hc, hd, heq⟩ := hexd_eq_some.mp h'
  have hm := hexVal_lt a m ha
  have hl := hexVal_lt b l hb
  have hm' := hexVal_lt c m' hc
  have hl' := hexVal_lt d l' hd
  have hnat := congrArg BitVec.toNat heq
  rw [BitVec.toNat_ofNat, BitVec.toNat_ofNat] at hnat
  obtain ⟨rfl, rfl⟩ : m = m' ∧ l = l' := by omega
  exact ⟨ha.trans hc.symm, hb.trans hd.symm⟩

theorem paydAscii_cons_cons {c0 c1 : Byte} {rest raw : Bytes} : paydAscii (c0 :: c1 :: rest) = some raw ↔
    ∃ x xs, hexd c0 c1 = some x ∧ paydAscii rest = some xs ∧ x :: xs = raw := by
  rw [paydAscii]
  split
  next x xs hx hxs => simp [hx, hxs]
  next hnone =>
    refine iff_of_false (by simp) ?_
    rintro ⟨x, xs, hx, hxs, -⟩
    exact hnone x xs hx hxs

theorem exists_paydAscii : ∀ {wire : Bytes}, wire.length % 2 = 0 → (∀ c ∈ wire, ∃ n, spells c n) →
    ∃ raw, paydAscii wire = some raw
  | [], _, _ => ⟨[], rfl⟩
  | [_], hlen, _ => absurd hlen (by simp)
  | c0 :: c1 :: rest, hlen, hdig => by
    obtain ⟨h, h0⟩ := hdig c0 (by simp)
    obtain ⟨l, h1⟩ := hdig c1 (by simp)
    rw [List.length_cons, List.length_cons] at hlen
    obtain ⟨xs, hxs⟩ := exists_paydAscii (wire := rest) (by omega) fun c hc => hdig c (by simp [hc])
    have hx := hexd_eq_some.mpr ⟨h, l, spells_iff_hexVal.mp h0, spells_iff_hexVal.mp h1, rfl⟩
    exact ⟨_, paydAscii_cons_cons.mpr ⟨_, xs, hx, hxs, rfl⟩⟩

/-- Byte `j` of the payload is spelled by digits `2 * j` and `2 * j + 1` (R237). -/
theorem hexd_of_paydAscii {x c0 c1 : Byte} : ∀ {wire raw : Bytes} {j : Nat}, paydAscii wire = some raw →
    raw[j]? = some x → wire[2 * j]? = some c0 → wire[2 * j + 1]? = some c1 → hexd c0 c1 = some x
  | [], _, _, _, _, h0, _ => by simp at h0
  | [_], _, _, h, _, _, _ => by cases h
  | a :: b :: rest, raw, j, h, hx, h0, h1 => by
    obtain ⟨y, ys, hy, hys, rfl⟩ := paydAscii_cons_cons.mp h
    cases j with
    | zero =>
      obtain rfl : y = x := by simpa using hx
      obtain rfl : a = c0 := by simpa using h0
      obtain rfl : b = c1 := by simpa using h1
      exact hy
    | succ j => exact hexd_of_paydAscii hys hx h0 h1

theorem digits_of_paydAscii : ∀ {wire raw : Bytes}, paydAscii wire = some raw → ∀ c ∈ wire, ∃ n, spells c n
  | [], _, _, _, hc => by cases hc
  | [_], _, h, _, _ => by cases h
  | a :: b :: rest, raw, h, c, hc => by
    obtain ⟨y, ys, hy, hys, rfl⟩ := paydAscii_cons_cons.mp h
    obtain ⟨m, l, ha, hb, -⟩ := hexd_eq_some.mp hy
    obtain rfl | hc := List.mem_cons.mp hc
    · exact ⟨m, spells_iff_hexVal.mpr ha⟩
    obtain rfl | hc := List.mem_cons.mp hc
    · exact ⟨l, spells_iff_hexVal.mpr hb⟩
    · exact digits_of_paydAscii hys c hc

theorem paydAscii_eq_none {wire : Bytes} (h : wire.length % 2 = 1 ∨ ∃ c ∈ wire, ∀ n, ¬ spells c n) :
    paydAscii wire = none := by
  refine Option.eq_none_iff_forall_ne_some.mpr fun raw hraw => ?_
  obtain hodd | ⟨c, hc, hno⟩ := h
  · have hlen := paydAscii_length wire raw hraw
    omega
  · obtain ⟨n, hn⟩ := digits_of_paydAscii hraw c hc
    exact hno n hn

theorem payd_paye (raw : Bytes) (mode : Mode) : payd (paye raw mode) mode = some raw := by
  cases mode with
  | ascii => exact paydAscii_payeAscii raw
  | hex => rfl

/-- Settles O29: `HEXD` by `spells_iff_hexVal`, `PAYD` by `payd_paye`, `exists_paydAscii` with
`hexd_of_paydAscii`, and `paydAscii_eq_none`. -/
theorem digitsReadBackAsBytes : Obligations.DigitsReadBackAsBytes := by
  intro s mode
  have hhexd (c0 c1 : Byte) : exec (.hexd c0 c1) s = .next { s with reply := .hexByte (hexd c0 c1) } := rfl
  have hpayd (wire : Bytes) (m : Mode) :
      exec (.payd wire m) s = .next { s with reply := .rawPayload (payd wire m) } := rfl
  refine ⟨fun c0 c1 h l h0 h1 => ?digits, fun c0 c1 h => ?noDigit, fun raw => ?roundTrip,
    fun wire => hpayd wire .hex, fun wire hlen hdig => ?pairs, fun wire h => ?notHex⟩
  case digits =>
    rw [hhexd, hexd_eq_some.mpr ⟨h, l, spells_iff_hexVal.mp h0, spells_iff_hexVal.mp h1, rfl⟩]
  case noDigit => rw [hhexd, hexd_eq_none (h.imp hexVal_eq_none hexVal_eq_none)]
  case roundTrip => rw [hpayd, payd_paye]
  case pairs =>
    obtain ⟨raw, hraw⟩ := exists_paydAscii hlen hdig
    refine ⟨raw, (paydAscii_length wire raw hraw).symm, fun j x c0 c1 => hexd_of_paydAscii hraw, ?_⟩
    rw [hpayd, payd, hraw]
  case notHex => rw [hpayd, payd, paydAscii_eq_none h]

/-! ## Single byte answers (R232, R233, R235) -/

/-- Settles O35: the one byte each operation looks at is there, so only its value is left to decide. -/
theorem singleByteAnswersAreJudged : Obligations.SingleByteAnswersAreJudged := by
  intro u0 u1 x rest s
  have henq : prsEnqAck (u0 :: u1 :: x :: rest) = .ok (if x = 0x06 then .ok () else .fail .enqAckMissing) := by
    rw [prsEnqAck, if_neg (by simp), apply_ite Except.ok]; rfl
  have hack : prsAck (x :: rest) = .ok (if x = 0x06 then .ok () else .fail .ackMissing) := by
    rw [prsAck, if_neg (by simp), apply_ite Except.ok]; rfl
  have heot : prsEot (x :: rest) = .ok (if x = 0x04 then .ok () else .fail .eotMissing) := by
    rw [prsEot, if_neg (by simp), apply_ite Except.ok]; rfl
  have hanswer {e : Except Reason (Verdict Unit)} {v : Verdict Unit} (he : e = .ok v) :
      answer (e.map .verdict) s = .next { s with reply := .verdict v } := by rw [he]; rfl
  exact ⟨hanswer henq, hanswer hack, hanswer heot⟩

/-! ## Bytes that are there -/

theorem byteAt_eq_iff {b : Bytes} {i : Nat} (h : i < b.length) (x : Byte) : byteAt b i = x ↔ b[i]? = some x := by
  rw [byteAt_of_getElem? (List.getElem?_eq_getElem h), List.getElem?_eq_getElem h, Option.some.injEq]

theorem checkHolds_eq_fieldCarries {rx : Bytes} {i : Nat} {mode : Mode} (h : i + checkLen mode ≤ rx.length)
    (c : Byte) : checkHolds rx i c mode = fieldCarries rx i c mode := by
  cases mode with
  | hex =>
    have h0 : i < rx.length := h
    rw [checkHolds, fieldCarries, byteAt_of_getElem? (List.getElem?_eq_getElem h0),
      List.getElem?_eq_getElem h0]
    rfl
  | ascii =>
    have h1 : i + 1 < rx.length := h
    have h0 : i < rx.length := by omega
    rw [checkHolds, fieldCarries, byteAt_of_getElem? (List.getElem?_eq_getElem h0),
      byteAt_of_getElem? (List.getElem?_eq_getElem h1), List.getElem?_eq_getElem h0,
      List.getElem?_eq_getElem h1]

/-- The range of `n` bytes from `lo`, as the statements of the parser write it. -/
theorem slice_of_eq_add {lo hi n : Nat} (h : hi = lo + n) (b : Bytes) : slice b lo hi = (b.drop lo).take n := by
  rw [slice, h, Nat.add_sub_cancel_left]

/-! ## Data blocks (R234) -/

/-- What R234 says of the bytes of a block with its STX at `o` and its terminator at `t`: the first failure in
byte order, or the payload. -/
def blockVerdict (p : Config.Params) (rx : Bytes) (isFirst isFinal : Bool) (size : Nat) (mode : Mode)
    (o t : Nat) : Verdict Bytes :=
  if isFirst = true ∧ rx[0]? ≠ some 0x06 then .fail .ackMissing
  else if rx[o]? ≠ some 0x02 then .fail .stxMissing
  else if p.echo = .uninterpreted ∧ Config.echoCheck rx isFirst isFinal size mode = false then
    .fail .echoMismatch
  else if rx[t]? ≠ some (endByte isFinal) then .fail .terminatorMissing
  else if fieldCarries rx (t + 1) (xorOf ((rx.drop (o + 1)).take (size + 1))) mode = false then
    .fail .checksumMismatch
  else .ok ((rx.drop (o + 1)).take size)

theorem not_echoOk_iff (p : Config.Params) (rx : Bytes) (isFirst isFinal : Bool) (size : Nat)
    (mode : Mode) : ¬ echoOk p rx isFirst isFinal size mode = true ↔
      p.echo = .uninterpreted ∧ Config.echoCheck rx isFirst isFinal size mode = false := by
  unfold echoOk
  split
  next h => simp [h]
  next h => simp [h]

section
variable {p : Config.Params} {rx : Bytes} {isFirst isFinal : Bool} {size o t : Nat} {mode : Mode}

theorem prsDb_of_length (ho : o = if isFirst then 1 else 0) (ht : t = o + 1 + size)
    (hlen : expect isFirst size mode ≤ rx.length) :
    prsDb p rx isFirst isFinal size mode = .ok (blockVerdict p rx isFirst isFinal size mode o t) := by
  have hend : t + 1 + checkLen mode ≤ rx.length := by
    rw [expect, ← ho] at hlen
    omega
  have hack : byteAt rx 0 = Code.ack ↔ rx[0]? = some 0x06 := byteAt_eq_iff (by omega) _
  have hstx : byteAt rx o = Code.stx ↔ rx[o]? = some 0x02 := byteAt_eq_iff (by omega) _
  have hterm : byteAt rx t = terminator isFinal ↔ rx[t]? = some (endByte isFinal) :=
    byteAt_eq_iff (by omega) _
  have hrange : t + 1 = o + 1 + (size + 1) := by omega
  have hchk : chkDb rx o t = .ok (xorOf ((rx.drop (o + 1)).take (size + 1))) :=
    chk_eq_ok.mpr ⟨by omega, by omega, congrArg xorOf (slice_of_eq_add hrange rx)⟩
  have hslice : slice rx (o + 1) t = (rx.drop (o + 1)).take size := slice_of_eq_add ht rx
  rw [prsDb, if_neg (Nat.not_lt.mpr hlen)]
  simp only [← ho, ← ht, ne_eq, hack, hstx, hterm, not_echoOk_iff, hchk, hslice, bind, Except.bind,
    checkHolds_eq_fieldCarries hend, blockVerdict, apply_ite Except.ok]
  cases fieldCarries rx (t + 1) (xorOf ((rx.drop (o + 1)).take (size + 1))) mode <;> rfl

theorem prsDb_short (hlen : rx.length < expect isFirst size mode) :
    prsDb p rx isFirst isFinal size mode = .error .badRange := if_pos hlen

end

/-- Settles O36: `prsDb_of_length` says which verdict is answered, `prsDb_short` when there is none. -/
theorem dataBlocksAreJudgedInByteOrder : Obligations.DataBlocksAreJudgedInByteOrder := by
  intro rx isFirst isFinal size mode s
  have hexec : exec (.prsDb rx isFirst isFinal size mode) s =
      answer ((prsDb s.par rx isFirst isFinal size mode).map .block) s := rfl
  rw [hexec]
  refine ⟨fun hlen o t ho ht => ?_, fun hlen => ?_⟩
  · rw [prsDb_of_length ho ht hlen]; rfl
  · rw [prsDb_short hlen]; rfl

/-! ## Headers (R236) -/

/-- Two digits are read as the byte they spell (R93, R231). -/
theorem unhexFrom_pair (acc : Nat) (a b : Byte) (f : Bytes) :
    unhexFrom acc (a :: b :: f) = (hexd a b).bind fun x => unhexFrom (256 * acc + x.toNat) f := by
  cases ha : hexVal a with
  | none => rw [hexd_eq_none (.inl ha), unhexFrom, ha]; rfl
  | some m =>
    cases hb : hexVal b with
    | none => rw [hexd_eq_none (.inr hb), unhexFrom, ha]; dsimp only; rw [unhexFrom, hb]; rfl
    | some l =>
      have hm := hexVal_lt a m ha
      have hl := hexVal_lt b l hb
      have hvalue : 256 * acc + (BitVec.ofNat 8 (16 * m + l)).toNat = 16 * (16 * acc + m) + l := by
        rw [BitVec.toNat_ofNat]
        omega
      rw [hexd_eq_some.mpr ⟨m, l, ha, hb, rfl⟩, Option.bind_some, hvalue, unhexFrom, ha]
      dsimp only
      rw [unhexFrom, hb]

theorem unhex_pair (a b : Byte) : unhex [a, b] = (hexd a b).map BitVec.toNat := by
  rw [unhex, unhexFrom_pair, Nat.mul_zero]
  simp only [Nat.zero_add, unhexFrom]
  exact (Option.map_eq_bind ..).symm

theorem unhex_quad (a b c d : Byte) : unhex [a, b, c, d] =
    (hexd a b).bind fun x => (hexd c d).map fun y => 256 * x.toNat + y.toNat := by
  rw [unhex, unhexFrom_pair, Nat.mul_zero]
  simp only [Nat.zero_add, unhexFrom_pair, Option.map_eq_bind]
  rfl

/-- The fields of a Header from its digit pairs; one pair that is no byte spoils them all (R236). -/
def pairedFields (cmd dt : Byte) (st rh rl nb nl mi : Option Byte) : Verdict HdrFields :=
  match st, rh, rl, nb, nl, mi with
  | some st, some rh, some rl, some nb, some nl, some mi =>
    .ok ⟨st.toNat, cmd, dt, 256 * rh.toNat + rl.toNat, nb.toNat, nl.toNat, mi.toNat⟩
  | _, _, _, _, _, _ => .fail .echoMismatch

theorem headerFields_eq_pairedFields {h : Bytes} {s0 s1 r0 r1 r2 r3 b0 b1 l0 l1 m0 m1 : Byte}
    (hst : slice h 1 3 = [s0, s1]) (href : slice h 5 9 = [r0, r1, r2, r3]) (hnb : slice h 9 11 = [b0, b1])
    (hnl : slice h 11 13 = [l0, l1]) (hmi : slice h 13 15 = [m0, m1]) :
    headerFields h = pairedFields (byteAt h 3) (byteAt h 4) (hexd s0 s1) (hexd r0 r1) (hexd r2 r3)
      (hexd b0 b1) (hexd l0 l1) (hexd m0 m1) := by
  rw [headerFields, hst, href, hnb, hnl, hmi, unhex_pair, unhex_quad, unhex_pair, unhex_pair,
    unhex_pair]
  generalize hexd s0 s1 = st, hexd r0 r1 = rh, hexd r2 r3 = rl, hexd b0 b1 = nb, hexd l0 l1 = nl,
    hexd m0 m1 = mi
  obtain _ | st := st; · rfl
  obtain _ | rh := rh; · rfl
  obtain _ | rl := rl; · rfl
  obtain _ | nb := nb; · rfl
  obtain _ | nl := nl; · rfl
  obtain _ | mi := mi <;> rfl

theorem prsHdr_short {h : Bytes} {mode : Mode} (hlen : h.length < 16 + checkLen mode) :
    prsHdr h mode = .ok (.fail .terminatorMissing) := if_pos hlen

/-- The checks of R236 on a header that is long enough, in their order. -/
theorem prsHdr_of_length {h : Bytes} {mode : Mode} {c : Byte} (hlen : 16 + checkLen mode ≤ h.length)
    (hchk : chkHdr h = .ok c) : prsHdr h mode =
      .ok (if byteAt h 0 ≠ Code.soh then .fail .stxMissing
        else if byteAt h 15 ≠ Code.etb then .fail .terminatorMissing
        else if checkHolds h 16 c mode then headerFields h else .fail .checksumMismatch) := by
  rw [prsHdr, if_neg (Nat.not_lt.mpr hlen), hchk]
  simp only [apply_ite Except.ok]
  rfl

/-- Settles O37: `prsHdr_of_length` with `headerFields_eq_pairedFields`, once per mode, and `prsHdr_short`. -/
theorem headersAreJudged : Obligations.HeadersAreJudged := by
  have hexec (h : Bytes) (mode : Mode) (s : State) :
      exec (.prsHdr h mode) s = answer ((prsHdr h mode).map .header) s := rfl
  refine ⟨?whole, fun h mode s hlen => ?short⟩
  case whole =>
    intro h0 s0 s1 cmd dt r0 r1 r2 r3 b0 b1 l0 l1 m0 m1 e k0 k1 rest s body hbody c hc fields hfields
    have hchk (tail : Bytes) : chkHdr (body ++ tail) = .ok c := by
      subst hbody hc
      exact chk_mid (lead := [h0]) (tail := e :: tail) rfl rfl rfl
    have hread (tail : Bytes) : headerFields (body ++ tail) = fields := by
      subst hbody hfields
      exact headerFields_eq_pairedFields rfl rfl rfl rfl rfl
    have hfirst (tail : Bytes) : byteAt (body ++ tail) 0 = h0 := by subst hbody; rfl
    have hlast (tail : Bytes) : byteAt (body ++ tail) 15 = e := by subst hbody; rfl
    have hhex : checkHolds (body ++ k0 :: rest) 16 c .hex = (k0 == c) := by subst hbody; rfl
    have hascii : checkHolds (body ++ k0 :: k1 :: rest) 16 c .ascii = (hexd k0 k1 == some c) := by
      subst hbody; rfl
    have hlen (tail : Bytes) : 16 + tail.length = (body ++ tail).length := by
      rw [List.length_append, hbody]; rfl
    have hlenHex : 16 + checkLen .hex ≤ (body ++ k0 :: rest).length := by
      rw [← hlen, checkLen, List.length_cons]; omega
    have hlenAscii : 16 + checkLen .ascii ≤ (body ++ k0 :: k1 :: rest).length := by
      rw [← hlen, checkLen, List.length_cons, List.length_cons]; omega
    constructor
    · rw [hexec, prsHdr_of_length hlenHex (hchk _), hfirst, hlast, hread, hhex]
      simp only [beq_iff_eq, ne_eq, ite_not]
      rfl
    · rw [hexec, prsHdr_of_length hlenAscii (hchk _), hfirst, hlast, hread, hascii]
      simp only [beq_iff_eq, ne_eq, ite_not]
      rfl
  case short =>
    have hshort : h.length < 16 + checkLen mode := by cases mode <;> exact hlen
    rw [hexec, prsHdr_short hshort]
    rfl

/-! ## No false accept (R239) -/

section
variable {rx : Bytes} {i j : Nat} {c c' x y : Byte} {mode : Mode}

theorem fieldCarries_hex : fieldCarries rx i c .hex = true ↔ rx[i]? = some c := beq_iff_eq

theorem fieldCarries_ascii : fieldCarries rx i c .ascii = true ↔
    ∃ a b, rx[i]? = some a ∧ rx[i + 1]? = some b ∧ hexd a b = some c := by
  rw [fieldCarries]
  split
  next a b ha hb => simp [ha, hb]
  next hnone =>
    refine iff_of_false (by simp) ?_
    rintro ⟨a, b, ha, hb, -⟩
    exact hnone a b ha hb

/-- A checksum field carries one value only. -/
theorem eq_of_fieldCarries (h : fieldCarries rx i c mode = true) (h' : fieldCarries rx i c' mode = true) :
    c = c' := by
  cases mode with
  | hex => exact Option.some.inj ((fieldCarries_hex.mp h).symm.trans (fieldCarries_hex.mp h'))
  | ascii =>
    obtain ⟨a, b, ha, hb, hc⟩ := fieldCarries_ascii.mp h
    obtain ⟨a', b', ha', hb', hc'⟩ := fieldCarries_ascii.mp h'
    obtain rfl := Option.some.inj (ha.symm.trans ha')
    obtain rfl := Option.some.inj (hb.symm.trans hb')
    exact Option.some.inj (hc.symm.trans hc')

theorem fieldCarries_set_of_lt (h : j < i) (rx : Bytes) (x c : Byte) (mode : Mode) :
    fieldCarries (rx.set j x) i c mode = fieldCarries rx i c mode := by
  have h0 : (rx.set j x)[i]? = rx[i]? := List.getElem?_set_ne (by omega)
  have h1 : (rx.set j x)[i + 1]? = rx[i + 1]? := List.getElem?_set_ne (by omega)
  cases mode with
  | hex => rw [fieldCarries, fieldCarries, h0]
  | ascii => rw [fieldCarries, fieldCarries, h0, h1]

/-- A byte of the checksum field that changes its value spoils it: a digit may still change its case. -/
theorem fieldCarries_set_field (h : fieldCarries rx i c mode = true) (hlo : i ≤ j)
    (hhi : j < i + checkLen mode) (hy : rx[j]? = some y) (hne : x ≠ y)
    (hval : mode = .ascii → hexVal x ≠ hexVal y) : fieldCarries (rx.set j x) i c mode = false := by
  obtain ⟨hj, -⟩ := List.getElem?_eq_some_iff.mp hy
  have hset : (rx.set j x)[j]? = some x := List.getElem?_set_self hj
  refine Bool.eq_false_iff.mpr fun h' => ?_
  cases mode with
  | hex =>
    obtain rfl : j = i := by rw [checkLen] at hhi; omega
    have hx := hset.symm.trans (fieldCarries_hex.mp h')
    have hc := hy.symm.trans (fieldCarries_hex.mp h)
    exact hne (Option.some.inj (hx.trans hc.symm))
  | ascii =>
    obtain ⟨a, b, ha, hb, hc⟩ := fieldCarries_ascii.mp h
    obtain ⟨a', b', ha', hb', hc'⟩ := fieldCarries_ascii.mp h'
    obtain ⟨hhigh, hlow⟩ := hexVal_eq_of_hexd hc' hc
    obtain rfl | rfl : j = i ∨ j = i + 1 := by rw [checkLen] at hhi; omega
    · obtain rfl := Option.some.inj (hset.symm.trans ha')
      obtain rfl := Option.some.inj (hy.symm.trans ha)
      exact hval rfl hhigh
    · obtain rfl := Option.some.inj (hset.symm.trans hb')
      obtain rfl := Option.some.inj (hy.symm.trans hb)
      exact hval rfl hlow

end

section
variable {p : Config.Params} {rx payload : Bytes} {isFirst isFinal : Bool} {size o t j : Nat} {mode : Mode}
  {x y : Byte}

/-- The received bytes pass every check of R234 but the one on the echo. -/
structure WellFramed (rx : Bytes) (isFirst isFinal : Bool) (size : Nat) (mode : Mode) (o t : Nat) : Prop where
  ack : isFirst = true → rx[0]? = some 0x06
  stx : rx[o]? = some 0x02
  terminator : rx[t]? = some (endByte isFinal)
  checksum : fieldCarries rx (t + 1) (xorOf ((rx.drop (o + 1)).take (size + 1))) mode = true

theorem wellFramed_of_blockVerdict (h : blockVerdict p rx isFirst isFinal size mode o t = .ok payload) :
    WellFramed rx isFirst isFinal size mode o t ∧ payload = (rx.drop (o + 1)).take size := by
  unfold blockVerdict at h
  split at h; · cases h
  next hack =>
  split at h; · cases h
  next hstx =>
  split at h; · cases h
  split at h; · cases h
  next hterm =>
  split at h; · cases h
  next hcheck =>
  exact ⟨⟨fun hf => not_not.mp fun hne => hack ⟨hf, hne⟩, not_not.mp hstx, not_not.mp hterm,
    eq_true_of_ne_false hcheck⟩, (Verdict.ok.inj h).symm⟩

/-- The checksum shows a byte changed behind the STX: in the payload by the sum, in its field by the value. -/
theorem WellFramed.checksum_set (h : WellFramed rx isFirst isFinal size mode o t) (ht : t = o + 1 + size)
    (hstart : o < j) (hterm : j ≠ t) (hend : j < t + 1 + checkLen mode) (hy : rx[j]? = some y) (hne : x ≠ y)
    (hval : mode = .ascii → t < j → hexVal x ≠ hexVal y) :
    fieldCarries (rx.set j x) (t + 1) (xorOf (((rx.set j x).drop (o + 1)).take (size + 1))) mode = false := by
  have hrange : t + 1 = o + 1 + (size + 1) := by omega
  have hsum := h.checksum
  rw [← slice_of_eq_add hrange] at hsum ⊢
  obtain hpay | hfield : j < t ∨ t < j := by omega
  · obtain ⟨hlen, -⟩ := List.getElem?_eq_some_iff.mp h.terminator
    refine Bool.eq_false_iff.mpr fun h' => ?_
    rw [fieldCarries_set_of_lt (by omega)] at h'
    have hchk : chk rx (o + 1) (t + 1) = .ok (xorOf (slice rx (o + 1) (t + 1))) :=
      chk_eq_ok.mpr ⟨by omega, hlen, rfl⟩
    refine chk_set_ne hstart (by omega) hy hchk hne (chk_eq_ok.mpr ⟨by omega, ?_, ?_⟩)
    · rwa [List.length_set]
    · exact eq_of_fieldCarries h' hsum
  · rw [slice_set_outside (.inr hfield)]
    exact fieldCarries_set_field hsum hfield hend hy hne fun hm => hval hm hfield

/-- A well framed block with one byte changed fails by the check of that byte's position. -/
theorem blockVerdict_set (h : WellFramed rx isFirst isFinal size mode o t) (hecho : p.echo = .passes)
    (ho : o = if isFirst then 1 else 0) (ht : t = o + 1 + size)
    (hend : j < t + 1 + checkLen mode) (hy : rx[j]? = some y) (hne : x ≠ y)
    (hval : mode = .ascii → t < j → hexVal x ≠ hexVal y) :
    blockVerdict p (rx.set j x) isFirst isFinal size mode o t =
      .fail (if isFirst = true ∧ j = 0 then .ackMissing else if j = o then .stxMissing
        else if j = t then .terminatorMissing else .checksumMismatch) := by
  obtain ⟨hj, -⟩ := List.getElem?_eq_some_iff.mp hy
  have hset : (rx.set j x)[j]? = some x := List.getElem?_set_self hj
  have hkept {i : Nat} (hi : j ≠ i) : (rx.set j x)[i]? = rx[i]? := List.getElem?_set_ne hi
  have hchanged {i : Nat} {z : Byte} (hi : j = i) (hz : rx[i]? = some z) : (rx.set j x)[i]? ≠ some z := by
    subst hi
    rw [hset, Option.some.inj (hz.symm.trans hy)]
    exact fun hx => hne (Option.some.inj hx)
  rw [blockVerdict]
  by_cases hack : isFirst = true ∧ j = 0
  · rw [if_pos hack, if_pos ⟨hack.1, hchanged hack.2 (h.ack hack.1)⟩]
  have hack' : ¬ (isFirst = true ∧ (rx.set j x)[0]? ≠ some 0x06) := fun ⟨hf, hne⟩ =>
    hne ((hkept fun h0 => hack ⟨hf, h0⟩).trans (h.ack hf))
  rw [if_neg hack, if_neg hack']
  by_cases hstx : j = o
  · rw [if_pos hstx, if_pos (hchanged hstx h.stx)]
  have hecho' : ¬ (p.echo = .uninterpreted ∧
      Config.echoCheck (rx.set j x) isFirst isFinal size mode = false) := by simp [hecho]
  rw [if_neg hstx, if_neg (not_not.mpr ((hkept hstx).trans h.stx)), if_neg hecho']
  by_cases hterm : j = t
  · rw [if_pos hterm, if_pos (hchanged hterm h.terminator)]
  have hstart : o < j := by
    cases isFirst with
    | false => rw [if_neg Bool.false_ne_true] at ho; omega
    | true => rw [if_pos rfl] at ho; have hj0 := not_and.mp hack rfl; omega
  rw [if_neg hterm, if_neg (not_not.mpr ((hkept hterm).trans h.terminator)),
    if_pos (h.checksum_set ht hstart hterm hend hy hne hval)]

end

/-- Settles O38: `wellFramed_of_blockVerdict` for what an accepted frame carries, `blockVerdict_set` for the
frame with one byte changed. -/
theorem noFalseAccept : Obligations.NoFalseAccept := by
  intro p rx isFirst isFinal size mode payload o t hecho ho ht h
  have hlen : expect isFirst size mode ≤ rx.length := by
    refine not_lt.mp fun hshort => ?_
    rw [prsDb_short hshort] at h
    cases h
  have hexpect : expect isFirst size mode = t + 1 + checkLen mode := by rw [expect, ← ho, ht]
  rw [prsDb_of_length ho ht hlen] at h
  obtain ⟨hframed, rfl⟩ := wellFramed_of_blockVerdict (Except.ok.inj h)
  refine ⟨hframed.ack, hframed.stx, hframed.terminator, hframed.checksum, rfl, ?_, ?_⟩
  · rw [List.length_take, List.length_drop]
    omega
  · intro j x y hj hy hne hval
    rw [prsDb_of_length ho ht (by rwa [List.length_set]),
      blockVerdict_set hframed hecho ho ht (hexpect ▸ hj) hy hne hval]

end Sys2Proof.Machine

/-! PROOFS. The session's common events (`45_session_common.md`): the invariant every step keeps, the count of
frames, reception, abort and the end of a session (O7, O12, O39, O41, O43, O49 to O51). -/

namespace Sys2Proof.Machine

/-! ## Every instruction keeps the invariant of session and scheduler (R272, R331) -/

section
variable {s t : State} {r : Request}

/-- An operation that has kept the invariant wherever it answers, once it has answered. -/
theorem core_of_toOutcome {e : Except Stop State} (h : ∃ u, e = .ok u ∧ Core u ∧ Kept s u)
    (ht : toOutcome e = .next t) : Core t := by
  obtain ⟨u, rfl, hcore, -⟩ := h
  cases ht
  exact hcore

theorem Core.reply (h : Core s) (a : Reply) : Core { s with reply := a } := ⟨h.session, { h.sched with }⟩

theorem Core.emit (h : Core s) (o : Output) : Core (emit o s) := setRaisedOut_core h _ s.raised

/-- A request is present only outside `Idle` (R272 item 1). -/
theorem Core.ne_idle (h : Core s) (hq : s.ses.req = some r) : s.ses.state ≠ .idle := fun hi => by
  rw [h.session.req_iff.mp hi] at hq
  cases hq

/-- While a session runs, the scheduler may be changed but for the cycle and the latches: neither `Idle`'s
clause of R331 nor that of a closed engine applies. -/
theorem Core.reschedule (h : Core s) (hq : s.ses.req = some r) {q : Sched}
    (hrun : q.run = .running ∨ q.run = .closing) (hcycle : q.cycle = s.sch.cycle)
    (hlatched : q.invalidLatched = s.sch.invalidLatched)
    (hdebounce : q.debounce = .armed → q.link ≠ .reportedFalse)
    (hread : q.readPending = true → q.run = .closing ∨ r.dir = .write)
    (hwrite : ∀ pw, q.pendingWrite = some pw → Dispatchable s.par s.cfg pw) :
    Core { s with sch := q } where
  session := h.session
  sched :=
    { configured := fun _ => h.sched.configured (by rcases h.run_of_req hq with e | e <;> simp [e])
      rest := fun _ hi => absurd hi (h.ne_idle hq)
      reading := by rw [hcycle]; exact h.sched.reading
      cycle := by rw [hcycle]; exact h.sched.cycle
      readPending := fun e => (hread e).imp_right fun hd => ⟨r, hq, hd⟩
      debounce := hdebounce
      quiet := fun e => by rcases hrun with hr | hr <;> simp [hr] at e
      pending := hwrite
      latched := by rw [hlatched]; exact h.sched.latched
      latched_once := by rw [hlatched]; exact h.sched.latched_once }

/-- A debounce that has ended, whatever the link was reported as (R351). -/
theorem Core.disarm (h : Core s) (link : Link) (out : List Output) :
    Core { s with sch := { s.sch with debounce := .disarmed, link := link }, out := out } where
  session := h.session
  sched :=
    { h.sched with
      debounce := fun e => by cases e
      quiet := fun e => by
        obtain ⟨hi, hcycle, hwrite, hread, -, htx⟩ := h.sched.quiet e
        exact ⟨hi, hcycle, hwrite, hread, rfl, htx⟩ }

/-- The latch of a configured variable whose address does not translate (R336, R340). -/
theorem latchInvalid_core (h : Core s) {var : VarDescr} (hv : var ∈ s.cfg.vars) (hx : xltVar var = none)
    (hn : var.name ∉ s.sch.invalidLatched) : Core (latchInvalid var s) where
  session := h.session
  sched :=
    { h.sched with
      latched := by
        rw [latchInvalid_invalidLatched]
        intro n hmem
        rcases List.mem_append.mp hmem with hold | hnew
        · exact h.sched.latched n hold
        · exact ⟨var, hv, (List.mem_singleton.mp hnew).symm, hx⟩
      latched_once := by
        rw [latchInvalid_invalidLatched]
        exact h.sched.latched_once.append (List.nodup_singleton _) (List.disjoint_singleton.mpr hn) }

theorem execCfg_core (h : Core s) {c : Cfg} (ht : execCfg c s = .next t) : Core t := by
  unfold execCfg at ht
  split at ht
  · cases ht
  rename_i hclosed
  split at ht
  · cases ht
  rename_i hrest
  obtain ⟨hi, hclosing⟩ := not_or.mp hrest
  split at ht
  · rename_i hok
    cases ht
    have hrun : s.sch.run = .running ∨ s.sch.run = .unconfigured := by
      cases e : s.sch.run with
      | running => exact .inl rfl
      | unconfigured => exact .inr rfl
      | closing => exact absurd e hclosing
      | closed => exact absurd e hclosed
    exact loadCfg_core h (not_not.mp hi) hrun ((cfgOk_iff _ _).mp hok)
  · cases ht

/-- A tick starts a cycle in `Idle`, and is remembered only during a write (R334, R331 item 4). -/
theorem execPoll_core (h : Core s) (ha : s.par.accMax ≤ 65535) (ht : execPoll s = .next t) : Core t := by
  unfold execPoll at ht
  split at ht
  · rename_i hr
    unfold pollTick at ht
    by_cases hi : s.ses.state = .idle
    · rw [if_pos hi] at ht
      obtain ⟨-, hwrite, hread⟩ := h.sched.rest hr hi
      exact core_of_toOutcome (startCycle_core (h.between ha hi (.inl hr)) hr hwrite hread) ht
    · obtain ⟨r, hq⟩ := h.exists_req hi
      rw [if_neg hi, hq] at ht
      cases hd : r.dir with
      | read => simp only [hd] at ht; cases ht; exact h
      | write =>
        simp only [hd] at ht
        cases ht
        exact h.reschedule hq (.inl hr) rfl rfl h.sched.debounce (fun _ => .inr hd) h.sched.pending
  · cases ht

theorem writeInvalid_core (h : Core s) {var : VarDescr} (hv : var ∈ s.cfg.vars) (hx : xltVar var = none) :
    Core (writeInvalid var s) := by
  unfold writeInvalid
  dsimp only
  split
  · exact h.emit _
  · exact (latchInvalid_core h hv hx ‹_›).emit _

/-- A write is reported as not done, started, or queued behind the session with a value that encodes, so
that it can be dispatched when its turn comes (R340, R341). -/
theorem acceptWrite_core (h : Core s) (ha : s.par.accMax ≤ 65535) (hr : s.sch.run = .running)
    {var : VarDescr} (hv : var ∈ s.cfg.vars) {value : Value} (ht : acceptWrite var value s = .ok t) :
    Core t := by
  have hd : DescrAccepted s.par s.cfg.mode var := (h.sched.configured (by rw [hr]; decide)).vars var hv
  unfold acceptWrite at ht
  cases hx : xltVar var with
  | none =>
    rw [hx] at ht
    cases ht
    exact writeInvalid_core h hv hx
  | some xa =>
    rw [hx] at ht
    obtain ⟨raw, henc, ht⟩ := bind_ok.mp ht
    have hdisp : Dispatchable s.par s.cfg ⟨var, value⟩ := ⟨hd, xa, raw, hx, unit_eq_ok.mp henc⟩
    by_cases hi : s.ses.state = .idle
    · rw [if_pos hi] at ht
      exact core_of_toOutcome ((h.between ha hi (.inl hr)).dispatch hdisp) (toOutcome_next.mpr ht)
    · obtain ⟨r, hq⟩ := h.exists_req hi
      rw [if_neg hi] at ht
      split at ht
      · cases ht
      · cases ht
        refine h.reschedule hq (.inl hr) rfl rfl h.sched.debounce (fun e => ?_) fun pw e => ?_
        · obtain hc | ⟨r', hq', hw⟩ := h.sched.readPending e
          · exact .inl hc
          · rw [hq] at hq'; cases hq'; exact .inr hw
        · cases e; exact hdisp

theorem execWrq_core (h : Core s) (ha : s.par.accMax ≤ 65535) {name : VarName} {value : Value}
    (ht : execWrq name value s = .next t) : Core t := by
  have ht : writeRequest name value s = .ok t := toOutcome_next.mp ht
  unfold writeRequest at ht
  split at ht
  · cases ht
  rename_i hr
  split at ht
  · cases ht
  rename_i var hf
  split at ht
  · cases ht
  split at ht
  · cases ht
  exact acceptWrite_core h ha (not_not.mp hr) (List.mem_of_find?_eq_some hf) ht

theorem execTxc_core (h : Core s) (ht : execTxc s = .next t) : Core t := by
  unfold execTxc at ht
  split at ht
  · cases ht
  · cases ht; exact completeTx_core h

theorem execTmo_core (h : Core s) (ha : s.par.accMax ≤ 65535) (ht : execTmo s = .next t) : Core t := by
  unfold execTmo at ht
  split at ht
  · rename_i key _ hk
    obtain ⟨r, hq⟩ := h.exists_req fun hi => by rw [hi] at hk; cases hk
    exact core_of_toOutcome ((h.ending ha hq).takeAbort key true) ht
  · cases ht

theorem execDbt_core (h : Core s) (ht : execDbt s = .next t) : Core t := by
  unfold execDbt at ht
  split at ht
  · cases ht
    unfold debounceExpired
    dsimp only
    split
    · exact h.disarm .reportedFalse _
    · exact h.disarm s.sch.link s.out
  · cases ht

/-- A close that ends between sessions leaves the engine quiet (R357). -/
theorem Between.finishClose (h : Between s) : Core (finishClose s) := by
  rw [finishClose_eq]
  have hses : (closeFinished s).ses = { resetSession with txOutstanding := 0 } := by
    obtain ⟨n, e⟩ := h.ses
    rw [closeFinished, e]
    rfl
  exact
  { session := by rw [hses]; exact sessionInv_idle _ _ 0
    sched :=
      { configured := fun _ => h.configured
        rest := fun e => by cases e
        reading := fun r e => by rw [hses] at e; cases e
        cycle := fun c e => by cases e
        readPending := fun e => by cases e
        debounce := fun e => by cases e
        quiet := fun _ => by rw [hses]; exact ⟨rfl, rfl, rfl, rfl, rfl, rfl⟩
        pending := fun pw e => by cases e
        latched := h.latched
        latched_once := h.latched_once } }

/-- `CLS` ends the engine at rest, and lets a running session go on (R355). -/
theorem execCls_core (h : Core s) (ha : s.par.accMax ≤ 65535) (ht : execCls s = .next t) : Core t := by
  unfold execCls at ht
  split at ht
  · rename_i hr
    split at ht
    · rename_i hi
      cases ht
      exact (h.between ha hi (.inl hr)).finishClose
    · rename_i hi
      cases ht
      obtain ⟨r, hq⟩ := h.exists_req hi
      exact h.reschedule hq (.inr rfl) rfl rfl h.sched.debounce (fun _ => .inl rfl) h.sched.pending
  · cases ht

/-- The forced end of a session leaves the engine quiet as well (R356). -/
theorem forceIdle_core (h : Ending s r) (ht : forceIdle s = .ok t) : Core t := by
  unfold forceIdle at ht
  rw [h.req] at ht
  cases ht
  split
  · exact (h.of (t := emit _ s) h.req rfl ⟨rfl, rfl, rfl⟩).cleared.finishClose
  · exact h.cleared.finishClose

theorem execCpt_core (h : Core s) (ha : s.par.accMax ≤ 65535) (ht : execCpt s = .next t) : Core t := by
  unfold execCpt at ht
  split at ht
  · rename_i hr
    have ht : closePoll s = .ok t := toOutcome_next.mp ht
    unfold closePoll at ht
    by_cases hi : s.ses.state = .idle
    · rw [if_pos hi] at ht
      cases ht
      exact (h.between ha hi (.inr hr)).finishClose
    · obtain ⟨r, hq⟩ := h.exists_req hi
      rw [if_neg hi] at ht
      have hwaited : Core { s with sch := { s.sch with closeWaited := s.sch.closeWaited + s.par.closePollMs } } :=
        h.reschedule hq (.inr hr) rfl rfl h.sched.debounce (fun _ => .inl hr) h.sched.pending
      dsimp only at ht
      split at ht
      · exact forceIdle_core (hwaited.ending ha hq) ht
      · cases ht; exact hwaited
  · cases ht

/-- Whatever arrives at a port keeps the invariant of session and scheduler (R41). -/
theorem exec_core (h : Core s) (ha : s.par.accMax ≤ 65535) {i : Instr} (hp : i.isPort = true)
    (ht : exec i s = .next t) : Core t := by
  cases meaning i with
  | unit e he =>
    obtain ⟨a, -, rfl⟩ := answer_next.mp (he s ▸ ht)
    exact h.reply a
  | reception chunk he => exact core_of_toOutcome (receive_core h ha chunk) (he s ▸ ht)
  | cfg c => exact execCfg_core h ht
  | poll => exact execPoll_core h ha ht
  | wrq name value => exact execWrq_core h ha ht
  | txc => exact execTxc_core h ht
  | tmo => exact execTmo_core h ha ht
  | dbt => exact execDbt_core h ht
  | cls => exact execCls_core h ha ht
  | cpt => exact execCpt_core h ha ht
  | srd | swr | abort | finish => cases hp

/-- A step that goes on has run its instruction, or has shown its caller a refusal (R371). -/
theorem settle_next {o : Host.Outcome State Fault Refusal} (h : settle o s = .next t) :
    o = .next t ∨ ∃ a, t = { s with reply := .refused a } := by
  unfold settle at h
  split at h
  · cases h; exact .inr ⟨_, rfl⟩
  · cases h
  · cases h
  · exact .inl h

end

/-- Settles O7: `exec_core` for the session and the scheduler; a step changes no build-time parameter and
takes one delivery. -/
theorem everyStepKeepsTheEngineInvariant : Obligations.EveryStepKeepsTheEngineInvariant := by
  intro s t h ht
  cases hq : s.inbox with
  | nil =>
    rw [step_of_empty hq] at ht
    cases ht
    exact h
  | cons d ds =>
    have hport : ∀ x ∈ d :: ds, portInput x = true := fun x hx => h.ports x (by rwa [hq])
    have htake : Core (s.take ds) := Core.take ⟨h.session, h.sched⟩ ds
    have hend : Core t ∧ t.par = s.par ∧ t.inbox = ds := by
      cases hd : decode d with
      | error e =>
        rw [step_of_undecodable hq hd] at ht
        cases ht
      | ok i =>
        rw [step_of_decode hq hd] at ht
        obtain hexec | ⟨a, rfl⟩ := settle_next ht
        · obtain ⟨hpar, hinbox, -, -⟩ := onlyCfgWritesTheConfiguration i _ t hexec
          have hi : i.isPort = true := isPort_of_portInput (hport d List.mem_cons_self) hd
          exact ⟨exec_core htake h.accMax hi hexec, hpar, hinbox⟩
        · exact ⟨htake.reply _, rfl, rfl⟩
    obtain ⟨hcore, hpar, hinbox⟩ := hend
    exact
    { session := hcore.session
      sched := hcore.sched
      accMax := by rw [hpar]; exact h.accMax
      ports := fun x hx => hport x (List.mem_cons_of_mem d (hinbox ▸ hx)) }


/-! ## Outstanding frames (R266, R31, R357) -/

section
variable {s t : State}

theorem Emits.newOutputs_eq {os : List Output} (h : Emits s os t) : newOutputs s t = os :=
  h.announces.newOutputs_eq

/-- Only a frame handed over raises the count. -/
theorem Emits.txOutstanding {os : List Output} (h : Emits s os t) :
    t.ses.txOutstanding = s.ses.txOutstanding + ((newOutputs s t).filter isTx).length := by
  rw [h.newOutputs_eq, h.tx]

/-- `CFG` hands over no frame: it loads, and clears alerts. -/
theorem execCfg_txOutstanding {c : Cfg} (h : execCfg c s = .next t) :
    t.ses.txOutstanding = s.ses.txOutstanding + ((newOutputs s t).filter isTx).length := by
  unfold execCfg at h
  split at h
  · cases h
  split at h
  · cases h
  split at h
  · cases h
    obtain ⟨os, ho⟩ := clearAlerts_emits configClass
      { s with cfg := c, sch := { s.sch with invalidLatched := [] } } (by decide)
    exact ho.txOutstanding
  · cases h

/-- `TXC` takes one from a count that is not 0, whether or not it arms the timer. -/
theorem execTxc_txOutstanding (h : execTxc s = .next t) :
    s.ses.txOutstanding = t.ses.txOutstanding + 1 := by
  unfold execTxc at h
  split at h
  · cases h
  rename_i hn
  cases h
  unfold completeTx
  dsimp only
  split
  · show s.ses.txOutstanding = 0 + 1
    omega
  · show s.ses.txOutstanding = s.ses.txOutstanding - 1 + 1
    omega

/-- From `s` to `t` no frame was handed over, and the count stayed or was forgotten by a close (R357). -/
structure ForgetsOnClose (s t : State) : Prop where
  silent : ∃ os, t.out = s.out ++ os ∧ os.filter isTx = []
  count : t.ses.txOutstanding = s.ses.txOutstanding ∨ t.sch.run = .closed ∧ t.ses.txOutstanding = 0

theorem ForgetsOnClose.filter_newOutputs (h : ForgetsOnClose s t) : (newOutputs s t).filter isTx = [] := by
  obtain ⟨os, hout, hos⟩ := h.silent
  rw [newOutputs, hout, List.drop_left, hos]

/-- Nothing but the scheduler changed. -/
theorem ForgetsOnClose.scheduler (s : State) (q : Sched) : ForgetsOnClose s { s with sch := q } where
  silent := ⟨[], (List.append_nil _).symm, rfl⟩
  count := .inl rfl

/-- A close that follows outputs without a frame forgets the count. -/
theorem ForgetsOnClose.finish {u : State} {os : List Output} (hout : u.out = s.out ++ os)
    (hos : os.filter isTx = []) : ForgetsOnClose s (finishClose u) where
  silent := by
    rw [finishClose_eq]
    refine ⟨_, by rw [closeFinished, hout, List.append_assoc, List.append_assoc], ?_⟩
    rw [List.filter_append, hos]
    cases u.sch.pendingWrite <;> rfl
  count := .inr ⟨finishClose_run u, finishClose_txOutstanding u⟩

theorem execCls_forgetsOnClose (h : execCls s = .next t) : ForgetsOnClose s t := by
  unfold execCls at h
  split at h
  · split at h
    · cases h; exact .finish (List.append_nil _).symm rfl
    · cases h; exact .scheduler s _
  · cases h

/-- A forced end emits the completion of the write it drops, and no frame (R356). -/
theorem forceIdle_forgetsOnClose (h : forceIdle s = .ok t) : ForgetsOnClose s t := by
  unfold forceIdle at h
  split at h
  · cases h
  cases h
  split
  · exact .finish (os := [.writeDone _ false]) rfl rfl
  · exact .finish (List.append_nil _).symm rfl

theorem execCpt_forgetsOnClose (h : execCpt s = .next t) : ForgetsOnClose s t := by
  unfold execCpt at h
  split at h
  · have h : closePoll s = .ok t := toOutcome_next.mp h
    unfold closePoll at h
    split at h
    · cases h; exact .finish (List.append_nil _).symm rfl
    dsimp only at h
    split at h
    · obtain ⟨hsilent, hcount⟩ := forceIdle_forgetsOnClose h
      exact ⟨hsilent, hcount⟩
    · cases h; exact .scheduler s _
  · cases h

end

/-- Settles O12: `Emits.txOutstanding` for every instruction but `TXC`, which takes one, and `CLS` and `CPT`,
which may forget all. -/
theorem outstandingFramesAreCounted : Obligations.OutstandingFramesAreCounted := by
  intro i s t h
  refine ⟨fun htxc hcls hcpt => ?counted, fun hi => ?completed, fun hi => ?closed⟩
  case counted =>
    by_cases hc : ∃ c, i = .cfg c
    · obtain ⟨c, rfl⟩ := hc
      exact execCfg_txOutstanding h
    · obtain ⟨os, ho⟩ := exec_emits h (not_exists.mp hc) htxc hcls hcpt
      exact ho.txOutstanding
  case completed =>
    subst hi
    exact ⟨execTxc_txOutstanding h, by rw [(execTxc_announces h).out, List.append_nil]⟩
  case closed =>
    have hf : ForgetsOnClose s t := by
      rcases hi with rfl | rfl
      · exact execCls_forgetsOnClose h
      · exact execCpt_forgetsOnClose h
    exact ⟨hf.filter_newOutputs, hf.count⟩

/-! ## Sizes and completion (R263, R264, R266) -/

/-- The three sizes of a request follow from its bytes (R263). -/
theorem blkmath_of_numBytes {bpe : Width} {count n : Nat} {mode : Mode}
    (h : (blkmath bpe count mode).numBytes = n) :
    blkmath bpe count mode = ⟨n, (blockCounts n).1, (blockCounts n).2⟩ := by
  subst h
  rfl

/-- Settles O39: the two operations answer by their definitions; the rest is division by 256. -/
theorem requestSizesAreComputed : Obligations.RequestSizesAreComputed := by
  rintro bpe count mode isFirst size s n hn b l hb hl
  have hcounts : blockCounts n = (b, l) := by
    unfold blockCounts Config.blockSize
    rw [hb, hl]
    split <;> rfl
  have hmath : blkmath bpe count mode = ⟨n, b, l⟩ := by
    have hbytes : (blkmath bpe count mode).numBytes = n := by cases mode <;> exact hn.symm
    rw [blkmath_of_numBytes hbytes, hcounts]
  refine ⟨?blkmath, fun hpos => ?exact, ?expect⟩
  case blkmath => rw [← hmath]; rfl
  case exact =>
    obtain ⟨hb1, hl1, hl2, hsum⟩ := blkmath_sizes hmath hpos
    exact ⟨hsum, hl1, hl2, by omega⟩
  case expect => cases mode <;> rfl

/-- The completion of the last frame arms the waiting timer. -/
theorem completeTx_last {s : State} {k : TimerId} (hn : s.ses.txOutstanding = 1) (hk : s.ses.armOnTxc = some k) :
    completeTx s =
      { s with ses := { s.ses with txOutstanding := 0, timer := .armed k, armOnTxc := none } } := by
  unfold completeTx
  simp only [hn, hk]

/-- A completion with frames still outstanding, or with no timer waiting, only counts. -/
theorem completeTx_counts {s : State} {n : Nat} (hn : s.ses.txOutstanding = n + 1)
    (h : n ≠ 0 ∨ s.ses.armOnTxc = none) :
    completeTx s = { s with ses := { s.ses with txOutstanding := n } } := by
  have hpred : s.ses.txOutstanding - 1 = n := by omega
  unfold completeTx
  dsimp only
  rw [hpred]
  split
  · rename_i k hk
    obtain hne | hnone := h
    · exact absurd rfl hne
    · rw [hnone] at hk; cases hk
  · rfl

/-- Settles O41: with a frame outstanding `TXC` is `completeTx`, in its two cases. -/
theorem completionArmsTheTimer : Obligations.CompletionArmsTheTimer := by
  intro s n hn
  have hexec : exec .txc s = .next (completeTx s) := if_neg (by omega)
  rw [hexec]
  refine ⟨fun h0 k hk => ?_, fun h => by rw [completeTx_counts hn h]⟩
  subst h0
  rw [completeTx_last hn hk]

/-! ## Reception that completes no phase (R268) -/

/-- Settles O43: each of these instructions is the reception of its bytes; then `receive_idle` and
`receive_short`. -/
theorem incompleteReceptionOnlyBuffers : Obligations.IncompleteReceptionOnlyBuffers := by
  intro s i chunk hi
  have hexec : exec i s = toOutcome (receive chunk s) := by
    rcases hi with rfl | ⟨a, rfl, rfl⟩ | ⟨h, k, rfl, rfl⟩ | ⟨h, k0, k1, rfl, rfl⟩ <;> rfl
  rw [hexec]
  refine ⟨fun hidle => by rw [receive_idle chunk hidle]; rfl, fun hne hlen => ?_⟩
  have hneed : needBytes s.ses =
      if s.ses.state = .waitReadEnqAck ∨ s.ses.state = .waitWriteEnqAck then 3
      else if s.ses.state = .waitReadDataBlock then s.ses.expectedByteCount else 1 := by
    unfold needBytes
    cases hst : s.ses.state with
    | idle => exact absurd hst hne
    | _ => rfl
  rw [receive_short hne (hneed ▸ hlen)]
  rfl

/-! ## Abort and the end of a session (R270, R271, R297, R314, R376) -/

section
variable {s t : State} {i : Instr} {k : AlertKey} {timeout : Bool} {r : Request} {o : SessionOutcome}

/-- R297 and R314 as a table. -/
theorem timeoutKey_of_mem {st : SState}
    (h : (st, k) ∈ [(SState.waitReadEnqAck, AlertKey.enqAckNotReceivedError),
      (.waitReadDataBlock, .readTimeoutError), (.waitReadEot, .readTimeoutError),
      (.waitWriteEnqAck, .enqAckNotReceivedError),
      (.waitWriteDataBlockAck, .writeTimeoutError), (.waitWriteEot, .writeTimeoutError)]) :
    timeoutKey st = some k := by
  simp only [List.mem_cons, Prod.mk.injEq, List.not_mem_nil, or_false] at h
  rcases h with ⟨rfl, rfl⟩ | ⟨rfl, rfl⟩ | ⟨rfl, rfl⟩ | ⟨rfl, rfl⟩ | ⟨rfl, rfl⟩ | ⟨rfl, rfl⟩ <;> rfl

/-- An exception taken in a session: by `ABORT` with a key of a session, or by `TMO` with the key of its
state. -/
theorem exec_takesAbort
    (hi : i = .abort k timeout ∧ k.inSession = true ∨ i = .tmo ∧ timeout = true ∧ (∃ x, s.ses.timer = .armed x) ∧
      (s.ses.state, k) ∈ [(SState.waitReadEnqAck, AlertKey.enqAckNotReceivedError),
        (.waitReadDataBlock, .readTimeoutError), (.waitReadEot, .readTimeoutError),
        (.waitWriteEnqAck, .enqAckNotReceivedError),
        (.waitWriteDataBlockAck, .writeTimeoutError), (.waitWriteEot, .writeTimeoutError)])
    (hs : s.ses.state ≠ .idle) (hq : s.ses.req = some r) :
    exec i s = toOutcome (endSession (failureOf r.dir timeout) (aborted k r s)) := by
  rw [← takeAbort_eq hq]
  obtain ⟨rfl, hk⟩ | ⟨rfl, rfl, ⟨x, hx⟩, hmem⟩ := hi
  · exact if_neg (by simp [hs, hk])
  · simp only [exec, execTmo, hx, timeoutKey_of_mem hmem]

theorem exec_finish (hs : s.ses.state ≠ .idle) : exec (.finish o) s = toOutcome (endSession o s) := if_neg hs

/-- The end of a read that answers has found the slot of its result (R337). -/
theorem exists_slot_of_endSession (h : endSession o s = .ok t) (ho : outcomeDir o = .read) :
    ∃ c, s.sch.cycle = some c ∧ c.cursor < c.results.length := by
  have hslot {v : Value} {u w : State} (hu : u.sch.cycle = s.sch.cycle) (hw : recordResult v u = .ok w) :
      ∃ c, s.sch.cycle = some c ∧ c.cursor < c.results.length := by
    unfold recordResult at hw
    split at hw
    · cases hw
    rename_i c hc
    split at hw
    · exact ⟨c, hu ▸ hc, ‹_›⟩
    · cases hw
  unfold endSession at h
  split at h
  · cases h
  cases o with
  | readOk v =>
    obtain ⟨w, hw, -⟩ := bind_ok.mp h
    exact hslot (by simp) hw
  | readFail b =>
    obtain ⟨w, hw, -⟩ := bind_ok.mp h
    exact hslot (by simp) hw
  | writeOk => cases ho
  | writeFail b => cases ho

/-- From `s` to `t` no sticky bit was lost. -/
def KeepsAlerts (s t : State) : Prop := ∀ n, s.raised.getLsbD n = true → t.raised.getLsbD n = true

theorem KeepsAlerts.of_eq (h : t.raised = s.raised) : KeepsAlerts s t := fun _ hn => h ▸ hn

theorem openSession_keepsAlerts {st : SState} {dir : Dir} {var : VarDescr} {xa : XAddr} {wire : Bytes}
    (h : openSession st dir var xa wire s = .ok t) : KeepsAlerts s t := by
  obtain ⟨-, -, -, -, rfl⟩ := openSession_cases h
  exact .of_eq rfl

theorem latchInvalid_keepsAlerts (var : VarDescr) (s : State) : KeepsAlerts s (latchInvalid var s) := by
  intro n hn
  show (setRaised s.raised _).getLsbD n = true
  rw [setRaised, BitVec.getLsbD_or, hn, Bool.true_or]

/-- A cycle that goes on skips, reads or is published: it raises alerts and clears none (R335 to R338). -/
theorem nextFrom_keepsAlerts : ∀ {l : List VarDescr} {s t : State}, nextFrom l s = .ok t → KeepsAlerts s t
  | [], s, t, h => by
    unfold nextFrom flush at h
    split at h
    · cases h
    · cases h; exact .of_eq rfl
  | v :: vs, s, t, h => by
    unfold nextFrom startReadVar at h
    by_cases hl : v.name ∈ s.sch.invalidLatched
    · rw [if_pos hl] at h
      exact nextFrom_keepsAlerts (s := advanceCursor s) h
    · rw [if_neg hl] at h
      cases hx : xltVar v with
      | none =>
        rw [hx] at h
        exact fun n hn =>
          nextFrom_keepsAlerts (s := advanceCursor (latchInvalid v s)) h n (latchInvalid_keepsAlerts v s n hn)
      | some xa =>
        rw [hx] at h
        simp only at h
        cases e : startRead v xa s with
        | error x => rw [e] at h; cases h
        | ok u => rw [e] at h; cases h; exact openSession_keepsAlerts e

theorem next_keepsAlerts (h : next s = .ok t) : KeepsAlerts s t := by
  unfold next at h
  split at h
  · cases h
  · exact nextFrom_keepsAlerts h

theorem startCycle_keepsAlerts (h : startCycle s = .ok t) : KeepsAlerts s t := by
  unfold startCycle at h
  exact fun n hn => next_keepsAlerts h n hn

/-- Whatever runs next leaves the alerts up (R342, R376). -/
theorem arbitrate_keepsAlerts (h : arbitrate s = .ok t) : KeepsAlerts s t := by
  unfold arbitrate at h
  split at h
  · cases h; exact .of_eq rfl
  split at h
  · unfold dispatchWrite at h
    split at h
    · cases h
    · obtain ⟨raw, -, h⟩ := bind_ok.mp h
      exact fun n hn => openSession_keepsAlerts h n hn
  split at h
  · exact fun n hn => next_keepsAlerts h n hn
  split at h
  · exact fun n hn => startCycle_keepsAlerts h n hn
  · cases h; exact .of_eq rfl

/-- A failure emits the completion of a write, and clears no alert (R343, R345). -/
theorem afterSession_failureOf (r : Request) (b : Bool) (s : State) :
    (afterSession r (failureOf r.dir b) s).raised = s.raised ∧
      (afterSession r (failureOf r.dir b) s).out =
        s.out ++ (if r.dir = .write then [.writeDone r.var.name false] else []) := by
  cases hd : r.dir with
  | read => exact ⟨rfl, (List.append_nil _).symm⟩
  | write => exact ⟨rfl, rfl⟩

theorem outcomeDir_failureOf (d : Dir) (b : Bool) : outcomeDir (failureOf d b) = d := by cases d <;> rfl

theorem aborted_raised (k : AlertKey) (r : Request) (s : State) :
    (aborted k r s).raised.getLsbD (alertCode k) = true := by
  show (s.raised ||| BitVec.twoPow 15 (alertCode k)).getLsbD (alertCode k) = true
  simp [alertCode_lt k]

/-- Nothing queued before the end of a session is nothing queued after it. -/
theorem afterSession_rest (h : s.sch.run = .closing ∨
    s.sch.pendingWrite = none ∧ s.sch.cycle = none ∧ s.sch.readPending = false) :
    arbitrate (afterSession r o s) = .ok (afterSession r o s) := by
  obtain ⟨hrun, hwrite, hread, -, hcycle, -, -, -⟩ := afterSession_kept r o s
  refine arbitrate_rest ?_
  rw [hrun, hwrite, hread]
  exact h.imp_right fun ⟨hp, hc, hr⟩ => ⟨hp, hcycle hc, hr⟩

end

/-- Settles O49: an exception is the failure of the session after `aborted`; whatever `ARBITRATE` then runs
only emits (`arbitrate_emits`) and clears no alert (`arbitrate_keepsAlerts`). -/
theorem abortsSendEotAndRaise : Obligations.AbortsSendEotAndRaise := by
  intro s i k timeout r hi hs hq
  have hexec := exec_takesAbort hi hs hq
  refine ⟨hexec.trans (exec_finish (s := aborted k r s) hs).symm, fun t ht => ?_⟩
  have hend : endSession (failureOf r.dir timeout) (aborted k r s) = .ok t := toOutcome_next.mp (hexec ▸ ht)
  have harb : arbitrate (afterSession r (failureOf r.dir timeout) (aborted k r s)) = .ok t :=
    (endSession_eq (s := aborted k r s) hq (exists_slot_of_endSession hend)).symm.trans hend
  obtain ⟨hraised, hout⟩ := afterSession_failureOf r timeout (aborted k r s)
  obtain ⟨more, hmore⟩ := arbitrate_emits harb
  exact ⟨arbitrate_keepsAlerts harb _ (hraised ▸ aborted_raised k r s), more, hmore.out.trans (by rw [hout]; rfl)⟩

/-- Settles O50: the same failure, with nothing left for `ARBITRATE` (`afterSession_rest`). -/
theorem abortedSessionsEndInIdle : Obligations.AbortedSessionsEndInIdle := by
  intro s i k timeout r hi hs hq hslot hrest
  have hread : outcomeDir (failureOf r.dir timeout) = .read →
      ∃ c, (aborted k r s).sch.cycle = some c ∧ c.cursor < c.results.length := fun h =>
    hslot ((outcomeDir_failureOf r.dir timeout).symm.trans h)
  rw [exec_takesAbort hi hs hq, endSession_eq (s := aborted k r s) hq hread,
    afterSession_rest (s := aborted k r s) hrest, toOutcome_ok]

/-- Settles O51: `DONE` leaves `afterSession`; then nothing runs, or the cycle that stands at its end is
published (`arbitrate_publish`). -/
theorem doneRecordsTheOutcome : Obligations.DoneRecordsTheOutcome := by
  intro s o r hs hq hslot
  rw [exec_finish hs, endSession_eq hq hslot]
  refine ⟨fun hrest => by rw [afterSession_rest hrest, toOutcome_ok], ?publish⟩
  intro c c' hrun hwrite hcycle hc' hend hlen
  obtain ⟨hrun', hwrite', -⟩ := afterSession_kept r o s
  have hcycle' : (afterSession r o s).sch.cycle = some c' := by
    cases o <;> simp [afterSession, hcycle, hc']
  rw [arbitrate_publish (hrun' ▸ hrun) (hwrite'.trans hwrite) hcycle' hend, toOutcome_ok]

end Sys2Proof.Machine

/-! PROOFS. The read sequence (`46_session_read.md`) and what it shares with the write sequence: session start,
the phase a reception completes, the good block, the end of a read, and the failures (O40, O44 to O46, O48). -/

namespace Sys2Proof.Machine

/-! ## Session start (R290, R310) -/

section
variable {st : SState} {dir : Dir} {var : VarDescr} {xa : XAddr} {wire : Bytes} {s : State}

theorem openSession_busy (h : s.ses.state ≠ .idle) : openSession st dir var xa wire s = .error (refuse .busy) :=
  if_pos h

theorem openSession_badLength (hs : s.ses.state = .idle)
    (h : (blkmath xa.bpe var.elementCount s.cfg.mode).numBytes = 0 ∨
      s.par.accMax < (blkmath xa.bpe var.elementCount s.cfg.mode).numBytes) :
    openSession st dir var xa wire s = .error (refuse .badLength) :=
  (if_neg (not_not.mpr hs)).trans (if_pos h)

end

/-- Settles O40: `SRD` and `SWR` are `openSession` in their direction, which starts the session, is busy or
refuses the size. -/
theorem sessionsStartWithAnEnquiry : Obligations.SessionsStartWithAnEnquiry := by
  rintro var xa raw s n rfl
  have hsrd : exec (.srd var xa) s = toOutcome (openSession .waitReadEnqAck .read var xa [] s) := rfl
  have hswr : exec (.swr var xa raw) s =
      toOutcome (openSession .waitWriteEnqAck .write var xa (paye raw s.cfg.mode) s) := rfl
  rw [hsrd, hswr]
  refine ⟨fun hidle hpos hmax hst => ?start, fun hbusy => ?busy, fun hidle hsize => ?size⟩
  case start => simp only [openSession_ok hidle hpos hmax hst, toOutcome_ok, and_self]
  case busy => simp only [openSession_busy hbusy, toOutcome_refuse, and_self]
  case size => simp only [openSession_badLength hidle hsize, toOutcome_refuse, and_self]

/-! ## The phase a reception completes (R268) -/

section
variable {s : State} {chunk rest : Bytes} {u0 u1 x : Byte}

theorem receive_waitReadEnqAck (h : s.ses.state = .waitReadEnqAck)
    (hrx : s.ses.rx ++ chunk = u0 :: u1 :: x :: rest) :
    receive chunk s = phaseReadEnqAck (received chunk s) := by
  have hstate : (received chunk s).ses.state = .waitReadEnqAck := h
  rw [receive_phase (by simp [h]) (by simp [needBytes, h, hrx]), runPhase, hstate]

theorem receive_waitReadDataBlock (h : s.ses.state = .waitReadDataBlock)
    (hl : s.ses.expectedByteCount ≤ (s.ses.rx ++ chunk).length) :
    receive chunk s = phaseReadBlock (received chunk s) := by
  have hstate : (received chunk s).ses.state = .waitReadDataBlock := h
  rw [receive_phase (by simp [h]) (by simpa [needBytes, h] using hl), runPhase, hstate]

theorem receive_waitReadEot (h : s.ses.state = .waitReadEot) (hrx : s.ses.rx ++ chunk = x :: rest) :
    receive chunk s = phaseReadEot (received chunk s) := by
  have hstate : (received chunk s).ses.state = .waitReadEot := h
  rw [receive_phase (by simp [h]) (by simp [needBytes, h, hrx]), runPhase, hstate]

theorem receive_waitWriteEnqAck (h : s.ses.state = .waitWriteEnqAck)
    (hrx : s.ses.rx ++ chunk = u0 :: u1 :: x :: rest) :
    receive chunk s = phaseWriteEnqAck (received chunk s) := by
  have hstate : (received chunk s).ses.state = .waitWriteEnqAck := h
  rw [receive_phase (by simp [h]) (by simp [needBytes, h, hrx]), runPhase, hstate]

theorem receive_waitWriteDataBlockAck (h : s.ses.state = .waitWriteDataBlockAck)
    (hrx : s.ses.rx ++ chunk = x :: rest) : receive chunk s = phaseWriteAck (received chunk s) := by
  have hstate : (received chunk s).ses.state = .waitWriteDataBlockAck := h
  rw [receive_phase (by simp [h]) (by simp [needBytes, h, hrx]), runPhase, hstate]

theorem receive_waitWriteEot (h : s.ses.state = .waitWriteEot) (hrx : s.ses.rx ++ chunk = x :: rest) :
    receive chunk s = phaseWriteEot (received chunk s) := by
  have hstate : (received chunk s).ses.state = .waitWriteEot := h
  rw [receive_phase (by simp [h]) (by simp [needBytes, h, hrx]), runPhase, hstate]

end

/-! The verdicts on the one byte that R232, R233 and R235 look at. -/

section
variable {rx rest : Bytes} {u0 u1 x : Byte}

theorem prsEnqAck_of_eq_cons (h : rx = u0 :: u1 :: x :: rest) :
    prsEnqAck rx = .ok (if x = 0x06 then .ok () else .fail .enqAckMissing) := by
  rw [h, prsEnqAck, if_neg (by simp), apply_ite Except.ok]
  rfl

theorem prsAck_of_eq_cons (h : rx = x :: rest) :
    prsAck rx = .ok (if x = 0x06 then .ok () else .fail .ackMissing) := by
  rw [h, prsAck, if_neg (by simp), apply_ite Except.ok]
  rfl

theorem prsEot_of_eq_cons (h : rx = x :: rest) :
    prsEot rx = .ok (if x = 0x04 then .ok () else .fail .eotMissing) := by
  rw [h, prsEot, if_neg (by simp), apply_ite Except.ok]
  rfl

end

/-! ## The enquiry response (R291, R311) -/

theorem checkLen_eq_ite (mode : Mode) : checkLen mode = if mode = .hex then 1 else 2 := by cases mode <;> rfl

theorem sessionHeader_of_countsFit {s : State} {r : Request} (h : countsFit s.par.hdrCountRule r.numBytes) :
    sessionHeader r s = .ok (headerFrame s.par.hdrCountRule s.cfg.station r.dir r.var.memoryType r.xa.ref
      r.numBytes s.cfg.mode) := by
  unfold sessionHeader
  rw [bldHdr_of_countsFit _ _ _ _ h, unit_ok]

/-- Settles O44: with ACK as third byte the phase's parser accepts, and the Header of a request whose counts fit
is built. -/
theorem enquiryResponseSendsTheHeader : Obligations.EnquiryResponseSendsTheHeader := by
  intro s i chunk u0 u1 rest r hdr hi hrx hq hfit
  have hexec : exec i s = toOutcome (receive chunk s) := by
    obtain rfl | ⟨a, b, rfl, rfl⟩ := hi <;> rfl
  have hack : prsEnqAck (received chunk s).ses.rx = .ok (.ok ()) := prsEnqAck_of_eq_cons hrx
  refine ⟨fun hs hhdr => ?read, fun hs hhdr => ?write⟩
  case read =>
    have hheader : sessionHeader { r with dir := .read } (received chunk s) = .ok hdr :=
      hhdr ▸ sessionHeader_of_countsFit (r := { r with dir := .read }) hfit
    rw [hexec, receive_waitReadEnqAck hs hrx, phaseReadEnqAck_ok (s := received chunk s) hq hack hheader,
      ← checkLen_eq_ite]
    rfl
  case write =>
    have hheader : sessionHeader { r with dir := .write } (received chunk s) = .ok hdr :=
      hhdr ▸ sessionHeader_of_countsFit (r := { r with dir := .write }) hfit
    rw [hexec, receive_waitWriteEnqAck hs hrx,
      phaseWriteEnqAck_ok (s := received chunk s) hq hack hheader]
    rfl

/-! ## Good blocks (R292, R100) -/

section
variable {p : Config.Params} {rx : Bytes} {isFirst isFinal : Bool} {size i : Nat} {mode : Mode}

theorem fieldCarries_append (h : i + checkLen mode ≤ rx.length) (rest : Bytes) (c : Byte) :
    fieldCarries (rx ++ rest) i c mode = fieldCarries rx i c mode := by
  cases mode with
  | hex =>
    have h0 : i < rx.length := h
    simp only [fieldCarries, List.getElem?_append_left h0]
  | ascii =>
    have h1 : i + 1 < rx.length := h
    simp only [fieldCarries, List.getElem?_append_left h1, List.getElem?_append_left (Nat.lt_of_succ_lt h1)]

/-- The verdict on a data block rests on the bytes R264 counts, not on what was received after them. -/
theorem prsDb_append (hecho : p.echo = .passes) (hlen : expect isFirst size mode ≤ rx.length) (rest : Bytes) :
    prsDb p (rx ++ rest) isFirst isFinal size mode = prsDb p rx isFirst isFinal size mode := by
  obtain ⟨o, ho⟩ : ∃ o, o = if isFirst then 1 else 0 := ⟨_, rfl⟩
  obtain ⟨t, ht⟩ : ∃ t, t = o + 1 + size := ⟨_, rfl⟩
  have hend : t + 1 + checkLen mode ≤ rx.length := by rw [expect, ← ho] at hlen; omega
  have hbyte {j : Nat} (hj : j ≤ t) : (rx ++ rest)[j]? = rx[j]? := List.getElem?_append_left (by omega)
  have hrange {n : Nat} (hn : n ≤ size + 1) :
      ((rx ++ rest).drop (o + 1)).take n = (rx.drop (o + 1)).take n := by
    rw [List.drop_append_of_le_length (by omega), List.take_append_of_le_length (by rw [List.length_drop]; omega)]
  have hnoEcho : ¬ p.echo = .uninterpreted := by rw [hecho]; decide
  rw [prsDb_of_length ho ht hlen,
    prsDb_of_length ho ht (hlen.trans (by rw [List.length_append]; exact Nat.le_add_right ..))]
  unfold blockVerdict
  rw [hbyte (Nat.zero_le t), hbyte (by omega : o ≤ t), hbyte le_rfl, hrange le_rfl, hrange (Nat.le_succ size),
    fieldCarries_append hend]
  simp only [hnoEcho, false_and, if_false]

theorem blockLead_blockFrame_length (chunk : Bytes) (isFirst isFinal : Bool) (mode : Mode) :
    (blockLead isFirst ++ blockFrame chunk isFinal mode).length = expect isFirst chunk.length mode := by
  have hlead : (blockLead isFirst).length = if isFirst then 1 else 0 := by cases isFirst <;> rfl
  simp only [blockFrame, List.length_append, List.length_singleton, checkField_length, hlead, expect]
  omega

end

/-- Settles O45: what was received starts with a block's frame (`prsDb_blockFrame`, `prsDb_append`), so the
phase accepts it. -/
theorem goodBlocksAreAppendedAndAcknowledged : Obligations.GoodBlocksAreAppendedAndAcknowledged := by
  rintro s i chunk payload check rest done u hi hecho hs rfl hsize hcount rfl hrx rfl
  have hexec : exec i s = toOutcome (receive chunk s) := by
    obtain rfl | ⟨p, t, k, rfl, rfl⟩ | ⟨p, t, k0, k1, rfl, rfl⟩ | ⟨p, t, k, rfl, rfl⟩ := hi <;> rfl
  obtain ⟨frame, hframe⟩ : ∃ frame, frame = blockLead (decide (s.ses.blocksDone = 0)) ++
      blockFrame payload (isFinalBlock s.ses s.ses.blocksDone) s.cfg.mode := ⟨_, rfl⟩
  have hreceived : s.ses.rx ++ chunk = frame ++ rest := by
    simp only [hrx, hframe, blockLead, blockFrame, isFinalBlock, decide_eq_true_eq, List.append_assoc]
  have hexpect : s.ses.expectedByteCount = frame.length := by
    rw [hframe, blockLead_blockFrame_length, hcount, expect, checkLen_eq_ite]
    simp only [decide_eq_true_eq]
  have hverdict : prsDb s.par (s.ses.rx ++ chunk) (decide (s.ses.blocksDone = 0))
      (isFinalBlock s.ses s.ses.blocksDone) (blockSizeOf s.ses s.ses.blocksDone) s.cfg.mode =
        .ok (.ok payload) := by
    have hblock : blockSizeOf s.ses s.ses.blocksDone = payload.length := hsize.symm
    rw [hblock, hreceived, prsDb_append hecho (by rw [hframe, blockLead_blockFrame_length]), hframe,
      prsDb_blockFrame hecho]
  have hlen : s.ses.expectedByteCount ≤ (s.ses.rx ++ chunk).length := by
    rw [hreceived, hexpect, List.length_append]
    exact Nat.le_add_right ..
  rw [hexec, receive_waitReadDataBlock hs hlen, phaseReadBlock_ok hverdict, toOutcome_ok]
  refine ⟨fun hmore => ?more, fun hlast => ?last⟩
  case more =>
    rw [acceptBlock_more (s := received chunk s) hmore, ← checkLen_eq_ite, expect, if_neg Bool.false_ne_true,
      Nat.zero_add]
    rfl
  case last =>
    rw [acceptBlock_last (s := received chunk s) hlast]
    rfl

/-! ## The end of a session forgets what was received (R271) -/

theorem endSession_received (o : SessionOutcome) (chunk : Bytes) (s : State) :
    endSession o (received chunk s) = endSession o s := rfl

theorem takeAbort_received {s : State} {chunk : Bytes} {r : Request} {k : AlertKey} {timeout : Bool}
    (hq : s.ses.req = some r) : takeAbort k timeout (received chunk s) = takeAbort k timeout s := by
  rw [takeAbort_eq hq, takeAbort_eq (s := received chunk s) hq]
  exact endSession_received (failureOf r.dir timeout) chunk (aborted k r s)

/-- Settles O46: the EOT is answered and the payload decoded; what then ends is the session with one frame more
outstanding, and `doneRecordsTheOutcome` says when the cycle is published. -/
theorem eotEndsTheRead : Obligations.EotEndsTheRead := by
  rintro s i chunk rest r u hi hs hq hrx rfl
  have heot : prsEot (received chunk s).ses.rx = .ok (.ok ()) := prsEot_of_eq_cons hrx
  have hexec : exec i s = toOutcome (decodeRead r (received chunk (send bldEot s))) := by
    have hreceive : exec i s = toOutcome (receive chunk s) := by obtain rfl | ⟨rfl, rfl⟩ := hi <;> rfl
    rw [hreceive, receive_waitReadEot hs hrx, phaseReadEot_ok (s := received chunk s) hq heot]
    rfl
  have hactive : (send bldEot s).ses.state ≠ .idle := by rw [send_state, hs]; decide
  refine ⟨fun raw v hraw hv => ?decoded, fun hnone => ?notHex⟩
  case decoded =>
    have hdone : exec i s = exec (.finish (.readOk v)) (send bldEot s) := by
      rw [hexec, decodeRead_ok (s := received chunk (send bldEot s)) hraw hv, endSession_received,
        exec_finish hactive]
    refine ⟨hdone, fun c hrun hwrite hcycle hcursor hresults => hdone.trans ?_⟩
    have hslot : ∃ c, (send bldEot s).sch.cycle = some c ∧ c.cursor < c.results.length :=
      ⟨c, hcycle, by omega⟩
    have hrunning : (send bldEot s).sch.run ≠ .closing := by rw [send_sch, hrun]; decide
    exact (doneRecordsTheOutcome (send bldEot s) (.readOk v) r hactive hq fun _ => hslot).2 c (stored v c)
      hrunning hwrite hcycle rfl hcursor (List.length_set.trans hresults)
  case notHex =>
    rw [hexec, decodeRead_notHex (s := received chunk (send bldEot s)) hnone]
    exact (exec_finish (s := raiseAlert .payloadFormatError r.var.name (send bldEot s)) hactive).symm

/-! ## Wrong bytes (R230) -/

/-- A reception whose phase fails is `ABORT` with the phase's key (R270). -/
theorem exec_rxb_eq_abort {s : State} {chunk : Bytes} {r : Request} {key : AlertKey} (hs : s.ses.state ≠ .idle)
    (hq : s.ses.req = some r) (hkey : key.inSession = true)
    (h : receive chunk s = takeAbort key false (received chunk s)) :
    exec (.rxb chunk) s = exec (.abort key false) s := by
  have hrxb : exec (.rxb chunk) s = toOutcome (receive chunk s) := rfl
  have habort : exec (.abort key false) s = toOutcome (takeAbort key false s) := if_neg (by simp [hs, hkey])
  rw [hrxb, habort, h, takeAbort_received hq]

/-- The alerts of a failed data block, as R292 lists them. -/
theorem failKey_of_mem {k : FailKind} {key : AlertKey}
    (h : (k, key) ∈ [(FailKind.ackMissing, AlertKey.ackNotReceivedError),
      (.stxMissing, .stxNotReceivedError), (.echoMismatch, .echoError),
      (.terminatorMissing, .terminatorNotReceivedError), (.checksumMismatch, .checksumError)]) :
    failKey k = key ∧ key.inSession = true := by
  simp only [List.mem_cons, Prod.mk.injEq, List.not_mem_nil, or_false] at h
  obtain ⟨rfl, rfl⟩ | ⟨rfl, rfl⟩ | ⟨rfl, rfl⟩ | ⟨rfl, rfl⟩ | ⟨rfl, rfl⟩ := h <;> exact ⟨rfl, rfl⟩

/-- Settles O48: each phase's parser fails on the wrong byte, and a failed phase is `ABORT` with its key
(`exec_rxb_eq_abort`). -/
theorem wrongBytesAbortTheSession : Obligations.WrongBytesAbortTheSession := by
  intro s chunk r hq
  refine ⟨fun hs u0 u1 x rest hrx hx => ?enquiry, fun hs hlen k key hverdict hmem => ?block,
    fun hs x rest hrx hx => ?eot, fun hs x rest hrx hx => ?ack⟩
  case enquiry =>
    have hfail : prsEnqAck (received chunk s).ses.rx = .ok (.fail .enqAckMissing) :=
      (prsEnqAck_of_eq_cons hrx).trans (congrArg Except.ok (if_neg hx))
    obtain hs | hs := hs
    · exact exec_rxb_eq_abort (hs.trans_ne (by decide)) hq rfl
        ((receive_waitReadEnqAck hs hrx).trans (phaseReadEnqAck_fail hq hfail))
    · exact exec_rxb_eq_abort (hs.trans_ne (by decide)) hq rfl
        ((receive_waitWriteEnqAck hs hrx).trans (phaseWriteEnqAck_fail hq hfail))
  case block =>
    obtain ⟨rfl, hkey⟩ := failKey_of_mem hmem
    exact exec_rxb_eq_abort (hs.trans_ne (by decide)) hq hkey
      ((receive_waitReadDataBlock hs hlen).trans (phaseReadBlock_fail hverdict))
  case eot =>
    have hfail : prsEot (received chunk s).ses.rx = .ok (.fail .eotMissing) :=
      (prsEot_of_eq_cons hrx).trans (congrArg Except.ok (if_neg hx))
    exact exec_rxb_eq_abort (hs.trans_ne (by decide)) hq rfl
      ((receive_waitReadEot hs hrx).trans (phaseReadEot_fail hq hfail))
  case ack =>
    have hfail : prsAck (received chunk s).ses.rx = .ok (.fail .ackMissing) :=
      (prsAck_of_eq_cons hrx).trans (congrArg Except.ok (if_neg hx))
    obtain hs | hs := hs
    · exact exec_rxb_eq_abort (hs.trans_ne (by decide)) hq rfl
        ((receive_waitWriteDataBlockAck hs hrx).trans (phaseWriteAck_fail hq hfail))
    · exact exec_rxb_eq_abort (hs.trans_ne (by decide)) hq rfl
        ((receive_waitWriteEot hs hrx).trans (phaseWriteEot_fail hfail))

end Sys2Proof.Machine

/-! PROOFS. The write sequence (`47_session_write.md`): what an ACK does in the write states (O47). -/

namespace Sys2Proof.Machine

/-! ## The next block (R208, R312) -/

/-- The payload of the block at `i`, as R312 cuts it out of the request. -/
theorem split_fst_eq_take_drop (wire : Bytes) (numBytes blocksRequired i : Nat) :
    (split wire numBytes blocksRequired i).1 =
      (wire.drop (256 * i)).take (min (256 * (i + 1)) numBytes - 256 * i) := rfl

theorem split_snd (wire : Bytes) (numBytes blocksRequired i : Nat) :
    (split wire numBytes blocksRequired i).2 = decide (i + 1 = blocksRequired) := rfl

theorem split_length_le (wire : Bytes) (numBytes blocksRequired i : Nat) :
    (split wire numBytes blocksRequired i).1.length ≤ 256 := by
  rw [split_fst_eq_take_drop]
  have hcut := List.length_take_le (min (256 * (i + 1)) numBytes - 256 * i) (wire.drop (256 * i))
  omega

/-- A block that is not empty has a size `BLD.DB` frames (R205). -/
theorem bldDb_split {wire : Bytes} {numBytes blocksRequired i : Nat} (mode : Mode)
    (h : 1 ≤ (split wire numBytes blocksRequired i).1.length) :
    bldDb (split wire numBytes blocksRequired i).1 (split wire numBytes blocksRequired i).2 mode =
      .ok (blockFrame (split wire numBytes blocksRequired i).1 (decide (i + 1 = blocksRequired)) mode) := by
  have hmax := split_length_le wire numBytes blocksRequired i
  rw [bldDb_of_size (by omega), split_snd]

/-! ## ACK (R312, R313) -/

/-- Settles O47: the parser accepts the ACK, a block that remains has a frame (`bldDb_split`), and the ACK of
the EOT is `DONE` with what was received forgotten (`endSession_received`). -/
theorem acksDriveTheWrite : Obligations.AcksDriveTheWrite := by
  intro s i chunk rest r hi hq hrx
  have hexec : exec i s = toOutcome (receive chunk s) := by obtain rfl | ⟨rfl, rfl⟩ := hi <;> rfl
  have hack : prsAck (received chunk s).ses.rx = .ok (.ok ()) := prsAck_of_eq_cons hrx
  refine ⟨fun hs hmore block hblock hpos => ?block, fun hs hdone => ?eot, fun hs => ?done⟩
  case block =>
    obtain rfl : block = (split r.wire r.numBytes s.ses.blocksRequired s.ses.blocksDone).1 :=
      hblock.trans (split_fst_eq_take_drop ..).symm
    have hframe := bldDb_split s.cfg.mode hpos
    rw [hexec, receive_waitWriteDataBlockAck hs hrx,
      phaseWriteAck_block (s := received chunk s) hq hack hmore hframe]
    rfl
  case eot =>
    rw [hexec, receive_waitWriteDataBlockAck hs hrx, phaseWriteAck_eot (s := received chunk s) hq hack hdone]
    rfl
  case done =>
    have hactive : s.ses.state ≠ .idle := hs.trans_ne (by decide)
    rw [hexec, receive_waitWriteEot hs hrx, phaseWriteEot_ok (s := received chunk s) hack, endSession_received,
      exec_finish hactive]

end Sys2Proof.Machine

/-! PROOFS. The scheduler (`48_scheduler.md`): configuration, the read cycle, write requests, the debounce, the
close, what runs next, and the count of open writes (O13, O14, O16, O52 to O60). -/

namespace Sys2Proof.Machine

/-! ## Configuration (R332) -/

section
variable {s t : State} {c : Cfg}

/-- The state with a configuration loaded: the latches emptied, the alerts of class Config cleared, the engine
Running. -/
def configured (c : Cfg) (s : State) : State :=
  { s with
    cfg := c
    sch := { s.sch with invalidLatched := [], run := .running }
    raised := s.raised &&& ~~~(bitsOf configClass)
    out := s.out ++ clearsOf configClass s.raised }

theorem loadCfg_eq_configured (c : Cfg) (s : State) : loadCfg c s = configured c s := by
  unfold loadCfg
  dsimp only
  rw [clearAlerts_eq _ _ (by decide)]
  rfl

/-- A `CFG` that answers has loaded its operand. -/
theorem eq_configured_of_execCfg (h : execCfg c s = .next t) : t = configured c s := by
  unfold execCfg at h
  split at h
  · cases h
  split at h
  · cases h
  split at h
  · cases h; exact loadCfg_eq_configured c s
  · cases h

theorem execCfg_closed (h : s.sch.run = .closed) : execCfg c s = .refused (.refuse .closed) := if_pos h

/-- Where `CFG` is enabled, the check decides. -/
theorem execCfg_enabled (hr : s.sch.run = .unconfigured ∨ s.sch.run = .running) (hi : s.ses.state = .idle) :
    execCfg c s =
      if cfgOk s.par c then .next (configured c s) else .refused (.refuse .configInvalid) := by
  unfold execCfg
  rw [if_neg (by rcases hr with e | e <;> simp [e]), if_neg (by rcases hr with e | e <;> simp [e, hi]),
    loadCfg_eq_configured]

end

/-- Settles O53: the check is R332's (`cfgOk_iff`), and the class Config has the bits 7, 8 and 14. -/
theorem acceptedConfigurationsAreLoaded : Obligations.AcceptedConfigurationsAreLoaded := by
  intro s c
  refine ⟨fun hr hi => ?enabled, execCfg_closed⟩
  case enabled =>
    have hexec : exec (.cfg c) s =
        if cfgOk s.par c then .next (configured c s) else .refused (.refuse .configInvalid) :=
      execCfg_enabled hr hi
    refine ⟨fun hc => ?_, fun hc => ?_⟩
    · have hbits : bitsOf configClass = 0x4180#15 := by decide
      rw [hexec, if_pos ((cfgOk_iff _ _).mpr hc), configured, hbits]
      rfl
    · rw [hexec, if_neg (mt (cfgOk_iff _ _).mp hc)]

/-! ## The read cycle (R334 to R338) -/

section
variable {s : State} {pre post : List VarDescr} {v : VarDescr} {xa : XAddr}

/-- The first variable is read when its address translates and no latch skips it (R336). -/
theorem nextFrom_readable (hv : v.name ∉ s.sch.invalidLatched) (hx : xltVar v = some xa) :
    nextFrom (v :: post) s = startRead v xa s := by
  unfold nextFrom startReadVar
  simp only [if_neg hv, hx]
  cases startRead v xa s <;> rfl

/-- A latched variable is skipped (R336). -/
theorem nextFrom_latched (hv : v.name ∈ s.sch.invalidLatched) :
    nextFrom (v :: post) s = nextFrom post (advanceCursor s) := by
  rw [nextFrom, startReadVar, if_pos hv]

/-- A variable whose address does not translate is latched and skipped (R336). -/
theorem nextFrom_invalid (hv : v.name ∉ s.sch.invalidLatched) (hx : xltVar v = none) :
    nextFrom (v :: post) s = nextFrom post (advanceCursor (latchInvalid v s)) := by
  rw [nextFrom, startReadVar, if_neg hv, hx]

/-- Skipping other variables does not latch a name. -/
theorem not_mem_skipped_latched (hn : ((pre ++ [v]).map VarDescr.name).Nodup)
    (hv : v.name ∉ s.sch.invalidLatched) : v.name ∉ (skipped pre s).sch.invalidLatched := by
  have hpre : v.name ∉ pre.map VarDescr.name := by
    rw [List.map_append, List.nodup_append] at hn
    obtain ⟨-, -, hdisjoint⟩ := hn
    exact fun h => hdisjoint _ h _ List.mem_cons_self rfl
  intro h
  rcases List.mem_append.mp h with h | h
  · exact hv h
  · exact hpre ((List.filter_sublist.map _).mem h)

/-- The cycle skips what cannot be read and starts the read of the first variable that can (R335, R336). -/
theorem nextFrom_first_readable (hn : ((pre ++ [v]).map VarDescr.name).Nodup)
    (hpre : ∀ u ∈ pre, u.name ∈ s.sch.invalidLatched ∨ xltVar u = none)
    (hv : v.name ∉ s.sch.invalidLatched) (hx : xltVar v = some xa) :
    nextFrom (pre ++ v :: post) s = startRead v xa { skipped pre s with
      sch := { (skipped pre s).sch with
        cycle := s.sch.cycle.map fun c => { c with cursor := c.cursor + pre.length } } } := by
  have hnodup : (pre.map VarDescr.name).Nodup := hn.sublist ((List.sublist_append_left pre [v]).map _)
  rw [nextFrom_skip _ _ _ hnodup hpre]
  exact nextFrom_readable (not_mem_skipped_latched hn hv) hx

/-- A cycle of which no variable can be read is published (R335, R336, R338). -/
theorem nextFrom_none_readable {c : ReadCycle} (hn : (pre.map VarDescr.name).Nodup)
    (hpre : ∀ u ∈ pre, u.name ∈ s.sch.invalidLatched ∨ xltVar u = none) (hc : s.sch.cycle = some c) :
    nextFrom pre s = .ok { skipped pre s with
      sch := { (skipped pre s).sch with cycle := none }
      out := (skipped pre s).out ++ List.zipWith (fun x y => Output.report x.name y) c.list c.results } := by
  have h := nextFrom_skip pre [] s hn hpre
  rw [List.append_nil] at h
  rw [h, hc]
  rfl

/-- The scheduler with a new cycle: every read variable, no result yet (R334). -/
def cycleBegun (s : State) : State :=
  { s with sch := { s.sch with
      cycle := some ⟨pollList s.cfg, List.replicate (pollList s.cfg).length .null, 0⟩ } }

theorem startCycle_eq (s : State) : startCycle s = nextFrom (pollList s.cfg) (cycleBegun s) := rfl

theorem exec_poll (h : s.sch.run = .running) : exec .poll s = toOutcome (pollTick s) := if_pos h

theorem exec_poll_idle (h : s.sch.run = .running) (hi : s.ses.state = .idle) :
    exec .poll s = toOutcome (startCycle s) := by
  rw [exec_poll h, pollTick, if_pos hi]

end

/-- Settles O54: the new cycle at its first readable variable (`nextFrom_first_readable`), whose session starts
(`openSession_ok`). -/
theorem pollReadsTheFirstReadableVariable : Obligations.PollReadsTheFirstReadableVariable := by
  intro s pre post v xa hr hi hlist hn hpre hv hx hpos hmax hst
  rw [exec_poll_idle hr hi, startCycle_eq, cycleBegun, hlist,
    nextFrom_first_readable hn (by exact hpre) (by exact hv) hx, startRead,
    openSession_ok (by exact hi) (by exact hpos) (by exact hmax) (by exact hst), toOutcome_ok]
  simp only [Option.map_some, Nat.zero_add]
  rfl

/-- Settles O55: the new cycle with nothing readable is published (`nextFrom_none_readable`) with the null it
began with in every slot. -/
theorem pollOfNothingReadableReportsNulls : Obligations.PollOfNothingReadableReportsNulls := by
  intro s hr hi hn hpre
  have hnulls : ∀ l : List VarDescr,
      List.zipWith (fun x y => Output.report x.name y) l (List.replicate l.length .null) =
        l.map fun u => Output.report u.name .null := by
    intro l
    induction l with
    | nil => rfl
    | cons v vs ih => simp only [List.length_cons, List.replicate_succ, List.zipWith_cons_cons, ih, List.map_cons]
  rw [exec_poll_idle hr hi, startCycle_eq, nextFrom_none_readable hn (by exact hpre) rfl, toOutcome_ok, hnulls]
  rfl

/-- Settles O56: in a session the direction of its request decides. -/
theorem pollDuringASessionIsDeferredOrLost : Obligations.PollDuringASessionIsDeferredOrLost := by
  intro s r hr hs hq
  rw [exec_poll hr, pollTick, if_neg hs, hq]
  refine ⟨fun hd => ?_, fun hd => ?_⟩
  · simp only [hd, toOutcome_ok]
  · simp only [hd, toOutcome_ok]

/-! ## Write requests (R340, R341) -/

section
variable {s : State} {name : VarName} {value : Value} {var : VarDescr} {xa : XAddr} {raw : Bytes}

theorem writeRequest_notRunning (h : s.sch.run ≠ .running) :
    writeRequest name value s = .error (refuse .notRunning) := if_pos h

/-- The checks on a variable that is configured, in their order. -/
theorem writeRequest_found (hr : s.sch.run = .running)
    (hf : s.cfg.vars.find? (fun v => v.name = name) = some var) :
    writeRequest name value s =
      if var.access ≠ .write then .error (refuse .notWritable)
      else if var.bitIndex.isSome then .error (refuse .bitWriteUnsupported)
      else acceptWrite var value s := by
  unfold writeRequest findVar
  rw [if_neg (not_not.mpr hr), hf]

theorem writeRequest_unknown (hr : s.sch.run = .running)
    (hf : ∀ v ∈ s.cfg.vars, v.name ≠ name) :
    writeRequest name value s = .error (refuse .unknownVariable) := by
  have hnone : findVar s.cfg name = none := List.find?_eq_none.mpr fun v hv => by simpa using hf v hv
  unfold writeRequest
  rw [if_neg (not_not.mpr hr), hnone]

theorem writeRequest_writable (hr : s.sch.run = .running)
    (hf : s.cfg.vars.find? (fun v => v.name = name) = some var) (ha : var.access = .write)
    (hb : var.bitIndex = none) : writeRequest name value s = acceptWrite var value s := by
  rw [writeRequest_found hr hf, if_neg (not_not.mpr ha), hb]
  rfl

theorem acceptWrite_badValue {e : Reason} (hx : xltVar var = some xa)
    (he : enca s.par var.format value xa.bpe var.isArray var.length = .error e) :
    acceptWrite var value s = .error (refuse e) := by
  unfold acceptWrite
  simp only [hx, he]
  rfl

/-- A value that encodes goes to a session, into the empty slot, or is refused. -/
theorem acceptWrite_encoded (hx : xltVar var = some xa)
    (he : enca s.par var.format value xa.bpe var.isArray var.length = .ok raw) :
    acceptWrite var value s =
      if s.ses.state = .idle then startWrite var xa raw s
      else if s.sch.pendingWrite.isSome then .error (refuse .busy)
      else .ok { s with sch := { s.sch with pendingWrite := some ⟨var, value⟩ } } := by
  unfold acceptWrite dispatchWrite
  simp only [hx, he]
  cases s.sch.pendingWrite <;> rfl

theorem dispatchWrite_encoded (hx : xltVar var = some xa)
    (he : enca s.par var.format value xa.bpe var.isArray var.length = .ok raw) :
    dispatchWrite var value s = startWrite var xa raw s := by
  unfold dispatchWrite
  simp only [hx, he]
  rfl

/-- A write to an invalid address: the variable is skipped as a read skips it, and the write reported as not
done. -/
theorem writeInvalid_eq (var : VarDescr) (s : State) :
    writeInvalid var s = emit (.writeDone var.name false) (skipped [var] s) := by
  have hkey : addressAlert var.memoryType = invalidKey var.memoryType := by cases var.memoryType <;> rfl
  unfold writeInvalid
  by_cases hl : var.name ∈ s.sch.invalidLatched
  · simp [hl, skipped, skipAlerts]
  · simp [hl, skipped, skipAlerts, latchInvalid, raiseAlert, emit, sinkStep, setRaised, hkey]

theorem acceptWrite_invalid (hx : xltVar var = none) :
    acceptWrite var value s = .ok (emit (.writeDone var.name false) (skipped [var] s)) := by
  unfold acceptWrite
  simp only [hx, writeInvalid_eq]

end

/-- Settles O57: the branches of `writeRequest` and `acceptWrite` that refuse. -/
theorem writeRequestsAreCheckedInOrder : Obligations.WriteRequestsAreCheckedInOrder := by
  intro s name value
  have hexec : exec (.wrq name value) s = toOutcome (writeRequest name value s) := rfl
  rw [hexec]
  refine ⟨fun hr => ?stopped, fun hr => ⟨fun hf => ?unknown, fun var hf => ⟨fun ha => ?read, fun ha hb => ?bit,
    fun ha hb xa hx => ⟨fun e he => ?value, fun raw he hs hp => ?busy⟩⟩⟩⟩
  case stopped => rw [writeRequest_notRunning hr, toOutcome_refuse]
  case unknown => rw [writeRequest_unknown hr hf, toOutcome_refuse]
  case read => rw [writeRequest_found hr hf, if_pos (by simp [ha]), toOutcome_refuse]
  case bit => rw [writeRequest_found hr hf, if_neg (not_not.mpr ha), if_pos hb, toOutcome_refuse]
  case value => rw [writeRequest_writable hr hf ha hb, acceptWrite_badValue hx he, toOutcome_refuse]
  case busy =>
    rw [writeRequest_writable hr hf ha hb, acceptWrite_encoded hx he, if_neg hs, if_pos hp, toOutcome_refuse]

/-- Settles O58: the branches of `acceptWrite` that accept. -/
theorem writeRequestsStartOrQueue : Obligations.WriteRequestsStartOrQueue := by
  intro s name value var hr hf ha hb
  have hexec : exec (.wrq name value) s = toOutcome (acceptWrite var value s) :=
    congrArg toOutcome (writeRequest_writable hr hf ha hb)
  rw [hexec]
  refine ⟨fun xa raw hx he => ⟨fun hi hst hpos hmax => ?start, fun hs hp => ?queue⟩, fun hx => ?invalid⟩
  case start =>
    have hopen : startWrite var xa raw s =
        .ok (sessionOpened .waitWriteEnqAck .write var xa (paye raw s.cfg.mode) s) :=
      openSession_ok hi hpos hmax hst
    rw [acceptWrite_encoded hx he, if_pos hi, hopen, toOutcome_ok]
  case queue =>
    rw [acceptWrite_encoded hx he, if_neg hs, if_neg (by simp [hp]), toOutcome_ok]
  case invalid => rw [acceptWrite_invalid hx, toOutcome_ok]; rfl

/-! ## Debounce (R351) -/

/-- Settles O59: the two cases of `debounceExpired`. -/
theorem debounceReportsTheLinkDown : Obligations.DebounceReportsTheLinkDown := by
  intro s ha
  have hexec : exec .dbt s = .next (debounceExpired s) := if_pos ha
  rw [hexec]
  refine ⟨fun hl => ?_, fun hl => ?_⟩
  · rw [debounceExpired, if_pos (by exact hl)]; rfl
  · rw [debounceExpired, if_neg (by simpa using hl)]

/-! ## Close (R355 to R357) -/

section
variable {s t : State} {r : Request}

/-- The forced end of a session: nothing of it stays, and an unfinished write is reported as not done (R356,
R434). -/
def forcedIdle (r : Request) (s : State) : State :=
  { s with
    ses := resetSession
    out := s.out ++ (if r.dir = .write then [.writeDone r.var.name false] else []) }

/-- A close after a forced end forgets the frames outstanding, which the end of a session keeps. -/
theorem forceIdle_eq (hq : s.ses.req = some r) : forceIdle s = .ok (closeFinished (forcedIdle r s)) := by
  unfold forceIdle
  rw [hq]
  simp only [finishClose_eq]
  by_cases hd : r.dir = .write
  · simp only [if_pos hd, forcedIdle]; rfl
  · simp only [if_neg hd, forcedIdle, List.append_nil]; rfl

/-- A close request, in `Idle` and during a session (R355). -/
theorem exec_cls (h : s.sch.run = .running) : exec .cls s =
    .next (if s.ses.state = .idle then closeFinished s
      else { s with sch := { s.sch with run := .closing, closeWaited := 0 } }) := by
  rw [← finishClose_eq]
  simp only [exec, execCls, if_pos h]
  split <;> rfl

/-- A close-poll tick, in `Idle`, before the bound, and at it (R356). -/
theorem exec_cpt (h : s.sch.run = .closing) : exec .cpt s =
    if s.ses.state = .idle then .next (closeFinished s)
    else if s.sch.closeWaited + s.par.closePollMs < s.par.closeMaxWaitMs then
      .next { s with sch := { s.sch with closeWaited := s.sch.closeWaited + s.par.closePollMs } }
    else toOutcome (forceIdle
      { s with sch := { s.sch with closeWaited := s.sch.closeWaited + s.par.closePollMs } }) := by
  rw [← finishClose_eq]
  simp only [exec, execCpt, if_pos h, closePoll]
  by_cases hi : s.ses.state = .idle
  · simp only [if_pos hi, toOutcome_ok]
  · by_cases hn : s.sch.closeWaited + s.par.closePollMs < s.par.closeMaxWaitMs
    · simp only [if_neg hi, if_pos hn, if_neg (Nat.not_le.mpr hn), toOutcome_ok]
    · simp only [if_neg hi, if_neg hn, if_pos (Nat.not_lt.mp hn)]

/-- What a close leaves, by `CLS` or by `CPT`: the scheduler waiting, or the engine closed, with the session
ended before or forced to its end. -/
inductive CloseStep (s : State) : State → Prop
  | waits (run : RunMode) (waited : Nat) :
    CloseStep s { s with sch := { s.sch with run := run, closeWaited := waited } }
  | finishes : CloseStep s (closeFinished s)
  | forces (r : Request) (hq : s.ses.req = some r) : CloseStep s (closeFinished (forcedIdle r s))

theorem closeStep_of_cls (h : exec .cls s = .next t) : CloseStep s t := by
  by_cases hr : s.sch.run = .running
  · rw [exec_cls hr] at h
    cases h
    split
    · exact .finishes
    · exact .waits .closing 0
  · exact absurd (h.symm.trans (if_neg hr)) (by simp)

theorem closeStep_of_cpt (h : exec .cpt s = .next t) : CloseStep s t := by
  by_cases hr : s.sch.run = .closing
  · rw [exec_cpt hr] at h
    split at h
    · cases h; exact .finishes
    split at h
    · cases h; exact .waits s.sch.run _
    · cases hq : s.ses.req with
      | none => simp only [forceIdle, hq] at h; cases h
      | some r =>
        rw [forceIdle_eq (r := r) (by exact hq)] at h
        cases h
        exact .forces r hq
  · exact absurd (h.symm.trans (if_neg hr)) (by simp)

end

/-- Settles O60: `exec_cls` and `exec_cpt` case by case, with `forceIdle_eq` at the bound. -/
theorem closeWaitsThenForces : Obligations.CloseWaitsThenForces := by
  intro s
  refine ⟨fun hr => ⟨fun hi => ?cls, fun hs => ?clsWaits⟩,
    fun hr => ⟨fun hi => ?cpt, fun hs n hn => ⟨fun hlt => ?waits, fun hle r hq => ?forces⟩⟩⟩
  case cls => rw [exec_cls hr, if_pos hi]
  case clsWaits => rw [exec_cls hr, if_neg hs]
  case cpt => rw [exec_cpt hr, if_pos hi]
  case waits => subst hn; rw [exec_cpt hr, if_neg hs, if_pos hlt]
  case forces =>
    subst hn
    rw [exec_cpt hr, if_neg hs, if_neg (Nat.not_lt.mpr hle), forceIdle_eq (r := r) (by exact hq)]
    rfl

/-! ## What runs next (R342, R344) -/

section
variable {s : State}

/-- A queued write comes first (R342). -/
theorem arbitrate_write {pw : PendingWrite} (hr : s.sch.run ≠ .closing) (hp : s.sch.pendingWrite = some pw) :
    arbitrate s = dispatchWrite pw.var pw.value { s with sch := { s.sch with pendingWrite := none } } := by
  unfold arbitrate
  simp only [if_neg hr, hp]

/-- A remembered tick comes last (R344). -/
theorem arbitrate_tick (hr : s.sch.run ≠ .closing) (hp : s.sch.pendingWrite = none) (hc : s.sch.cycle = none)
    (ht : s.sch.readPending = true) :
    arbitrate s = startCycle { s with sch := { s.sch with readPending := false } } := by
  unfold arbitrate
  simp only [if_neg hr, hp, hc, ht, if_true]

end

/-- Settles O52: the end of the session leaves `afterSession` to `ARBITRATE` (`endSession_eq`), which takes the
queued write, the interrupted cycle, the remembered tick or nothing. -/
theorem queuedWorkRunsInOrder : Obligations.QueuedWorkRunsInOrder := by
  intro s o r u hs hq hslot hu
  have hend : exec (.finish o) s = toOutcome (arbitrate u) := by rw [exec_finish hs, endSession_eq hq hslot, hu]
  obtain ⟨hrun, hwrite, htick, hlatched, hcycle, hpar, -, hidle⟩ := afterSession_kept r o s
  rw [← hu] at hrun hwrite htick hlatched hcycle hpar hidle
  rw [hend]
  refine ⟨fun pw xa raw hr hp hx he => ?write, fun c pre hr hp hc hpre => ?cycle, fun hp hc ht hr => ?tick,
    fun hr => ?closing⟩
  case write =>
    rw [arbitrate_write (hrun ▸ hr) (hwrite.trans hp), dispatchWrite_encoded hx (by rw [← he, ← hpar])]
    rfl
  case cycle =>
    have hpre' : ∀ x ∈ pre, x.name ∈ u.sch.invalidLatched ∨ xltVar x = none := by rwa [hlatched]
    have hresume := arbitrate_resume (hrun ▸ hr) (hwrite.trans hp) hc
    refine ⟨fun v post xa hdrop hn hv hx => ?reads, fun hdrop hn _ => ?publishes⟩
    case reads =>
      rw [hresume, hdrop, nextFrom_first_readable hn (by exact hpre') (by rw [← hlatched] at hv; exact hv) hx]
      simp only [hc, Option.map_some]
      rfl
    case publishes =>
      rw [hresume, hdrop, nextFrom_none_readable hn (by exact hpre') (by exact hc)]
      rfl
  case tick =>
    rw [arbitrate_tick (by rw [hrun, hr]; decide) (hwrite.trans hp) (hcycle hc) (htick.trans ht),
      exec_poll_idle (by exact hrun.trans hr) (by exact hidle)]
  case closing => rw [arbitrate_rest (.inl (hrun.trans hr)), toOutcome_ok]

/-! ## Closed (R357) -/

section
variable {s : State} {i : Instr}

/-- An instruction without a number is a frame on the line, received as `RXB` of its bytes (log 12). -/
theorem exists_rxb_of_number_none (h : i.number = none) : ∃ b, ∀ s, exec i s = exec (.rxb b) s := by
  have hnumber : (encode i).number = none := (number_encode i).trans h
  cases he : encode i with
  | op n ops => rw [he] at hnumber; cases hnumber
  | wire m b => exact ⟨b, exec_of_encode_wire he⟩

theorem exec_rxb_idle (hi : s.ses.state = .idle) (b : Bytes) : exec (.rxb b) s = .next s :=
  congrArg toOutcome (receive_idle b hi)

theorem SessionInv.timer_idle {p : Config.Params} {c : Cfg} {z : Session} (h : SessionInv p c z)
    (hi : z.state = .idle) : z.timer = .disarmed := by
  rw [h.idle_reset hi]
  rfl

end

/-- Settles O16: a closed engine is quiet (R331 item 2), so that each event meets the condition that disables
it, and reception drops. -/
theorem closedIsLeftOnlyByReset : Obligations.ClosedIsLeftOnlyByReset := by
  intro s h hr
  obtain ⟨hi, -, -, -, hdebounce, htx⟩ := h.sched.quiet (.inr hr)
  obtain ⟨hpoll, htxc, htmo, hdbt, hcls, hcpt, -⟩ := eventsOutsideTheirStatesAreNotEnabled s
  have hrun : s.sch.run ≠ .running := by rw [hr]; decide
  refine ⟨exec_rxb_idle hi, fun i hn => ?frame, fun n v => ?wrq, fun c => execCfg_closed hr, ?events⟩
  case frame =>
    obtain ⟨b, hb⟩ := exists_rxb_of_number_none hn
    rw [hb, exec_rxb_idle hi]
  case wrq => exact congrArg toOutcome (writeRequest_notRunning hrun)
  case events =>
    simp only [List.forall_mem_cons, List.not_mem_nil, false_imp_iff, implies_true, and_true]
    exact ⟨hpoll hrun, htxc htx, htmo (h.session.timer_idle hi), hdbt hdebounce, hcls hrun,
      hcpt (by rw [hr]; decide)⟩

/-! ## Invalid addresses are announced once (R336, R340, R358 (5)) -/

section
variable {s t : State}

/-- From `s` to `t` the latches grew by the names of the invalid-address alerts, each of them new. -/
structure LatchesAlerts (s t : State) : Prop where
  latched : t.sch.invalidLatched = s.sch.invalidLatched ++ (newOutputs s t).filterMap invalidAlertName
  once : ((newOutputs s t).filterMap invalidAlertName).Nodup
  fresh : ∀ n ∈ (newOutputs s t).filterMap invalidAlertName, n ∉ s.sch.invalidLatched

theorem Emits.latchesAlerts {os : List Output} (h : Emits s os t) : LatchesAlerts s t := by
  constructor <;> rw [h.newOutputs_eq]
  exacts [h.latched, h.once, h.fresh]

theorem newOutputs_of_append {os : List Output} (h : t.out = s.out ++ os) : newOutputs s t = os := by
  rw [newOutputs, h, List.drop_left]

/-- A step that raises no such alert and leaves the latches. -/
theorem LatchesAlerts.of_silent {os : List Output} (hout : t.out = s.out ++ os)
    (hos : os.filterMap invalidAlertName = []) (hl : t.sch.invalidLatched = s.sch.invalidLatched) :
    LatchesAlerts s t := by
  constructor <;> rw [newOutputs_of_append hout, hos]
  · rw [hl, List.append_nil]
  · exact List.nodup_nil
  · exact fun n hn => absurd hn List.not_mem_nil

theorem completeTx_sch (s : State) : (completeTx s).sch = s.sch := by
  unfold completeTx
  dsimp only
  split <;> rfl

theorem execTxc_latchesAlerts (h : execTxc s = .next t) : LatchesAlerts s t := by
  have hsch : t.sch = s.sch := by
    unfold execTxc at h
    split at h
    · cases h
    · cases h; exact completeTx_sch s
  exact .of_silent (execTxc_announces h).out rfl (by rw [hsch])

/-- A close reports writes and its own end, and raises nothing (R357). -/
theorem CloseStep.latchesAlerts (h : CloseStep s t) : LatchesAlerts s t := by
  cases h with
  | waits run waited => exact .of_silent (os := []) (List.append_nil _).symm rfl rfl
  | finishes =>
    refine .of_silent (List.append_assoc ..) ?_ rfl
    cases s.sch.pendingWrite <;> rfl
  | forces r hq =>
    refine .of_silent ((List.append_assoc ..).trans (List.append_assoc ..)) ?_ rfl
    show List.filterMap _ (_ ++ (s.sch.pendingWrite.toList.map _ ++ _)) = _
    cases s.sch.pendingWrite <;> split <;> rfl

/-- Every instruction but `CFG` latches the names it announces. -/
theorem exec_latchesAlerts {i : Instr} (h : exec i s = .next t) (hcfg : ∀ c, i ≠ .cfg c) :
    LatchesAlerts s t := by
  by_cases htxc : i = .txc
  · subst htxc; exact execTxc_latchesAlerts h
  by_cases hcls : i = .cls
  · subst hcls; exact (closeStep_of_cls h).latchesAlerts
  by_cases hcpt : i = .cpt
  · subst hcpt; exact (closeStep_of_cpt h).latchesAlerts
  obtain ⟨os, ho⟩ := exec_emits h hcfg htxc hcls hcpt
  exact ho.latchesAlerts

theorem filterMap_clearsOf (ks : List AlertKey) (r : BitVec 15) :
    (clearsOf ks r).filterMap invalidAlertName = [] := by
  simp [clearsOf, invalidAlertName]

end

/-- Settles O13: `exec_latchesAlerts`; a `CFG` empties the latches and raises nothing (`configured`). -/
theorem invalidAddressAlertsAreOncePerVariable : Obligations.InvalidAddressAlertsAreOncePerVariable := by
  intro i s t h
  by_cases hc : ∃ c, i = .cfg c
  · obtain ⟨c, rfl⟩ := hc
    have ht : t = configured c s := eq_configured_of_execCfg h
    have hnone : (newOutputs s t).filterMap invalidAlertName = [] := by
      rw [newOutputs_of_append (by rw [ht, configured]), filterMap_clearsOf]
    rw [hnone]
    exact ⟨fun hn => absurd rfl (hn c), List.nodup_nil, fun n hn => absurd hn List.not_mem_nil,
      fun _ _ => ⟨by rw [ht, configured], rfl⟩⟩
  · have hn : ∀ c, i ≠ .cfg c := not_exists.mp hc
    have hl := exec_latchesAlerts h hn
    exact ⟨fun _ => hl.latched, hl.once, hl.fresh, fun c e => absurd e (hn c)⟩

/-! ## Every accepted write is reported once (R358 (6)) -/

/-- The writes queued. -/
def queuedWrites : Option PendingWrite → Nat
  | some _ => 1
  | none => 0

/-- The writes in session. -/
def sessionWrites : Option Request → Nat
  | some r => if r.dir = .write then 1 else 0
  | none => 0

/-- The writes reported, done or not. -/
def reportedWrites (os : List Output) : Nat := (os.filter isWriteDone).length

/-- The writes open and the writes reported so far: what every event keeps and an accepted write raises. -/
def writesAccounted (s : State) : Nat :=
  queuedWrites s.sch.pendingWrite + sessionWrites s.ses.req + reportedWrites s.out

theorem openWrites_eq (s : State) :
    openWrites s = queuedWrites s.sch.pendingWrite + sessionWrites s.ses.req := by
  unfold openWrites
  cases s.sch.pendingWrite <;> cases s.ses.req <;> rfl

@[simp] theorem reportedWrites_nil : reportedWrites [] = 0 := rfl

@[simp] theorem reportedWrites_append (a b : List Output) :
    reportedWrites (a ++ b) = reportedWrites a + reportedWrites b := by
  simp [reportedWrites]

@[simp] theorem reportedWrites_cons (o : Output) (os : List Output) :
    reportedWrites (o :: os) = (if isWriteDone o then 1 else 0) + reportedWrites os := by
  cases h : isWriteDone o <;> simp [reportedWrites, h, Nat.add_comm]

/-- Outputs of one kind, not a completion. -/
theorem reportedWrites_map {α : Type} {f : α → Output} (h : ∀ a, isWriteDone (f a) = false) (l : List α) :
    reportedWrites (l.map f) = 0 := by
  induction l with
  | nil => rfl
  | cons a l ih => simp [h a, ih]

@[simp] theorem reportedWrites_clearsOf (ks : List AlertKey) (r : BitVec 15) :
    reportedWrites (clearsOf ks r) = 0 := reportedWrites_map (fun _ => rfl) _

@[simp] theorem reportedWrites_linkReports (c : Cfg) (up : Bool) : reportedWrites (linkReports c up) = 0 :=
  reportedWrites_map (fun _ => rfl) _

@[simp] theorem reportedWrites_upReports (s : State) : reportedWrites (upReports s) = 0 := by
  unfold upReports
  split
  · rfl
  · exact reportedWrites_linkReports s.cfg true

@[simp] theorem reportedWrites_skipAlerts (names : List VarName) (vs : List VarDescr) :
    reportedWrites (skipAlerts names vs) = 0 := reportedWrites_map (fun _ => rfl) _

@[simp] theorem reportedWrites_reports : ∀ (vs : List VarDescr) (rs : List Value),
    reportedWrites (List.zipWith (fun v r => Output.report v.name r) vs rs) = 0
  | [], _ => rfl
  | _ :: _, [] => rfl
  | v :: vs, r :: rs => by
    rw [List.zipWith_cons_cons, reportedWrites_cons, reportedWrites_reports]
    rfl

section
variable {s t : State} {r : Request} {o : SessionOutcome}

/-- What the account reads: the slot, the request and the outputs. -/
theorem writesAccounted_of_outputs {os : List Output} (hp : t.sch.pendingWrite = s.sch.pendingWrite)
    (hq : t.ses.req = s.ses.req) (hout : t.out = s.out ++ os) (hos : reportedWrites os = 0) :
    writesAccounted t = writesAccounted s := by
  rw [writesAccounted, writesAccounted, hp, hq, hout, reportedWrites_append, hos, Nat.add_zero]

theorem send_accounted (f : Bytes) (s : State) : writesAccounted (send f s) = writesAccounted s :=
  writesAccounted_of_outputs rfl rfl rfl rfl

theorem raiseAlert_accounted (k : AlertKey) (n : VarName) (s : State) :
    writesAccounted (raiseAlert k n s) = writesAccounted s := writesAccounted_of_outputs rfl rfl rfl rfl

theorem latchInvalid_accounted (v : VarDescr) (s : State) :
    writesAccounted (latchInvalid v s) = writesAccounted s := writesAccounted_of_outputs rfl rfl rfl rfl

theorem skipped_accounted (vs : List VarDescr) (s : State) :
    writesAccounted (skipped vs s) = writesAccounted s :=
  writesAccounted_of_outputs rfl rfl rfl (reportedWrites_skipAlerts ..)

theorem writeDone_accounted (n : VarName) (b : Bool) (s : State) :
    writesAccounted (emit (.writeDone n b) s) = writesAccounted s + 1 := by
  simp [writesAccounted, isWriteDone, Nat.add_assoc]

/-- A write session opens one write, a read session none. -/
theorem openSession_accounted {st : SState} {dir : Dir} {var : VarDescr} {xa : XAddr} {wire : Bytes}
    (hq : s.ses.req = none) (h : openSession st dir var xa wire s = .ok t) :
    writesAccounted t = writesAccounted s + (if dir = .write then 1 else 0) := by
  obtain ⟨-, -, -, -, rfl⟩ := openSession_cases h
  have hcount : reportedWrites (s.out ++ [.tx (enquiryOf s.cfg.station)]) = reportedWrites s.out := by
    simp [isWriteDone]
  simp only [writesAccounted, sessionOpened, hq, sessionWrites, hcount]
  omega

theorem dispatchWrite_accounted {var : VarDescr} {value : Value} (hq : s.ses.req = none)
    (h : dispatchWrite var value s = .ok t) : writesAccounted t = writesAccounted s + 1 := by
  unfold dispatchWrite at h
  split at h
  · cases h
  · obtain ⟨raw, -, h⟩ := bind_ok.mp h
    exact openSession_accounted hq h

theorem nextFrom_accounted : ∀ {l : List VarDescr} {s t : State}, s.ses.req = none → nextFrom l s = .ok t →
    writesAccounted t = writesAccounted s
  | [], s, t, _, h => by
    unfold nextFrom flush at h
    split at h
    · cases h
    · cases h; exact writesAccounted_of_outputs rfl rfl rfl (reportedWrites_reports ..)
  | v :: vs, s, t, hq, h => by
    by_cases hl : v.name ∈ s.sch.invalidLatched
    · rw [nextFrom_latched hl] at h
      exact nextFrom_accounted (s := advanceCursor s) hq h
    cases hx : xltVar v with
    | none =>
      rw [nextFrom_invalid hl hx] at h
      exact (nextFrom_accounted (s := advanceCursor (latchInvalid v s)) hq h).trans (latchInvalid_accounted v s)
    | some xa =>
      rw [nextFrom_readable hl hx] at h
      exact openSession_accounted hq h

theorem startCycle_accounted (hq : s.ses.req = none) (h : startCycle s = .ok t) :
    writesAccounted t = writesAccounted s := nextFrom_accounted (s := cycleBegun s) hq h

/-- What runs next between sessions moves the queued write into its session, and opens no other. -/
theorem arbitrate_accounted (hq : s.ses.req = none) (h : arbitrate s = .ok t) :
    writesAccounted t = writesAccounted s := by
  by_cases hr : s.sch.run = .closing
  · rw [arbitrate_rest (.inl hr)] at h
    cases h
    rfl
  cases hp : s.sch.pendingWrite with
  | some pw =>
    rw [arbitrate_write hr hp] at h
    rw [dispatchWrite_accounted (s := { s with sch := { s.sch with pendingWrite := none } }) hq h]
    simp only [writesAccounted, hp, queuedWrites]
    omega
  | none =>
    cases hc : s.sch.cycle with
    | some c =>
      rw [arbitrate_resume hr hp hc] at h
      exact nextFrom_accounted (s := { s with sch := { s.sch with readPending := false } }) hq h
    | none =>
      cases ht : s.sch.readPending with
      | true =>
        rw [arbitrate_tick hr hp hc ht] at h
        exact startCycle_accounted (s := { s with sch := { s.sch with readPending := false } }) hq h
      | false =>
        rw [arbitrate_rest (.inr ⟨hp, hc, ht⟩)] at h
        cases h
        rfl

/-! ### The end of a session -/

/-- The write that a session ends is reported, done or not. -/
theorem afterSession_accounted (hq : s.ses.req = some r) (hd : outcomeDir o = r.dir) :
    writesAccounted (afterSession r o s) = writesAccounted s := by
  have hsession : sessionWrites (some r) = if outcomeDir o = .write then 1 else 0 := by rw [hd]; rfl
  have hended : sessionWrites (afterSession r o s).ses.req = 0 := by cases o <;> rfl
  rw [writesAccounted, writesAccounted, hended, hq, hsession]
  cases o with
  | readOk v => simp [afterSession, outcomeDir]
  | readFail b => simp [afterSession, outcomeDir]
  | writeOk => simp [afterSession, outcomeDir, isWriteDone]; omega
  | writeFail b => simp [afterSession, outcomeDir, isWriteDone]; omega

theorem endSession_accounted (hq : s.ses.req = some r) (hd : outcomeDir o = r.dir)
    (h : endSession o s = .ok t) : writesAccounted t = writesAccounted s := by
  rw [endSession_eq hq (exists_slot_of_endSession h)] at h
  have hnone : (afterSession r o s).ses.req = none := by cases o <;> rfl
  rw [arbitrate_accounted hnone h, afterSession_accounted hq hd]

theorem takeAbort_accounted {k : AlertKey} {b : Bool} (h : takeAbort k b s = .ok t) :
    writesAccounted t = writesAccounted s := by
  cases hq : s.ses.req with
  | none => simp only [takeAbort, hq] at h; cases h
  | some r =>
    rw [takeAbort_eq hq] at h
    rw [endSession_accounted (s := aborted k r s) hq (outcomeDir_failureOf r.dir b) h]
    exact writesAccounted_of_outputs rfl rfl rfl rfl

/-! ### Reception -/

theorem phaseReadEnqAck_accounted (h : phaseReadEnqAck s = .ok t) :
    writesAccounted t = writesAccounted s := by
  unfold phaseReadEnqAck at h
  split at h
  · cases h
  obtain ⟨v, -, h⟩ := bind_ok.mp h
  cases v with
  | fail k => exact takeAbort_accounted h
  | ok _ =>
    obtain ⟨f, -, h⟩ := bind_ok.mp h
    cases h
    exact send_accounted f s

theorem phaseReadBlock_accounted (h : phaseReadBlock s = .ok t) : writesAccounted t = writesAccounted s := by
  unfold phaseReadBlock at h
  obtain ⟨v, -, h⟩ := bind_ok.mp h
  cases v with
  | fail k => exact takeAbort_accounted h
  | ok p =>
    cases h
    by_cases hm : s.ses.blocksDone + 1 < s.ses.blocksRequired
    · rw [acceptBlock_more hm]; exact send_accounted bldAck s
    · rw [acceptBlock_last hm]; exact send_accounted bldAck s

theorem phaseReadEot_accounted (hd : ∀ r, s.ses.req = some r → r.dir = .read) (h : phaseReadEot s = .ok t) :
    writesAccounted t = writesAccounted s := by
  unfold phaseReadEot at h
  split at h
  · cases h
  rename_i r hq
  obtain ⟨v, -, h⟩ := bind_ok.mp h
  cases v with
  | fail k => exact takeAbort_accounted h
  | ok _ =>
    simp only [decodeRead] at h
    split at h
    · rw [endSession_accounted (by exact hq) (by exact (hd r hq).symm) h, raiseAlert_accounted, send_accounted]
    · obtain ⟨v, -, h⟩ := bind_ok.mp h
      rw [endSession_accounted (by exact hq) (by exact (hd r hq).symm) h, send_accounted]

theorem phaseWriteEnqAck_accounted (h : phaseWriteEnqAck s = .ok t) :
    writesAccounted t = writesAccounted s := by
  unfold phaseWriteEnqAck at h
  split at h
  · cases h
  obtain ⟨v, -, h⟩ := bind_ok.mp h
  cases v with
  | fail k => exact takeAbort_accounted h
  | ok _ =>
    obtain ⟨f, -, h⟩ := bind_ok.mp h
    cases h
    exact send_accounted f s

theorem phaseWriteAck_accounted (h : phaseWriteAck s = .ok t) : writesAccounted t = writesAccounted s := by
  unfold phaseWriteAck at h
  split at h
  · cases h
  obtain ⟨v, -, h⟩ := bind_ok.mp h
  cases v with
  | fail k => exact takeAbort_accounted h
  | ok _ =>
    dsimp only at h
    split at h
    · obtain ⟨f, -, h⟩ := bind_ok.mp h
      cases h
      exact send_accounted f s
    · cases h
      exact send_accounted bldEot s

theorem phaseWriteEot_accounted (hq : ∃ r, s.ses.req = some r ∧ r.dir = .write)
    (h : phaseWriteEot s = .ok t) : writesAccounted t = writesAccounted s := by
  obtain ⟨r, hq, hd⟩ := hq
  unfold phaseWriteEot at h
  obtain ⟨v, -, h⟩ := bind_ok.mp h
  cases v with
  | fail k => exact takeAbort_accounted h
  | ok _ => exact endSession_accounted (o := .writeOk) hq hd.symm h

/-- In a session the state tells the direction of the request (R30). -/
theorem runPhase_accounted (hq : s.ses.req = some r) (hd : dirOf s.ses.state = some r.dir)
    (h : runPhase s = .ok t) : writesAccounted t = writesAccounted s := by
  unfold runPhase at h
  cases hst : s.ses.state with rw [hst] at h hd
  | idle => cases h; rfl
  | waitReadEnqAck => exact phaseReadEnqAck_accounted h
  | waitReadDataBlock => exact phaseReadBlock_accounted h
  | waitReadEot =>
    have hread : r.dir = .read := (Option.some.inj hd).symm
    exact phaseReadEot_accounted (fun r' hq' => by rw [hq] at hq'; cases hq'; exact hread) h
  | waitWriteEnqAck => exact phaseWriteEnqAck_accounted h
  | waitWriteDataBlockAck => exact phaseWriteAck_accounted h
  | waitWriteEot => exact phaseWriteEot_accounted ⟨r, hq, (Option.some.inj hd).symm⟩ h

theorem receive_accounted {chunk : Bytes} (hc : Core s) (h : receive chunk s = .ok t) :
    writesAccounted t = writesAccounted s := by
  by_cases hi : s.ses.state = .idle
  · rw [receive_idle chunk hi] at h
    cases h
    rfl
  obtain ⟨r, hq⟩ := hc.exists_req hi
  by_cases hl : (s.ses.rx ++ chunk).length < needBytes s.ses
  · rw [receive_short hi hl] at h
    cases h
    rfl
  · rw [receive_phase hi (Nat.not_lt.mp hl)] at h
    exact runPhase_accounted (s := received chunk s) hq (hc.session.active r hq).dir h

/-! ### The host's events -/

theorem configured_accounted (c : Cfg) (s : State) : writesAccounted (configured c s) = writesAccounted s :=
  writesAccounted_of_outputs rfl rfl rfl (reportedWrites_clearsOf ..)

theorem pollTick_accounted (hc : Core s) (h : pollTick s = .ok t) : writesAccounted t = writesAccounted s := by
  unfold pollTick at h
  split at h
  · rename_i hi
    exact startCycle_accounted (hc.session.req_iff.mp hi) h
  split at h
  · cases h
  split at h
  · cases h; rfl
  · cases h; rfl

/-- An accepted write is reported, in session or queued: one more than before. -/
theorem acceptWrite_accounted {var : VarDescr} {value : Value} (hc : Core s)
    (h : acceptWrite var value s = .ok t) : writesAccounted t = writesAccounted s + 1 := by
  cases hx : xltVar var with
  | none =>
    rw [acceptWrite_invalid hx] at h
    cases h
    rw [writeDone_accounted, skipped_accounted]
  | some xa =>
    cases he : enca s.par var.format value xa.bpe var.isArray var.length with
    | error e => rw [acceptWrite_badValue hx he] at h; cases h
    | ok raw =>
      rw [acceptWrite_encoded hx he] at h
      split at h
      · rename_i hi
        exact openSession_accounted (hc.session.req_iff.mp hi) h
      split at h
      · cases h
      · rename_i hp
        cases h
        simp only [writesAccounted, queuedWrites, Option.not_isSome_iff_eq_none.mp hp]
        omega

theorem execWrq_accounted {name : VarName} {value : Value} (hc : Core s)
    (h : execWrq name value s = .next t) : writesAccounted t = writesAccounted s + 1 := by
  have h : writeRequest name value s = .ok t := toOutcome_next.mp h
  unfold writeRequest at h
  split at h
  · cases h
  split at h
  · cases h
  split at h
  · cases h
  split at h
  · cases h
  exact acceptWrite_accounted hc h

theorem debounceExpired_accounted (s : State) : writesAccounted (debounceExpired s) = writesAccounted s := by
  unfold debounceExpired
  dsimp only
  split
  · exact writesAccounted_of_outputs rfl rfl rfl (reportedWrites_linkReports ..)
  · rfl

theorem completeTx_accounted (s : State) : writesAccounted (completeTx s) = writesAccounted s := by
  unfold completeTx
  dsimp only
  split <;> rfl

/-- A close reports the queued write it drops (R357). -/
theorem closeFinished_accounted (s : State) : writesAccounted (closeFinished s) = writesAccounted s := by
  cases hp : s.sch.pendingWrite with
  | none => simp [writesAccounted, closeFinished, hp, isWriteDone]
  | some pw => simp [writesAccounted, closeFinished, hp, isWriteDone, queuedWrites]; omega

/-- A forced end reports the write it ends (R356). -/
theorem forcedIdle_accounted (hq : s.ses.req = some r) :
    writesAccounted (forcedIdle r s) = writesAccounted s := by
  by_cases hd : r.dir = .write
  · simp [writesAccounted, forcedIdle, hq, hd, isWriteDone, sessionWrites, resetSession]; omega
  · simp [writesAccounted, forcedIdle, hq, hd, sessionWrites, resetSession]

theorem CloseStep.accounted (h : CloseStep s t) : writesAccounted t = writesAccounted s := by
  cases h with
  | waits run waited => rfl
  | finishes => exact closeFinished_accounted s
  | forces r hq => rw [closeFinished_accounted, forcedIdle_accounted hq]

/-- Nothing at a port but an accepted `WRQ` changes the account. -/
theorem exec_accounted (hc : Core s) {i : Instr} (hp : i.isPort = true) (hw : ∀ n v, i ≠ .wrq n v)
    (h : exec i s = .next t) : writesAccounted t = writesAccounted s := by
  cases meaning i with
  | unit e he =>
    obtain ⟨a, -, rfl⟩ := answer_next.mp (he s ▸ h)
    rfl
  | reception chunk he => exact receive_accounted hc (toOutcome_next.mp (he s ▸ h))
  | cfg c => rw [eq_configured_of_execCfg h, configured_accounted]
  | poll =>
    simp only [exec, execPoll] at h
    split at h
    · exact pollTick_accounted hc (toOutcome_next.mp h)
    · cases h
  | wrq name value => exact absurd rfl (hw name value)
  | txc =>
    simp only [exec, execTxc] at h
    split at h
    · cases h
    · cases h; exact completeTx_accounted s
  | tmo =>
    simp only [exec, execTmo] at h
    split at h
    · exact takeAbort_accounted (toOutcome_next.mp h)
    · cases h
  | dbt =>
    simp only [exec, execDbt] at h
    split at h
    · cases h; exact debounceExpired_accounted s
    · cases h
  | cls => exact (closeStep_of_cls h).accounted
  | cpt => exact (closeStep_of_cpt h).accounted
  | srd | swr | abort | finish => cases hp

/-- In terms of the open writes and the new outputs. -/
theorem openWrites_of_accounted {n : Nat} (hout : t.out = s.out ++ newOutputs s t)
    (h : writesAccounted t = writesAccounted s + n) :
    openWrites t + ((newOutputs s t).filter isWriteDone).length = openWrites s + n := by
  rw [writesAccounted, writesAccounted, ← openWrites_eq, ← openWrites_eq, hout, reportedWrites_append] at h
  have hnew : ((newOutputs s t).filter isWriteDone).length = reportedWrites (newOutputs s t) := rfl
  omega

end

/-- Settles O14: the account of open and reported writes is kept by everything at a port (`exec_accounted`) but
an accepted `WRQ`, which adds one (`execWrq_accounted`); outputs are only appended. -/
theorem everyAcceptedWriteCompletesOnce : Obligations.EveryAcceptedWriteCompletesOnce := by
  intro i s t h hp ht
  have hc : Core s := ⟨h.session, h.sched⟩
  obtain ⟨hout, -, -⟩ := alertBitsFollowTheOutputs i s t ht
  refine ⟨fun hw => openWrites_of_accounted (n := 0) hout (exec_accounted hc hp hw ht), ?wrq⟩
  case wrq =>
    rintro n v rfl
    exact openWrites_of_accounted hout (execWrq_accounted hc ht)

end Sys2Proof.Machine

/-! PROOFS. One step and reset (`60_exceptions.md` R371, R384; `70_reset_and_hazards.md` R421): what a step makes
of each outcome, and the base case of the engine's invariant (O4, O5, O6). -/

namespace Sys2Proof.Machine

/-! ## What a step makes of an outcome (R371, R384) -/

section
variable {s t : State} {d : Input} {ds : List Input} {i : Instr}

theorem step_of_next (hq : s.inbox = d :: ds) (hd : decode d = .ok i) (he : exec i (s.take ds) = .next t) :
    step s = .next t := by
  rw [step_of_decode hq hd, he]; rfl

/-- A refusal of R371 drops the delivery and shows in the answer. -/
theorem step_of_refuse {r : Reason} (hq : s.inbox = d :: ds) (hd : decode d = .ok i)
    (he : exec i (s.take ds) = .refused (.refuse r)) :
    step s = .next { s with inbox := ds, reply := .refused r } := by
  rw [step_of_decode hq hd, he]; rfl

theorem step_of_notEnabled (hq : s.inbox = d :: ds) (hd : decode d = .ok i)
    (he : exec i (s.take ds) = .refused .notEnabled) : step s = .refused .notEnabled := by
  rw [step_of_decode hq hd, he]; rfl

theorem step_of_fault {f : Fault} (hq : s.inbox = d :: ds) (hd : decode d = .ok i)
    (he : exec i (s.take ds) = .fault f) : step s = .fault f := by
  rw [step_of_decode hq hd, he]; rfl

end

/-- Settles O4: a delivery decodes or not, and each outcome of `exec` has its lemma above. -/
theorem stepRunsTheDecodedInstruction : Obligations.StepRunsTheDecodedInstruction := by
  refine ⟨?decoded, ?undecodable, ?empty⟩
  case decoded =>
    intro s d rest i hq hd
    exact ⟨fun _ => step_of_next hq hd, fun _ => step_of_refuse hq hd, step_of_notEnabled hq hd,
      fun _ => step_of_fault hq hd⟩
  case undecodable => exact fun _ _ _ _ => step_of_undecodable
  case empty => exact fun _ => step_of_empty

/-! ## Reset (R421) -/

@[simp] theorem reset_cfg : State.reset.cfg = resetCfg := rfl
@[simp] theorem reset_ses : State.reset.ses = resetSession := rfl
@[simp] theorem reset_sch : State.reset.sch = resetSched := rfl
@[simp] theorem reset_inbox : State.reset.inbox = [] := rfl

/-- No sticky alert is raised after reset (R38). -/
@[simp] theorem reset_raised_getLsbD (n : Nat) : State.reset.raised.getLsbD n = false := BitVec.getLsbD_zero

/-- Settles O5: the registers are those of `resetSession`, `resetSched` and `resetCfg`, and no alert is raised. -/
theorem resetLeavesTheStatedValues : Obligations.ResetLeavesTheStatedValues := by
  simp [Obligations.ResetLeavesTheStatedValues, resetSession, resetSched, resetCfg]

/-- After reset no session, cycle or write is there to constrain, and the unconfigured engine is quiet. -/
theorem schedInv_reset : SchedInv State.reset where
  configured h := absurd rfl h
  rest _ _ := ⟨rfl, rfl, rfl⟩
  reading _ h := nomatch h
  cycle _ h := nomatch h
  readPending h := nomatch h
  debounce h := nomatch h
  quiet _ := ⟨rfl, rfl, rfl, rfl, rfl, rfl⟩
  pending _ h := nomatch h
  latched _ h := nomatch h
  latched_once := .nil

/-- Settles O6: the session is idle (`sessionInv_idle`), the scheduler is at its reset values and nothing is
delivered. -/
theorem resetSatisfiesTheEngineInvariant : Obligations.ResetSatisfiesTheEngineInvariant where
  session := sessionInv_idle _ _ 0
  sched := schedInv_reset
  accMax := Nat.le_refl 65535
  ports := by simp

end Sys2Proof.Machine
